-- ==== Sys2Proof/Word.lean ====
section
/-! DEFINITION. Word.lean: the word types of EPD-FBC.
A byte is 8 bits (R8), an argument register 16 bits (R21), a command word and a host bus word 32 bits (R23, R39),
a host address 22 bits (R39). -/

namespace Sys2Proof

/-- A byte (R8): a buffer byte, a panel byte, the immediate field IMM8. -/
abbrev Byte := BitVec 8

/-- A 16-bit argument register or half of an image register (R21, R28). -/
abbrev Half := BitVec 16

/-- A 32-bit word: a command word, or a word on the host bus (R23, R39). -/
abbrev Word := BitVec 32

/-- A byte address of the host space, `0x000000` to `0x3FFFFF` (R39). -/
abbrev HostAddr := BitVec 22

end Sys2Proof
end

