-- ==== Sys2Proof/Syntax.lean ====
section
/-! DEFINITION. Syntax.lean: the commands of EPD-FBC, one constructor per row of the opcode map (R56), and the
assembly lines of a host program (R61 to R67). -/

namespace Sys2Proof

/-- R10, R53 bit C: the logical colour. -/
inductive Colour where
  /-- `C = 0` -/
  | white
  /-- `C = 1` -/
  | black
  deriving DecidableEq, Repr

/-- R53 bit M: the refresh mode, passed with each refresh and not stored (R37). -/
inductive RefreshMode where
  /-- `M = 0`: full-quality -/
  | full
  /-- `M = 1`: fast -/
  | fast
  deriving DecidableEq, Repr

/-- R53 bit S: the buffer a display sends; also the two host windows (R40). -/
inductive Source where
  /-- `S = 0`: the framebuffer -/
  | fb
  /-- `S = 1`: the pipeline buffer -/
  | pb
  deriving DecidableEq, Repr

/-- R55, R56: the commands. Every field's type is exactly the field of the word (R53), so every term is well formed. -/
inductive Instr where
  /-- FB_SETPIXEL (R69) -/
  | fbSetPixel (c : Colour)
  /-- FB_HLINE (R70) -/
  | fbHLine (c : Colour)
  /-- FB_VLINE (R71) -/
  | fbVLine (c : Colour)
  /-- FB_RECT (R72) -/
  | fbRect (c : Colour)
  /-- FB_FILLRECT (R73) -/
  | fbFillRect (c : Colour)
  /-- FB_CLEAR (R74) -/
  | fbClear
  /-- FB_FILL (R75) -/
  | fbFill (c : Colour)
  /-- FB_LOAD_BEGIN (R76) -/
  | fbLoadBegin
  /-- FB_LOAD_BYTE (R77) -/
  | fbLoadByte (imm : Byte)
  /-- FB_LOAD_COMMIT (R78) -/
  | fbLoadCommit
  /-- FB_LOAD_PB (R79) -/
  | fbLoadPb
  /-- PIPE_BEGIN (R86) -/
  | pipeBegin
  /-- PIPE_PIX (R87) -/
  | pipePix (imm : Byte)
  /-- PIPE_ABORT (R88) -/
  | pipeAbort
  /-- PNL_INIT (R108) -/
  | pnlInit
  /-- PNL_CLEAR (R109) -/
  | pnlClear (m : RefreshMode)
  /-- PNL_DISPLAY (R110) -/
  | pnlDisplay (m : RefreshMode) (s : Source)
  /-- PNL_SLEEP (R111) -/
  | pnlSleep
  /-- PNL_CLEANUP (R112) -/
  | pnlCleanup
  deriving DecidableEq, Repr

/-- The mnemonic of a command line (R56), without its qualifiers. -/
inductive Mnemonic where
  | FB_SETPIXEL | FB_HLINE | FB_VLINE | FB_RECT | FB_FILLRECT | FB_CLEAR | FB_FILL
  | FB_LOAD_BEGIN | FB_LOAD_BYTE | FB_LOAD_COMMIT | FB_LOAD_PB
  | PIPE_BEGIN | PIPE_PIX | PIPE_ABORT
  | PNL_INIT | PNL_CLEAR | PNL_DISPLAY | PNL_SLEEP | PNL_CLEANUP
  deriving DecidableEq, Repr

/-- The host registers of R40 by name. -/
inductive RegName where
  | CMD | STATUS | RESULT | STICKY_CLR | ARG0 | ARG1 | ARG2 | ARG3
  | GEOM | FB_SIZE | PIPE_DIM | PIPE_OFF | PIPE_CNT | LOAD_CNT
  deriving DecidableEq, Repr

/-- R61: a command line, a mnemonic with its qualifiers; an absent qualifier is its zero value. -/
structure CommandLine where
  mnemonic : Mnemonic
  c        : Option Colour := none
  m        : Option RefreshMode := none
  s        : Option Source := none
  byte     : Option Nat := none
  deriving DecidableEq, Repr

/-- R61 to R67: the assembly lines of a host program. Labels and branches are the host's own language (R61). -/
inductive AsmLine where
  /-- `wr REG, value` -/
  | wr (reg : RegName) (value : Word)
  /-- `rd REG` -/
  | rd (reg : RegName)
  /-- `rdb FB[i] | PB[i]` -/
  | rdb (buf : Source) (i : Nat)
  /-- a command line -/
  | command (line : CommandLine)
  /-- `ARGS a0, a1, a2, a3` (R62); `none` is the operand written `_` -/
  | args (a0 a1 : Option Int) (a2 a3 : Option Nat)
  /-- `WAITIDLE` (R63) -/
  | waitIdle
  /-- `CHECK` (R64), up to the host's own branch -/
  | check
  /-- `LOAD [b0, ...]` (R65) -/
  | load (bytes : List Byte)
  /-- `LOADIMAGE srcW, srcH` (R66) with the greyscale pixels the external codec delivers -/
  | loadImage (srcW srcH : Nat) (pixels : List Byte)
  /-- `LOADIMAGE srcW, srcH` (R66) when the codec fails after that many pixels; PIPE_BEGIN has been issued (log entry 25) -/
  | loadImageFailed (srcW srcH : Nat) (pixels : List Byte)
  /-- `SETPIXEL x, y, c` (R67) -/
  | setPixel (x y : Int) (c : Colour)
  /-- `HLINE x, y, len, c` (R67) -/
  | hLine (x y : Int) (len : Nat) (c : Colour)
  /-- `VLINE x, y, len, c` (R67) -/
  | vLine (x y : Int) (len : Nat) (c : Colour)
  /-- `RECT x, y, w, h, c` (R67) -/
  | rect (x y : Int) (w h : Nat) (c : Colour)
  /-- `FILLRECT x, y, w, h, c` (R67) -/
  | fillRect (x y : Int) (w h : Nat) (c : Colour)
  deriving DecidableEq, Repr

end Sys2Proof
end

