-- ==== Sys2Proof/Decode.lean ====
section
/-! DEFINITION. Decode.lean: the opcode map (R56), the decoder (R57), the encoder (R53, R56).
Decoding is total on 32-bit words; a word that matches no row is rejected by name, and the machine completes it with
IllegalCommand (R57, R58). A command has no byte form: it is one 32-bit write to CMD (R52, R59). -/

namespace Sys2Proof

/-- Why a word is illegal (R57). -/
inductive IllegalWord where
  /-- a 1 in bits [15:11] or [31:24] -/
  | reservedBits
  /-- an OP value not in the table -/
  | unassignedOp
  /-- a 1 in a field the command does not use -/
  | unusedField
  deriving DecidableEq, Repr

/-- R53 bit 8. -/
def colourField (w : Word) : Colour := if w.getLsbD 8 then .black else .white

/-- R53 bit 9. -/
def modeField (w : Word) : RefreshMode := if w.getLsbD 9 then .fast else .full

/-- R53 bit 10. -/
def sourceField (w : Word) : Source := if w.getLsbD 10 then .pb else .fb

/-- R53 bits [23:16]. -/
def immField (w : Word) : Byte := w.extractLsb' 16 8

/-- One row of the opcode map: `match` under `mask`, and the instruction its fields give. -/
structure OpcodeRow where
  mask    : Word
  pattern : Word
  build   : Word → Instr

/-- R56, the framebuffer family's drawing rows. -/
def drawingRows : List OpcodeRow :=
  [ ⟨0xFFFFFEFF, 0x00000010, fun w => .fbSetPixel (colourField w)⟩,
    ⟨0xFFFFFEFF, 0x00000011, fun w => .fbHLine (colourField w)⟩,
    ⟨0xFFFFFEFF, 0x00000012, fun w => .fbVLine (colourField w)⟩,
    ⟨0xFFFFFEFF, 0x00000013, fun w => .fbRect (colourField w)⟩,
    ⟨0xFFFFFEFF, 0x00000014, fun w => .fbFillRect (colourField w)⟩,
    ⟨0xFFFFFFFF, 0x00000015, fun _ => .fbClear⟩,
    ⟨0xFFFFFEFF, 0x00000016, fun w => .fbFill (colourField w)⟩ ]

/-- R56, the framebuffer family's load rows. -/
def loadRows : List OpcodeRow :=
  [ ⟨0xFFFFFFFF, 0x00000018, fun _ => .fbLoadBegin⟩,
    ⟨0xFF00FFFF, 0x00000019, fun w => .fbLoadByte (immField w)⟩,
    ⟨0xFFFFFFFF, 0x0000001A, fun _ => .fbLoadCommit⟩,
    ⟨0xFFFFFFFF, 0x0000001B, fun _ => .fbLoadPb⟩ ]

/-- R56, the pipeline family. -/
def pipelineRows : List OpcodeRow :=
  [ ⟨0xFFFFFFFF, 0x00000020, fun _ => .pipeBegin⟩,
    ⟨0xFF00FFFF, 0x00000021, fun w => .pipePix (immField w)⟩,
    ⟨0xFFFFFFFF, 0x00000022, fun _ => .pipeAbort⟩ ]

/-- R56, the panel family. -/
def panelRows : List OpcodeRow :=
  [ ⟨0xFFFFFFFF, 0x00000030, fun _ => .pnlInit⟩,
    ⟨0xFFFFFDFF, 0x00000031, fun w => .pnlClear (modeField w)⟩,
    ⟨0xFFFFF9FF, 0x00000032, fun w => .pnlDisplay (modeField w) (sourceField w)⟩,
    ⟨0xFFFFFFFF, 0x00000033, fun _ => .pnlSleep⟩,
    ⟨0xFFFFFFFF, 0x00000034, fun _ => .pnlCleanup⟩ ]

/-- R56: the opcode map. -/
def opcodeRows : List OpcodeRow := drawingRows ++ loadRows ++ pipelineRows ++ panelRows

/-- R57: the word matches the row. -/
def OpcodeRow.matchesWord (r : OpcodeRow) (w : Word) : Bool := w &&& r.mask == r.pattern

/-- R57: the OP values of the table. -/
def assignedOp (op : Byte) : Bool := opcodeRows.any fun r => r.pattern.setWidth 8 == op

/-- R57: the name of what makes a word illegal. -/
def illegalReason (w : Word) : IllegalWord :=
  if w &&& 0xFF00F800#32 != 0#32 then .reservedBits
  else if assignedOp (w.setWidth 8) then .unusedField
  else .unassignedOp

/-- R57: a word decodes to the unique row it matches; a word that matches none is illegal. -/
def decode (w : Word) : Except IllegalWord Instr :=
  match opcodeRows.find? (fun r => r.matchesWord w) with
  | some r => .ok (r.build w)
  | none => .error (illegalReason w)

/-- R53: bit C of the word. -/
def colourBit : Colour → Word
  | .white => 0#32
  | .black => 0x100#32

/-- R53: bit M of the word. -/
def modeBit : RefreshMode → Word
  | .full => 0#32
  | .fast => 0x200#32

/-- R53: bit S of the word. -/
def sourceBit : Source → Word
  | .fb => 0#32
  | .pb => 0x400#32

/-- R53: the field IMM8 in place. -/
def immBits (imm : Byte) : Word := imm.setWidth 32 <<< 16

/-- R56: the OP value of each command. -/
def Instr.opcode : Instr → Byte
  | .fbSetPixel _ => 0x10
  | .fbHLine _ => 0x11
  | .fbVLine _ => 0x12
  | .fbRect _ => 0x13
  | .fbFillRect _ => 0x14
  | .fbClear => 0x15
  | .fbFill _ => 0x16
  | .fbLoadBegin => 0x18
  | .fbLoadByte _ => 0x19
  | .fbLoadCommit => 0x1A
  | .fbLoadPb => 0x1B
  | .pipeBegin => 0x20
  | .pipePix _ => 0x21
  | .pipeAbort => 0x22
  | .pnlInit => 0x30
  | .pnlClear _ => 0x31
  | .pnlDisplay _ _ => 0x32
  | .pnlSleep => 0x33
  | .pnlCleanup => 0x34

/-- R55: the word's fields above OP. -/
def Instr.fieldBits : Instr → Word
  | .fbSetPixel c => colourBit c
  | .fbHLine c => colourBit c
  | .fbVLine c => colourBit c
  | .fbRect c => colourBit c
  | .fbFillRect c => colourBit c
  | .fbClear => 0#32
  | .fbFill c => colourBit c
  | .fbLoadBegin => 0#32
  | .fbLoadByte imm => immBits imm
  | .fbLoadCommit => 0#32
  | .fbLoadPb => 0#32
  | .pipeBegin => 0#32
  | .pipePix imm => immBits imm
  | .pipeAbort => 0#32
  | .pnlInit => 0#32
  | .pnlClear m => modeBit m
  | .pnlDisplay m s => modeBit m ||| sourceBit s
  | .pnlSleep => 0#32
  | .pnlCleanup => 0#32

/-- R56: `OP | C << 8 | M << 9 | S << 10 | IMM8 << 16`, unused fields 0. -/
def encode (i : Instr) : Word := i.opcode.setWidth 32 ||| i.fieldBits

/-- The instruction the decoder reads from a word of `nbits` bits as spec/opcode_table.json numbers them, the bits
above `nbits` being 0. Every command is one 32-bit word (R59), so a longer one is none. -/
def decodeTableWord (nbits w : Nat) : Option Instr :=
  if nbits ≤ 32 then (decode (BitVec.ofNat 32 (w % 2 ^ nbits))).toOption else none

end Sys2Proof
end

