-- ==== Sys2Proof/Config.lean ====
section
/-! DEFINITION. Config.lean: the parameters of a model instance (R6, R38, R101) and the free values.
A configuration is plain data; a machine carries its own and no step changes it. The parameters the spec leaves OPEN
and the environment's draws are opaque constants: nothing can evaluate them. -/

namespace Sys2Proof

/-- Unit of the X address parameters (R101, field X_UNIT). -/
inductive XUnit where
  | pixel
  | byte
  deriving DecidableEq, Repr, Inhabited

/-- Chip-select framing of the transport (R6, R95). -/
inductive CsMode where
  | perTransaction
  | none
  deriving DecidableEq, Repr, Inhabited

/-- R101: the bytes the source names without giving. -/
structure PanelProgram where
  cmdTemp       : Byte
  dataTemp      : List Byte
  cmdSoftstart  : Byte
  dataSoftstart : List Byte
  drvoutTail    : List Byte
  cmdBorder     : Byte
  dataBorder    : List Byte
  dataEntry     : Byte
  xUnit         : XUnit
  cmdRam2       : Byte
  dataSleep     : Byte
  refreshFull   : Byte
  refreshFast   : Byte
  deriving DecidableEq, Repr, Inhabited

/-- R6, R136: the five OPEN durations, in a unit the model does not fix. No rule depends on them. -/
structure Durations where
  poll    : Nat
  rstPre  : Nat
  rstLow  : Nat
  rstPost : Nat
  sleep   : Nat
  deriving DecidableEq, Repr, Inhabited

/-- R6, R38: the parameters of one model instance, fixed for its life. -/
structure Config where
  width           : Nat
  height          : Nat
  busyPollCap     : Nat
  secondaryBankEn : Bool
  csMode          : CsMode
  program         : PanelProgram
  durations       : Durations
  deriving DecidableEq, Repr, Inhabited

namespace Config

/-- R6: `ROWBYTES = W / 8`. -/
def rowBytes (cfg : Config) : Nat := cfg.width / 8

/-- R6, R15: `SIZE = (W / 8) * H`, the length of FB, PB and STAGE. -/
def size (cfg : Config) : Nat := cfg.width / 8 * cfg.height

/-- R6, R83: THRESH, fixed at 128 by the spec. -/
def thresh : Nat := 128

/-- R6, R90: the BUSY level that means "busy". -/
def busyActive : Bool := true

/-- Free value (R101): the PanelProgram of the instance that comes out of reset. OPEN in the spec. -/
opaque openProgram : PanelProgram

/-- Free value (R6, R136): the durations of the instance that comes out of reset. OPEN in the spec. -/
opaque openDurations : Durations

/-- Free value (R6): SECONDARY_BANK_EN of the instance that comes out of reset. OPEN in the spec. -/
opaque openSecondaryBankEn : Bool

/-- Free value (R6): CS_MODE of the instance that comes out of reset. OPEN in the spec. -/
opaque openCsMode : CsMode

/-- Free value (R91): the n-th transport answer past the listed ones; `true` is ok. -/
opaque freeAnswer : Nat → Bool

/-- Free value (R97): the n-th BUSY level past the listed ones. -/
opaque freeBusy : Nat → Bool

/-- Free value (R41, R132, S2): the n-th byte read from a window of a buffer the running command may write. -/
opaque freeWindowByte : Nat → Byte

/-- Free value (R132, S3): whether the n-th read of a register during a command gives the value before the command's write
(`true`) or after it. -/
opaque freeChoice : Nat → Bool

/-- Free value (R20, S1): byte i of STAGE where nothing has been staged. -/
opaque freeStageByte : Nat → Byte

/-- The default instance (R6): W = 800, H = 480, BUSY_POLL_CAP = 1000, every OPEN parameter free. -/
def standard : Config where
  width := 800
  height := 480
  busyPollCap := 1000
  secondaryBankEn := openSecondaryBankEn
  csMode := openCsMode
  program := openProgram
  durations := openDurations

end Config

end Sys2Proof
end

