-- ==== Sys2Proof/Machine/State.lean ====
section
/-! DEFINITION. Machine/State.lean: the state of EPD-FBC (10_state.md), its environment's pending inputs, its stops and
its reset value (R130). Plain data throughout. -/

namespace Sys2Proof.Machine

/-- A buffer as (index, byte) cells, in canonical form: indexes rise strictly and no cell holds the byte an unlisted
index reads as (`Memory.unlisted`). STAGE uses the same cells with no such byte. -/
abbrev Memory := List Host.Cell

/-- R30: the states of the protocol state machine. -/
inductive PState where
  | unpowered | resetting | awaitingReady | configured | idle | transferring | refreshing | sleeping
  deriving DecidableEq, Repr

/-- R114: the result codes. -/
inductive ResultCode where
  | ok | transportError | sizeMismatch | decodeFailure | emptyImage | notInitialized | illegalCommand | sequenceError
  | imageNotReady
  deriving DecidableEq, Repr

/-- R25: the RESULT register. -/
structure Result where
  code   : ResultCode
  opbto  : Bool
  lastop : Byte
  deriving DecidableEq, Repr

/-- R21, R22: four 16-bit argument registers, or their latches. -/
structure Args where
  a0 : Half
  a1 : Half
  a2 : Half
  a3 : Half
  deriving DecidableEq, Repr

/-- R26: the sticky STATUS bits. -/
structure Sticky where
  bto  : Bool
  ovr  : Bool
  berr : Bool
  deriving DecidableEq, Repr

/-- R28: the image-unit registers PIPE_DIM (TW, TH), PIPE_OFF (XOFF, YOFF) and PIPE_CNT. -/
structure ImageRegs where
  tw   : Half
  th   : Half
  xoff : Half
  yoff : Half
  cnt  : Word
  deriving DecidableEq, Repr

/-- R33: the levels of the panel port's output lines. -/
structure Lines where
  rstN  : Bool
  dc    : Bool
  csN   : Bool
  pwrEn : Bool
  deriving DecidableEq, Repr

/-- R91, R92: the lines driven by line events. -/
inductive Line where
  | rstN
  | pwrEn
  deriving DecidableEq, Repr

/-- R91, R96: the named durations of `Wait`. -/
inductive WaitName where
  | poll | rstPre | rstLow | rstPost | sleep
  deriving DecidableEq, Repr

/-- R91: the events of the panel trace. -/
inductive PanelEvent where
  | line (l : Line) (v : Bool)
  | cmd (b : Byte)
  | data (b : Byte)
  | wait (t : WaitName)
  | sample (v : Bool)
  deriving DecidableEq, Repr

/-- R35: one line of a command's rule, as the sequencer works through it. `Machine/Sequencer.lean` gives each its
effect. A rule's `finish` is the end of the list. -/
inductive Micro where
  /-- `if RELEASED = 1: raise TransportError` (R108 to R111) -/
  | needHandles
  /-- `if INIT = 0: raise NotInitialized` (R109 to R111) -/
  | needInit
  /-- `if PB_VALID = 0: raise ImageNotReady` (R79, R110) -/
  | needImage
  /-- `if LOAD_ACT = 0: raise SequenceError` (R77, R78) -/
  | needLoad
  /-- `if LOAD_CNT != SIZE: raise SizeMismatch` (R78) -/
  | needFullLoad
  /-- `if PIPE_ACT = 0: raise SequenceError` (R87) -/
  | needStream
  /-- `if TW = 0 or TH = 0: raise EmptyImage` (R86) -/
  | needPixels
  /-- `SetPix(FB, x, y, c)` (R69) -/
  | drawPixel (c : Colour)
  /-- the loop of R70 -/
  | drawHLine (c : Colour)
  /-- the loop of R71 -/
  | drawVLine (c : Colour)
  /-- the four runs of R72 -/
  | drawRect (c : Colour)
  /-- the loop of R73 -/
  | drawFillRect (c : Colour)
  /-- `for i in 0 .. SIZE-1: FB[i] <- v` (R74, R75, R109) -/
  | fillFb (v : Byte)
  /-- `for i in 0 .. SIZE-1: FB[i] <- STAGE[i]` (R78) -/
  | copyStage
  /-- `for i in 0 .. SIZE-1: FB[i] <- PB[i]` (R79) -/
  | copyPb
  /-- `LOAD_ACT <- v` (R76, R78) -/
  | setLoadAct (v : Bool)
  /-- `LOAD_CNT <- 0` (R76) -/
  | clearLoadCnt
  /-- `if LOAD_CNT < SIZE: STAGE[LOAD_CNT] <- imm` (R77) -/
  | stageByte (imm : Byte)
  /-- `if LOAD_CNT <= SIZE: LOAD_CNT <- LOAD_CNT + 1` (R77) -/
  | countByte
  /-- `(TW, TH) <- Scale(sw, sh)` (R86) -/
  | scale
  /-- `XOFF <- ...; YOFF <- ...` (R86) -/
  | center
  /-- `CNT <- 0` (R86) -/
  | clearPipeCnt
  /-- `PB_VALID <- v` (R86, R88) -/
  | setPbValid (v : Bool)
  /-- `PIPE_ACT <- v` (R86, R88) -/
  | setPipeAct (v : Bool)
  /-- `for i in 0 .. SIZE-1: PB[i] <- 0xFF` (R86) -/
  | whitenPb
  /-- `if g < THRESH: SetPix(PB, ...)` (R87) -/
  | packPixel (g : Byte)
  /-- `CNT <- k + 1` (R87) -/
  | countPixel
  /-- `if CNT = TW * TH: PIPE_ACT <- 0; PB_VALID <- 1` (R87), PB_VALID in a step of its own -/
  | closeImage
  /-- `raise code` (R88) -/
  | raise (code : ResultCode)
  /-- `PSTATE <- p`, with the INIT value R31 ties to it (R102, R104, R108 to R111) -/
  | protocol (p : PState) (init : Bool)
  /-- `SetLine(l, v)` (R92) -/
  | setLine (l : Line) (v : Bool)
  /-- `Delay(t)` (R96) -/
  | delay (t : WaitName)
  /-- `SendCommand(b)` (R93) -/
  | sendCommand (b : Byte)
  /-- `SendData(bs)`, or what is left of it (R94) -/
  | sendData (bs : List Byte)
  /-- `BusyWait()` at its start (R98) -/
  | busyWait
  /-- the loop of `BusyWait()` (R98) -/
  | poll
  /-- `if RELEASED = 1: finish` (R112) -/
  | finishIfReleased
  /-- `a <- emit(Line(PWR_EN, 0)); level(PWR_EN) <- 0` (R112) -/
  | cutPower
  /-- `PSTATE <- Unpowered; INIT <- 0` with the transport's answer `a` at hand (R112) -/
  | endSession (a : Bool)
  /-- `RELEASED <- 1` (R112) -/
  | releaseHandles (a : Bool)
  /-- `if a = fail: raise TransportError` (R112) -/
  | reportAnswer (a : Bool)
  deriving DecidableEq, Repr

/-- R34, R35: the sequencer's position. RUN = 1 in every position but `idle`. -/
inductive SeqPos where
  /-- no command running -/
  | idle
  /-- a command accepted, nothing of it executed yet (R60) -/
  | accepted
  /-- the lines of the running command's rule still to be executed -/
  | running (rest : List Micro)
  deriving DecidableEq, Repr

/-- R42: the access widths. -/
inductive AccessSize where
  | one | two | four
  deriving DecidableEq, Repr

/-- What a host or the reset input can do to the block (R42, R129). -/
inductive HostAct where
  /-- `MemRead(addr, n)` -/
  | read (addr : HostAddr) (n : AccessSize)
  /-- `MemWrite(addr, n, v)` -/
  | write (addr : HostAddr) (n : AccessSize) (v : Word)
  /-- the RESET_N input driven to a level -/
  | resetN (level : Bool)
  deriving DecidableEq, Repr

/-- A pending input of the block. `act after a`: it arrives when the running command has made `after` more sequencer
steps, or at once if none runs (R49, D37). `waitIdle`: the host polls STATUS until RUN reads 0 (R63). -/
inductive HostEvent where
  | act (after : Nat) (a : HostAct)
  | waitIdle
  deriving DecidableEq, Repr

/-- The environment's draws: the pending transport answers (R91, `true` is ok) and BUSY levels (R97), and how many free
values have been taken of each kind once the lists are used up. -/
structure Env where
  answers      : List Bool
  busy         : List Bool
  answersDrawn : Nat
  busyDrawn    : Nat
  bytesDrawn   : Nat
  choicesDrawn : Nat
  deriving DecidableEq, Repr

/-- The machine. `cfg` is the instance's configuration, which no step changes (R38); `before`, `beforeLoadCnt` (the
counter registers at acceptance, R132), `env`, `inbox` and `replies` are the model's own. -/
structure State where
  /-- configuration (R38) -/
  cfg       : Config
  /-- FB (R15) -/
  fb        : Memory
  /-- PB (R18) -/
  pb        : Memory
  /-- STAGE (R20) -/
  stage     : Memory
  /-- PB_VALID (R19) -/
  pbValid   : Bool
  /-- LOAD_ACT (R20) -/
  loadAct   : Bool
  /-- LOAD_CNT (R20, R29) -/
  loadCnt   : Word
  /-- ARG0 to ARG3 (R21) -/
  args      : Args
  /-- LARG0 to LARG3 (R22) -/
  largs     : Args
  /-- CUR (R22) -/
  cur       : Word
  /-- STATUS.BTO, OVR, BERR (R26) -/
  sticky    : Sticky
  /-- RESULT (R25) -/
  result    : Result
  /-- PIPE_DIM, PIPE_OFF, PIPE_CNT (R28) -/
  image     : ImageRegs
  /-- PIPE_ACT (R28) -/
  pipeAct   : Bool
  /-- PSTATE (R30) -/
  pstate    : PState
  /-- INIT (R31) -/
  init      : Bool
  /-- RELEASED (R32) -/
  released  : Bool
  /-- RST_N, DC, CS_N, PWR_EN (R33) -/
  lines     : Lines
  /-- the sequencer's position (R34, R35) -/
  seq       : SeqPos
  /-- the busy-wait sample counter (R35, R98) -/
  busyCnt   : Nat
  /-- opbto (R35, R116) -/
  opbto     : Bool
  /-- the panel trace, oldest event first (R91) -/
  trace     : List PanelEvent
  /-- the level of the reset input RESET_N, low = reset asserted (R129) -/
  resetN    : Bool
  /-- the image registers at the running command's acceptance -/
  before    : ImageRegs
  /-- LOAD_CNT at the running command's acceptance -/
  beforeLoadCnt : Word
  /-- the environment's draws -/
  env       : Env
  /-- the host's pending accesses, next first -/
  inbox     : List HostEvent
  /-- the answers to the host's reads, oldest first; `none` where reset left the read unanswered (R129) -/
  replies   : List (Option Word)
  deriving DecidableEq, Repr

/-- The block names no behaviour that stops it: it has no trap (R119), every access and every word has a defined outcome
(R42, R58), and no row of 93_implementation_defined.md is a fault. So no fault exists and no step raises one. Safe. -/
inductive Fault where
  deriving DecidableEq, Repr

/-- The reasons a step has no meaning. -/
inductive Refusal where
  /-- An instruction without a meaning. No arm of `exec` raises it any more. Safe. -/
  | notModelled (mnemonic : String)
  /-- Raised by `step` when the configuration is outside the limits of R6 and D36 (U16: "geometries outside them: refuse").
  Safe. -/
  | geometryOutsideModel
  deriving DecidableEq, Repr

/-- R21, R22: four argument registers at 0. -/
def Args.zero : Args := ⟨0, 0, 0, 0⟩

/-- R28: the image registers at 0. -/
def ImageRegs.zero : ImageRegs := ⟨0, 0, 0, 0, 0⟩

/-- R130: every piece of state after reset, for the instance with this configuration. FB and PB are white (nothing listed),
STAGE is unspecified (nothing listed). The environment has given no draw and the host no access. -/
def State.ofConfig (cfg : Config) : State where
  cfg := cfg
  fb := []
  pb := []
  stage := []
  pbValid := false
  loadAct := false
  loadCnt := 0
  args := Args.zero
  largs := Args.zero
  cur := 0
  sticky := ⟨false, false, false⟩
  result := ⟨.ok, false, 0⟩
  image := ImageRegs.zero
  pipeAct := false
  pstate := .unpowered
  init := false
  released := false
  lines := ⟨true, false, true, false⟩
  seq := .idle
  busyCnt := 0
  opbto := false
  trace := []
  resetN := true
  before := ImageRegs.zero
  beforeLoadCnt := 0
  env := ⟨[], [], 0, 0, 0, 0⟩
  inbox := []
  replies := []

/-- The machine right after reset (R129, R130), with the default parameters of R6. -/
def State.reset : State := State.ofConfig Config.standard

end Sys2Proof.Machine
end

