-- ==== Sys2Proof/Machine/Ops.lean ====
section
/-! DEFINITION. Machine/Ops.lean: the shared operations: buffers in canonical form, the environment's draws, the panel
trace, the acceptance and completion of a command (R60), a failed transport answer (R107) and block reset (R129).
EPD-FBC has no exception to take (R119): an error ends the command through `State.complete`. -/

namespace Sys2Proof.Machine

/-! ### Cells and buffers -/

/-- Indexes rise strictly. -/
abbrev Cells.Rising (m : Memory) : Prop := m.Pairwise fun x y => x.1 < y.1

/-- The byte listed at an index. -/
def Cells.get : Memory → Nat → Option Byte
  | [], _ => none
  | (k, v) :: rest, i => if k = i then some v else Cells.get rest i

/-- The cells with the byte at an index listed as `v`, in rising order. -/
def Cells.put : Memory → Nat → Byte → Memory
  | [], i, v => [(i, v)]
  | (k, u) :: rest, i, v =>
    if i < k then (i, v) :: (k, u) :: rest
    else if i = k then (i, v) :: rest
    else (k, u) :: Cells.put rest i v

/-- The cells with nothing listed at an index. -/
def Cells.del (m : Memory) (i : Nat) : Memory := m.filter fun c => c.1 != i

/-- What an unlisted index of FB or PB reads as: the reset byte `0xFF` (R15, R18). -/
def Memory.unlisted : Byte := 0xFF

/-- The canonical form of a buffer. -/
abbrev Memory.wf (m : Memory) : Prop := Cells.Rising m ∧ ∀ c ∈ m, c.2 ≠ Memory.unlisted

/-- The buffer lists nothing at or past index `n`. -/
abbrev Memory.Within (n : Nat) (m : Memory) : Prop := ∀ c ∈ m, c.1 < n

/-- `buf[i]`. -/
def Memory.read (m : Memory) (i : Nat) : Byte := (Cells.get m i).getD Memory.unlisted

/-- `buf[i] <- v`. -/
def Memory.write (m : Memory) (i : Nat) (v : Byte) : Memory :=
  if v = Memory.unlisted then Cells.del m i else Cells.put m i v

/-- The buffer whose byte i is `f i` for i below `n`: `for i in 0 .. n-1: buf[i] <- f i`. -/
def Memory.tabulate (n : Nat) (f : Nat → Byte) : Memory :=
  (List.range n).filterMap fun i => if f i = Memory.unlisted then none else some (i, f i)

/-- Bytes 0 to n-1 in index order, the exchange format (R17). -/
def Memory.bytes (n : Nat) (m : Memory) : List Byte := (List.range n).map m.read

/-- STAGE[i], a free value where nothing has been staged (R20, S1). -/
def Memory.stageRead (m : Memory) (i : Nat) : Byte := (Cells.get m i).getD (Config.freeStageByte i)

/-! ### The environment's draws (R91, R97) -/

/-- The j-th transport answer still to come; `true` is ok (R91). -/
def Env.answerAt (e : Env) (j : Nat) : Bool :=
  if j < e.answers.length then e.answers.getD j true
  else Config.freeAnswer (e.answersDrawn + (j - e.answers.length))

/-- The j-th BUSY level still to come (R97). -/
def Env.busyAt (e : Env) (j : Nat) : Bool :=
  if j < e.busy.length then e.busy.getD j true
  else Config.freeBusy (e.busyDrawn + (j - e.busy.length))

/-- The draws after the next transport answer is taken. -/
def Env.afterAnswer (e : Env) : Env :=
  match e.answers with
  | _ :: rest => { e with answers := rest }
  | [] => { e with answersDrawn := e.answersDrawn + 1 }

/-- The draws after the next BUSY level is taken. -/
def Env.afterBusy (e : Env) : Env :=
  match e.busy with
  | _ :: rest => { e with busy := rest }
  | [] => { e with busyDrawn := e.busyDrawn + 1 }

/-- The transport's answer to the next event (R91). -/
def State.nextAnswer (s : State) : Bool := s.env.answerAt 0

/-- The BUSY level of the next sample (R97). -/
def State.nextBusy (s : State) : Bool := s.env.busyAt 0

/-! ### The panel trace and the lines (R91, R92, R95) -/

/-- An event without an answer: `Wait` (R91, R96). -/
def State.record (e : PanelEvent) (s : State) : State := { s with trace := s.trace ++ [e] }

/-- `emit(e)`: the event is appended and one transport answer is taken (R91). `State.nextAnswer` before it is that answer. -/
def State.emit (e : PanelEvent) (s : State) : State :=
  { s with trace := s.trace ++ [e], env := s.env.afterAnswer }

/-- `sample()`: one BUSY level is taken and the event emitted (R97). `State.nextBusy` before it is that level. -/
def State.sample (s : State) : State :=
  State.emit (.sample s.nextBusy) { s with env := s.env.afterBusy }

/-- `level(l) <- v` (R92). -/
def State.setLevel (l : Line) (v : Bool) (s : State) : State :=
  match l with
  | .rstN => { s with lines := { s.lines with rstN := v } }
  | .pwrEn => { s with lines := { s.lines with pwrEn := v } }

/-- `level(DC) <- v` (R93, R94). -/
def State.setDc (v : Bool) (s : State) : State := { s with lines := { s.lines with dc := v } }

/-- CS_N driven to `v` where the block frames its transactions (R95). -/
def State.driveCs (v : Bool) (s : State) : State :=
  match s.cfg.csMode with
  | .perTransaction => { s with lines := { s.lines with csN := v } }
  | .none => s

/-- `PSTATE <- p; INIT <- b`. -/
def State.setProtocol (p : PState) (b : Bool) (s : State) : State := { s with pstate := p, init := b }

/-- R107 `Abort()` up to its raise: the session ends. No transaction is left open, so CS_N rests at 1 (R33, R95). -/
def State.abort (s : State) : State := (s.setProtocol .unpowered false).driveCs true

/-- R98, R116: a busy-wait has reached the cap. -/
def State.noteTimeout (s : State) : State := { s with opbto := true, sticky := { s.sticky with bto := true } }

/-! ### The lifecycle of a command (R60) -/

/-- R34: the position is that of a running command. -/
def SeqPos.isRunning : SeqPos → Bool
  | .idle => false
  | .accepted => true
  | .running _ => true

/-- STATUS.RUN: a command is running (R24, R34). -/
def State.run (s : State) : Bool := s.seq.isRunning

/-- R60: the acceptance of the word `w`, one indivisible step (R44). -/
def State.accept (w : Word) (s : State) : State :=
  { s with largs := s.args, cur := w, opbto := false, seq := .accepted, before := s.image, beforeLoadCnt := s.loadCnt }

/-- R60: completion. `finish` is `complete .ok`, `raise E` is `complete E`. -/
def State.complete (code : ResultCode) (s : State) : State :=
  { s with result := ⟨code, s.opbto, s.cur.setWidth 8⟩, seq := .idle }

/-- R57: the effect of an illegal word. -/
def State.completeIllegal (s : State) : State := s.complete .illegalCommand

/-! ### Block reset (R129, R130) -/

/-- The reset input driven to `level`. Driven low or released, the block is in the state of R130; what the host still wants
to do, what it has read and the environment's draws are not the block's. -/
def State.blockReset (level : Bool) (s : State) : State :=
  { State.ofConfig s.cfg with resetN := level, env := s.env, inbox := s.inbox, replies := s.replies }

end Sys2Proof.Machine
end

