-- ==== Sys2Proof/Machine/Operands.lean ====
section
/-! DEFINITION. Machine/Operands.lean: the operands of a command, from the argument latches (R54), and the address
parameters the block derives from its geometry (R101). -/

namespace Sys2Proof.Machine

/-- R54: `x = sext_16(LARG0)`. -/
def State.opX (s : State) : Int := s.largs.a0.toInt

/-- R54: `y = sext_16(LARG1)`. -/
def State.opY (s : State) : Int := s.largs.a1.toInt

/-- R54: `w = zext_16(LARG2)`, also len and srcW. -/
def State.opW (s : State) : Nat := s.largs.a2.toNat

/-- R54: `h = zext_16(LARG3)`, also srcH. -/
def State.opH (s : State) : Nat := s.largs.a3.toNat

/-- R101: `LE16(v)`. -/
def le16 (v : Nat) : List Byte := [BitVec.ofNat 8 v, BitVec.ofNat 8 (v / 256)]

/-- R101: the driver-output-control parameters. -/
def encDrvout (cfg : Config) : List Byte := le16 (cfg.height - 1) ++ cfg.program.drvoutTail

/-- R101: the RAM-X-window parameters. -/
def encXwin (cfg : Config) : List Byte :=
  match cfg.program.xUnit with
  | .pixel => le16 0 ++ le16 (cfg.width - 1)
  | .byte => [0x00, BitVec.ofNat 8 (cfg.width / 8 - 1)]

/-- R101: the RAM-Y-window parameters. -/
def encYwin (cfg : Config) : List Byte := le16 0 ++ le16 (cfg.height - 1)

/-- R101: the RAM-X-counter parameters. -/
def encXcnt (cfg : Config) : List Byte :=
  match cfg.program.xUnit with
  | .pixel => le16 0
  | .byte => [0x00]

/-- R101: the RAM-Y-counter parameters. -/
def encYcnt : List Byte := le16 0

/-- R104: the refresh-mode parameter. -/
def refreshByte (cfg : Config) : RefreshMode → Byte
  | .full => cfg.program.refreshFull
  | .fast => cfg.program.refreshFast

end Sys2Proof.Machine
end

