-- ==== Sys2Proof/Machine/Raster.lean ====
section
/-! DEFINITION. Machine/Raster.lean: the bit-packer (R16), the pixel primitive (R68), the runs and rectangles drawn with it
(R70 to R73), and the image unit's arithmetic (R81 to R83). Coordinates are unbounded integers (R8). -/

namespace Sys2Proof.Machine

/-- The pixel (x, y) lies on the panel. -/
abbrev OnPanel (cfg : Config) (x y : Int) : Prop := 0 ≤ x ∧ x < cfg.width ∧ 0 ≤ y ∧ y < cfg.height

/-- R16: `byte_index(x, y)`. -/
def byteIndex (cfg : Config) (x y : Nat) : Nat := (x + y * cfg.width) / 8

/-- R16: `bit_index(x)`. -/
def bitIndex (x : Nat) : Nat := 7 - x % 8

/-- R16: `pixel(buf, x, y)`, the stored bit: `true` is white. -/
def pixel (cfg : Config) (buf : Memory) (x y : Nat) : Bool := (buf.read (byteIndex cfg x y)).getLsbD (bitIndex x)

/-- R10: the stored bit of a colour, `1 - C`. -/
def storedBit : Colour → Bool
  | .white => true
  | .black => false

/-- R68: the byte with bit b set for white, cleared for black. -/
def paint (v : Byte) (b : Nat) : Colour → Byte
  | .white => v ||| 1#8 <<< b
  | .black => v &&& ~~~(1#8 <<< b)

/-- R68: `SetPix(buf, x, y, c)`. -/
def setPix (cfg : Config) (buf : Memory) (x y : Int) (c : Colour) : Memory :=
  if OnPanel cfg x y then
    let i := byteIndex cfg x.toNat y.toNat
    buf.write i (paint (buf.read i) (bitIndex x.toNat) c)
  else buf

/-- R70: `for i in 0 .. n-1: SetPix(buf, x + i, y, c)`. -/
def hLine (cfg : Config) (buf : Memory) (x y : Int) (n : Nat) (c : Colour) : Memory :=
  match n with
  | 0 => buf
  | k + 1 => hLine cfg (setPix cfg buf x y c) (x + 1) y k c

/-- R71: `for i in 0 .. n-1: SetPix(buf, x, y + i, c)`. -/
def vLine (cfg : Config) (buf : Memory) (x y : Int) (n : Nat) (c : Colour) : Memory :=
  match n with
  | 0 => buf
  | k + 1 => vLine cfg (setPix cfg buf x y c) x (y + 1) k c

/-- R72: top, bottom, left and right runs, sharing their corners. -/
def rect (cfg : Config) (buf : Memory) (x y : Int) (w h : Nat) (c : Colour) : Memory :=
  let top := hLine cfg buf x y w c
  let bottom := hLine cfg top x (y + h - 1) w c
  let left := vLine cfg bottom x y h c
  vLine cfg left (x + w - 1) y h c

/-- R73: `for j in 0 .. h-1: HLine(x, y + j, w, c)`. -/
def fillRect (cfg : Config) (buf : Memory) (x y : Int) (w h : Nat) (c : Colour) : Memory :=
  match h with
  | 0 => buf
  | k + 1 => fillRect cfg (hLine cfg buf x y w c) x (y + 1) w k c

/-- R75: the byte a whole-buffer fill writes. -/
def fillByte : Colour → Byte
  | .white => 0xFF
  | .black => 0x00

/-- R81: the factor `min(W/sw, H/sh, 1)` as a rational (N, D). -/
def scaleFactor (cfg : Config) (sw sh : Nat) : Nat × Nat :=
  let nd : Nat × Nat := (1, 1)
  let nd := if cfg.width * nd.2 < nd.1 * sw then (cfg.width, sw) else nd
  if cfg.height * nd.2 < nd.1 * sh then (cfg.height, sh) else nd

/-- R81: `Scale(sw, sh)`. -/
def scaleToFit (cfg : Config) (sw sh : Nat) : Nat × Nat :=
  if sw = 0 ∨ sh = 0 then (0, 0)
  else
    let nd := scaleFactor cfg sw sh
    (sw * nd.1 / nd.2, sh * nd.1 / nd.2)

/-- R82: the centering offset of a target side on a panel side. Subtraction of naturals is the rule's clamp at 0. -/
def centerOffset (side target : Nat) : Nat := (side - target) / 2

/-- R83: the greyscale value is black. -/
def isBlack (g : Byte) : Bool := decide (g.toNat < Config.thresh)

end Sys2Proof.Machine
end

