-- ==== Sys2Proof/Machine/Sequencer.lean ====
section
/-! DEFINITION. Machine/Sequencer.lean: the effect of one line of a command's rule, and the run of a whole rule (R34, R60,
R118). The panel lines are the serializer's primitives (R92 to R98). -/

namespace Sys2Proof.Machine

/-- What one sequencer step does to the line it executes: on to the next line, again with what is left of this one, or the
end of the command with a code. -/
inductive Flow where
  | go (s : State)
  | again (op : Micro) (s : State)
  | stop (code : ResultCode) (s : State)
  deriving DecidableEq, Repr

/-- `if bad: raise code`. -/
def guardLine (bad : Bool) (code : ResultCode) (s : State) : Flow := if bad then .stop code s else .go s

/-- `emit(e)` has been done on `s`, giving `after`: go on, or R107. DESIGN CHOICE (log entry 8): a failed event, the INIT and
PSTATE writes of `Abort()` and the command's completion are one sequencer step, so no read sees RUN = 1 after a failure. -/
def onAnswer (s : State) (after : State) (k : State → Flow) : Flow :=
  if s.nextAnswer then k after else .stop .transportError after.abort

/-- R92: `SetLine(l, v)`. A failed event leaves the level as it was. -/
def lineStep (l : Line) (v : Bool) (s : State) : Flow :=
  onAnswer s (s.emit (.line l v)) fun t => .go (t.setLevel l v)

/-- R93: `SendCommand(b)`. -/
def commandStep (b : Byte) (s : State) : Flow :=
  onAnswer s ((s.setDc false).emit (.cmd b)) fun t => .go (t.driveCs true)

/-- R94: one byte of `SendData`; the call is one transaction (R95). -/
def dataStep (b : Byte) (rest : List Byte) (s : State) : Flow :=
  onAnswer s (((s.setDc true).driveCs false).emit (.data b)) fun t =>
    if rest = [] then .go (t.driveCs true) else .again (.sendData rest) t

/-- R98: one turn of the loop of `BusyWait()`. The cap is met when the count reaches it. -/
def pollStep (s : State) : Flow :=
  onAnswer s s.sample fun t =>
    let u := { t with busyCnt := t.busyCnt + 1 }
    if s.nextBusy ≠ Config.busyActive then .go u
    else if u.cfg.busyPollCap ≤ u.busyCnt then .go u.noteTimeout
    else .again .poll (u.record (.wait .poll))

/-- R77: `if LOAD_CNT < SIZE: STAGE[LOAD_CNT] <- imm`. -/
def State.stageByte (imm : Byte) (s : State) : State :=
  if s.loadCnt.toNat < s.cfg.size then { s with stage := Cells.put s.stage s.loadCnt.toNat imm } else s

/-- R77: `if LOAD_CNT <= SIZE: LOAD_CNT <- LOAD_CNT + 1`. -/
def State.countByte (s : State) : State :=
  if s.loadCnt.toNat ≤ s.cfg.size then { s with loadCnt := s.loadCnt + 1 } else s

/-- R86: `(TW, TH) <- Scale(sw, sh)`. -/
def State.scale (s : State) : State :=
  let d := scaleToFit s.cfg s.opW s.opH
  { s with image := { s.image with tw := BitVec.ofNat 16 d.1, th := BitVec.ofNat 16 d.2 } }

/-- R86: the centering offsets. -/
def State.center (s : State) : State :=
  { s with image :=
      { s.image with
        xoff := BitVec.ofNat 16 (centerOffset s.cfg.width s.image.tw.toNat)
        yoff := BitVec.ofNat 16 (centerOffset s.cfg.height s.image.th.toNat) } }

/-- R84: the panel column of pixel number k. -/
def ImageRegs.pixelX (r : ImageRegs) (k : Nat) : Nat := k % r.tw.toNat + r.xoff.toNat

/-- R84: the panel row of pixel number k. -/
def ImageRegs.pixelY (r : ImageRegs) (k : Nat) : Nat := k / r.tw.toNat + r.yoff.toNat

/-- R87: `if g < THRESH: SetPix(PB, (k mod TW) + XOFF, (k div TW) + YOFF, 1)` with k = CNT. -/
def State.packPixel (g : Byte) (s : State) : State :=
  let k := s.image.cnt.toNat
  if isBlack g then { s with pb := setPix s.cfg s.pb (s.image.pixelX k) (s.image.pixelY k) .black } else s

/-- R87: `if CNT = TW * TH: PIPE_ACT <- 0; PB_VALID <- 1`, the second assignment as a line of its own. -/
def closeStep (s : State) : Flow :=
  if s.image.cnt.toNat = s.image.tw.toNat * s.image.th.toNat then .again (.setPbValid true) { s with pipeAct := false }
  else .go s

/-- The effect of one line. -/
def microStep (op : Micro) (s : State) : Flow :=
  match op with
  | .needHandles => guardLine s.released .transportError s
  | .needInit => guardLine (!s.init) .notInitialized s
  | .needImage => guardLine (!s.pbValid) .imageNotReady s
  | .needLoad => guardLine (!s.loadAct) .sequenceError s
  | .needFullLoad => guardLine (s.loadCnt.toNat != s.cfg.size) .sizeMismatch s
  | .needStream => guardLine (!s.pipeAct) .sequenceError s
  | .needPixels => guardLine (s.image.tw == 0 || s.image.th == 0) .emptyImage s
  | .drawPixel c => .go { s with fb := setPix s.cfg s.fb s.opX s.opY c }
  | .drawHLine c => .go { s with fb := hLine s.cfg s.fb s.opX s.opY s.opW c }
  | .drawVLine c => .go { s with fb := vLine s.cfg s.fb s.opX s.opY s.opW c }
  | .drawRect c => .go { s with fb := rect s.cfg s.fb s.opX s.opY s.opW s.opH c }
  | .drawFillRect c => .go { s with fb := fillRect s.cfg s.fb s.opX s.opY s.opW s.opH c }
  | .fillFb v => .go { s with fb := Memory.tabulate s.cfg.size fun _ => v }
  | .copyStage => .go { s with fb := Memory.tabulate s.cfg.size s.stage.stageRead }
  | .copyPb => .go { s with fb := Memory.tabulate s.cfg.size s.pb.read }
  | .setLoadAct v => .go { s with loadAct := v }
  | .clearLoadCnt => .go { s with loadCnt := 0 }
  | .stageByte imm => .go (s.stageByte imm)
  | .countByte => .go s.countByte
  | .scale => .go s.scale
  | .center => .go s.center
  | .clearPipeCnt => .go { s with image := { s.image with cnt := 0 } }
  | .setPbValid v => .go { s with pbValid := v }
  | .setPipeAct v => .go { s with pipeAct := v }
  | .whitenPb => .go { s with pb := Memory.tabulate s.cfg.size fun _ => 0xFF }
  | .packPixel g => .go (s.packPixel g)
  | .countPixel => .go { s with image := { s.image with cnt := s.image.cnt + 1 } }
  | .closeImage => closeStep s
  | .raise code => .stop code s
  | .protocol p b => .go (s.setProtocol p b)
  | .setLine l v => lineStep l v s
  | .delay t => .go (s.record (.wait t))
  | .sendCommand b => commandStep b s
  | .sendData [] => .go s
  | .sendData (b :: rest) => dataStep b rest s
  | .busyWait => .again .poll { s with busyCnt := 0 }
  | .poll => pollStep s
  | .finishIfReleased => if s.released then .stop .ok s else .go s
  | .cutPower => .again (.endSession s.nextAnswer) ((s.emit (.line .pwrEn false)).setLevel .pwrEn false)
  | .endSession a => .again (.releaseHandles a) (s.setProtocol .unpowered false)
  | .releaseHandles a => .again (.reportAnswer a) { s with released := true }
  | .reportAnswer a => guardLine (!a) .transportError s

/-- How many times a line can be taken up again: a bound on its `again`s (R98's cap, the length of the data). -/
def microFuel (op : Micro) (s : State) : Nat :=
  match op with
  | .sendData bs => bs.length
  | .busyWait => s.cfg.busyPollCap + 1
  | .poll => s.cfg.busyPollCap - s.busyCnt
  | .closeImage => 1
  | .cutPower => 3
  | .endSession _ => 2
  | .releaseHandles _ => 1
  | _ => 0

/-- A line taken up until it is done; `fuel` bounds how often it is taken up again. -/
def lineRun : Nat → Micro → State → Flow
  | 0, op, s => microStep op s
  | k + 1, op, s =>
    match microStep op s with
    | .go t => .go t
    | .again op' t => lineRun k op' t
    | .stop code t => .stop code t

/-- The run of a rule's lines to the command's end: `finish` after the last line, or the first `raise` (R118). With
`microFuel` no line is left unfinished (`Laws.Sequencer`, `runLines_cons`). -/
def runLines : List Micro → State → State
  | [], s => s.complete .ok
  | op :: rest, s =>
    match lineRun (microFuel op s) op s with
    | .go t => runLines rest t
    | .again _ t => runLines rest t
    | .stop code t => t.complete code

end Sys2Proof.Machine
end

