-- ==== Sys2Proof/Machine/Framebuffer.lean ====
section
/-! DEFINITION. Machine/Framebuffer.lean: the framebuffer commands (40_framebuffer.md): each command's rule as the lines the
sequencer works through, and its meaning, the run of those lines. -/

namespace Sys2Proof.Machine

/-- FB_SETPIXEL (R69). -/
def linesFbSetPixel (c : Colour) : List Micro := [.drawPixel c]

/-- FB_SETPIXEL (R69). -/
def execFbSetPixel (c : Colour) (s : State) : Host.Outcome State Fault Refusal := .next (runLines (linesFbSetPixel c) s)

/-- FB_HLINE (R70). -/
def linesFbHLine (c : Colour) : List Micro := [.drawHLine c]

/-- FB_HLINE (R70). -/
def execFbHLine (c : Colour) (s : State) : Host.Outcome State Fault Refusal := .next (runLines (linesFbHLine c) s)

/-- FB_VLINE (R71). -/
def linesFbVLine (c : Colour) : List Micro := [.drawVLine c]

/-- FB_VLINE (R71). -/
def execFbVLine (c : Colour) (s : State) : Host.Outcome State Fault Refusal := .next (runLines (linesFbVLine c) s)

/-- FB_RECT (R72). -/
def linesFbRect (c : Colour) : List Micro := [.drawRect c]

/-- FB_RECT (R72). -/
def execFbRect (c : Colour) (s : State) : Host.Outcome State Fault Refusal := .next (runLines (linesFbRect c) s)

/-- FB_FILLRECT (R73). -/
def linesFbFillRect (c : Colour) : List Micro := [.drawFillRect c]

/-- FB_FILLRECT (R73). -/
def execFbFillRect (c : Colour) (s : State) : Host.Outcome State Fault Refusal := .next (runLines (linesFbFillRect c) s)

/-- FB_CLEAR (R74). -/
def linesFbClear : List Micro := [.fillFb 0xFF]

/-- FB_CLEAR (R74). -/
def execFbClear (s : State) : Host.Outcome State Fault Refusal := .next (runLines linesFbClear s)

/-- FB_FILL (R75). -/
def linesFbFill (c : Colour) : List Micro := [.fillFb (fillByte c)]

/-- FB_FILL (R75). -/
def execFbFill (c : Colour) (s : State) : Host.Outcome State Fault Refusal := .next (runLines (linesFbFill c) s)

/-- FB_LOAD_BEGIN (R76). -/
def linesFbLoadBegin : List Micro := [.setLoadAct true, .clearLoadCnt]

/-- FB_LOAD_BEGIN (R76). -/
def execFbLoadBegin (s : State) : Host.Outcome State Fault Refusal := .next (runLines linesFbLoadBegin s)

/-- FB_LOAD_BYTE (R77). -/
def linesFbLoadByte (imm : Byte) : List Micro := [.needLoad, .stageByte imm, .countByte]

/-- FB_LOAD_BYTE (R77). -/
def execFbLoadByte (imm : Byte) (s : State) : Host.Outcome State Fault Refusal := .next (runLines (linesFbLoadByte imm) s)

/-- FB_LOAD_COMMIT (R78). -/
def linesFbLoadCommit : List Micro := [.needLoad, .setLoadAct false, .needFullLoad, .copyStage]

/-- FB_LOAD_COMMIT (R78). -/
def execFbLoadCommit (s : State) : Host.Outcome State Fault Refusal := .next (runLines linesFbLoadCommit s)

/-- FB_LOAD_PB (R79). -/
def linesFbLoadPb : List Micro := [.needImage, .copyPb]

/-- FB_LOAD_PB (R79). -/
def execFbLoadPb (s : State) : Host.Outcome State Fault Refusal := .next (runLines linesFbLoadPb s)

end Sys2Proof.Machine
end

