-- ==== Sys2Proof/Machine/Panel.lean ====
section
/-! DEFINITION. Machine/Panel.lean: the composite sequences of the serializer (R99, R102 to R105) and the panel commands
(43_panel_ops.md). -/

namespace Sys2Proof.Machine

/-- R99: `HwReset()`. -/
def hwReset : List Micro :=
  [ .setLine .rstN true, .delay .rstPre, .setLine .rstN false, .delay .rstLow, .setLine .rstN true, .delay .rstPost ]

/-- R102: the part of the register program between the two busy-waits. -/
def registerProgram (cfg : Config) : List Micro :=
  [ .sendCommand cfg.program.cmdTemp, .sendData cfg.program.dataTemp,
    .sendCommand cfg.program.cmdSoftstart, .sendData cfg.program.dataSoftstart,
    .sendCommand 0x01, .sendData (encDrvout cfg),
    .sendCommand cfg.program.cmdBorder, .sendData cfg.program.dataBorder,
    .sendCommand 0x11, .sendData [cfg.program.dataEntry],
    .sendCommand 0x44, .sendData (encXwin cfg),
    .sendCommand 0x45, .sendData (encYwin cfg),
    .sendCommand 0x4E, .sendData (encXcnt cfg),
    .sendCommand 0x4F, .sendData encYcnt ]

/-- R102: `InitProgram()`. -/
def initProgram (cfg : Config) : List Micro :=
  [.protocol .awaitingReady false, .sendCommand 0x12, .busyWait, .protocol .configured false] ++
  registerProgram cfg ++ [.busyWait]

/-- R103: `WriteRam(code, buf)`, the buffer given by its bytes in index order. -/
def writeRam (code : Byte) (bytes : List Byte) : List Micro := [.sendCommand code, .sendData bytes]

/-- R104: `Refresh(m)`. -/
def refresh (cfg : Config) (m : RefreshMode) : List Micro :=
  [.protocol .refreshing true, .sendCommand 0x22, .sendData [refreshByte cfg m], .sendCommand 0x20, .busyWait]

/-- R105: `DeepSleep()`. -/
def deepSleep (cfg : Config) : List Micro :=
  [.sendCommand 0x10, .sendData [cfg.program.dataSleep], .delay .sleep]

/-- PNL_INIT (R108). -/
def linesPnlInit (cfg : Config) : List Micro :=
  [.needHandles, .protocol .resetting false, .setLine .pwrEn true] ++ hwReset ++ initProgram cfg ++ [.protocol .idle true]

/-- PNL_INIT (R108). -/
def execPnlInit (s : State) : Host.Outcome State Fault Refusal := .next (runLines (linesPnlInit s.cfg) s)

/-- The bytes of the framebuffer once it is white (R109). -/
def whiteBytes (cfg : Config) : List Byte := Memory.bytes cfg.size (Memory.tabulate cfg.size fun _ => 0xFF)

/-- R109: the transfers of PNL_CLEAR, to the primary bank and, where the panel has one, the secondary. -/
def clearTransfers (cfg : Config) : List Micro :=
  writeRam 0x24 (whiteBytes cfg) ++
  (if cfg.secondaryBankEn then writeRam cfg.program.cmdRam2 (whiteBytes cfg) else [])

/-- PNL_CLEAR (R109). -/
def linesPnlClear (m : RefreshMode) (cfg : Config) : List Micro :=
  [.needHandles, .needInit, .fillFb 0xFF, .protocol .transferring true] ++ clearTransfers cfg ++ refresh cfg m ++
  [.protocol .idle true]

/-- PNL_CLEAR (R109). -/
def execPnlClear (m : RefreshMode) (s : State) : Host.Outcome State Fault Refusal :=
  .next (runLines (linesPnlClear m s.cfg) s)

/-- R110: the buffer a display sends. -/
def State.buffer (src : Source) (s : State) : Memory :=
  match src with
  | .fb => s.fb
  | .pb => s.pb

/-- R110: `if s = 1 and PB_VALID = 0: raise ImageNotReady`. -/
def sourceCheck : Source → List Micro
  | .fb => []
  | .pb => [.needImage]

/-- PNL_DISPLAY (R110): the buffer is the one held at acceptance, since no command runs in between. -/
def linesPnlDisplay (m : RefreshMode) (src : Source) (s : State) : List Micro :=
  [.needHandles, .needInit] ++ sourceCheck src ++ [.protocol .transferring true] ++
  writeRam 0x24 (Memory.bytes s.cfg.size (s.buffer src)) ++ refresh s.cfg m ++ [.protocol .idle true]

/-- PNL_DISPLAY (R110). -/
def execPnlDisplay (m : RefreshMode) (src : Source) (s : State) : Host.Outcome State Fault Refusal :=
  .next (runLines (linesPnlDisplay m src s) s)

/-- PNL_SLEEP (R111). -/
def linesPnlSleep (cfg : Config) : List Micro :=
  [.needHandles, .needInit] ++ deepSleep cfg ++ [.protocol .sleeping false]

/-- PNL_SLEEP (R111). -/
def execPnlSleep (s : State) : Host.Outcome State Fault Refusal := .next (runLines (linesPnlSleep s.cfg) s)

/-- PNL_CLEANUP (R112). -/
def linesPnlCleanup : List Micro := [.finishIfReleased, .cutPower]

/-- PNL_CLEANUP (R112). -/
def execPnlCleanup (s : State) : Host.Outcome State Fault Refusal := .next (runLines linesPnlCleanup s)

end Sys2Proof.Machine
end

