-- ==== Sys2Proof/Machine/Pipeline.lean ====
section
/-! DEFINITION. Machine/Pipeline.lean: the image-unit commands (41_pipeline.md). -/

namespace Sys2Proof.Machine

/-- PIPE_BEGIN (R86). -/
def linesPipeBegin : List Micro :=
  [.scale, .center, .clearPipeCnt, .setPbValid false, .setPipeAct false, .needPixels, .whitenPb, .setPipeAct true]

/-- PIPE_BEGIN (R86). -/
def execPipeBegin (s : State) : Host.Outcome State Fault Refusal := .next (runLines linesPipeBegin s)

/-- PIPE_PIX (R87). -/
def linesPipePix (g : Byte) : List Micro := [.needStream, .packPixel g, .countPixel, .closeImage]

/-- PIPE_PIX (R87). -/
def execPipePix (g : Byte) (s : State) : Host.Outcome State Fault Refusal := .next (runLines (linesPipePix g) s)

/-- PIPE_ABORT (R88): it always completes with DecodeFailure. -/
def linesPipeAbort : List Micro := [.setPipeAct false, .setPbValid false, .raise .decodeFailure]

/-- PIPE_ABORT (R88). -/
def execPipeAbort (s : State) : Host.Outcome State Fault Refusal := .next (runLines linesPipeAbort s)

end Sys2Proof.Machine
end

