-- ==== Sys2Proof/Machine/Command.lean ====
section
/-! DEFINITION. Machine/Command.lean: the lines of every command's rule in one place, and what the running command will
have left when it completes. -/

namespace Sys2Proof.Machine

/-- R56: the lines of each command's rule. -/
def linesOf (i : Instr) (s : State) : List Micro :=
  match i with
  | .fbSetPixel c => linesFbSetPixel c
  | .fbHLine c => linesFbHLine c
  | .fbVLine c => linesFbVLine c
  | .fbRect c => linesFbRect c
  | .fbFillRect c => linesFbFillRect c
  | .fbClear => linesFbClear
  | .fbFill c => linesFbFill c
  | .fbLoadBegin => linesFbLoadBegin
  | .fbLoadByte imm => linesFbLoadByte imm
  | .fbLoadCommit => linesFbLoadCommit
  | .fbLoadPb => linesFbLoadPb
  | .pipeBegin => linesPipeBegin
  | .pipePix imm => linesPipePix imm
  | .pipeAbort => linesPipeAbort
  | .pnlInit => linesPnlInit s.cfg
  | .pnlClear m => linesPnlClear m s.cfg
  | .pnlDisplay m src => linesPnlDisplay m src s
  | .pnlSleep => linesPnlSleep s.cfg
  | .pnlCleanup => linesPnlCleanup

/-- The state the running command leaves at its completion if no host access arrives before it; `s` where none runs. -/
def State.finished (s : State) : State :=
  match s.seq with
  | .idle => s
  | .accepted =>
    match decode s.cur with
    | .ok i => runLines (linesOf i s) s
    | .error _ => s.completeIllegal
  | .running rest => runLines rest s

end Sys2Proof.Machine
end

