-- ==== Sys2Proof/Machine/Flags.lean ====
section
/-! DEFINITION. Machine/Flags.lean: the words of the status and result registers and the sticky bits (R24 to R28, R114). -/

namespace Sys2Proof.Machine

/-- R30, D40: the state's code. -/
def PState.code : PState → Nat
  | .unpowered => 0
  | .resetting => 1
  | .awaitingReady => 2
  | .configured => 3
  | .idle => 4
  | .transferring => 5
  | .refreshing => 6
  | .sleeping => 7

/-- R31: the states in which INIT is 1. -/
def PState.inSession : PState → Bool
  | .idle | .transferring | .refreshing => true
  | .unpowered | .resetting | .awaitingReady | .configured | .sleeping => false

/-- R114, D40: the code's number. -/
def ResultCode.code : ResultCode → Nat
  | .ok => 0
  | .transportError => 1
  | .sizeMismatch => 2
  | .decodeFailure => 3
  | .emptyImage => 4
  | .notInitialized => 5
  | .illegalCommand => 6
  | .sequenceError => 7
  | .imageNotReady => 8

/-- A flag placed at bit `k` of a register word. -/
def flagAt (k : Nat) (b : Bool) : Word := if b then 1#32 <<< k else 0#32

/-- R24: the STATUS word. -/
def State.statusWord (s : State) : Word :=
  flagAt 0 s.run ||| flagAt 1 s.init ||| flagAt 2 s.pbValid ||| flagAt 3 s.loadAct ||| flagAt 4 s.pipeAct |||
  flagAt 5 s.released ||| BitVec.ofNat 32 s.pstate.code <<< 8 |||
  flagAt 16 s.sticky.bto ||| flagAt 17 s.sticky.ovr ||| flagAt 18 s.sticky.berr

/-- R25: the RESULT word. -/
def Result.word (r : Result) : Word :=
  BitVec.ofNat 32 r.code.code ||| flagAt 8 r.opbto ||| r.lastop.setWidth 32 <<< 16

/-- Two 16-bit fields of one register, low half first (R27, R28). -/
def halves (lo hi : Half) : Word := hi ++ lo

/-- R27: the GEOM word. -/
def State.geomWord (s : State) : Word := halves (BitVec.ofNat 16 s.cfg.width) (BitVec.ofNat 16 s.cfg.height)

/-- R27: the FB_SIZE word. -/
def State.sizeWord (s : State) : Word := BitVec.ofNat 32 s.cfg.size

/-- R28: the PIPE_DIM word. -/
def ImageRegs.dimWord (r : ImageRegs) : Word := halves r.tw r.th

/-- R28: the PIPE_OFF word. -/
def ImageRegs.offWord (r : ImageRegs) : Word := halves r.xoff r.yoff

/-- R26: the effect of writing `w` to STICKY_CLR. -/
def State.clearSticky (w : Word) (s : State) : State :=
  { s with sticky :=
      { bto := s.sticky.bto && !w.getLsbD 16
        ovr := s.sticky.ovr && !w.getLsbD 17
        berr := s.sticky.berr && !w.getLsbD 18 } }

/-- R42: STATUS.BERR <- 1. -/
def State.noteBusError (s : State) : State := { s with sticky := { s.sticky with berr := true } }

/-- R60: STATUS.OVR <- 1. -/
def State.noteOverrun (s : State) : State := { s with sticky := { s.sticky with ovr := true } }

end Sys2Proof.Machine
end

