-- ==== Sys2Proof/Machine/Bus.lean ====
section
/-! DEFINITION. Machine/Bus.lean: the host address space (20_memory.md): the address map, reads, writes and their side
effects, and what a read gives while a command runs (R41, R132). -/

namespace Sys2Proof.Machine

/-- R40, R42: the regions of the host space. -/
inductive Region where
  | registers
  | window (buf : Source)
  | reserved
  deriving DecidableEq, Repr

/-- R40: the region of a byte address. -/
def regionOf (a : Nat) : Region :=
  if a < 0x100000 then .registers
  else if a < 0x200000 then .window .fb
  else if a < 0x300000 then .window .pb
  else .reserved

/-- R40: the first address of a buffer's window. -/
def windowBase : Source → Nat
  | .fb => 0x100000
  | .pb => 0x200000

/-- R40: the address of a register. -/
def regAddress : RegName → HostAddr
  | .CMD => 0x000000
  | .STATUS => 0x000004
  | .RESULT => 0x000008
  | .STICKY_CLR => 0x00000C
  | .ARG0 => 0x000010
  | .ARG1 => 0x000014
  | .ARG2 => 0x000018
  | .ARG3 => 0x00001C
  | .GEOM => 0x000020
  | .FB_SIZE => 0x000024
  | .PIPE_DIM => 0x000028
  | .PIPE_OFF => 0x00002C
  | .PIPE_CNT => 0x000030
  | .LOAD_CNT => 0x000034

/-- R42: the number of bytes of an access. -/
def AccessSize.bytes : AccessSize → Nat
  | .one => 1
  | .two => 2
  | .four => 4

/-- R42: the access keeps its region's rules as a read. -/
def legalRead (a : Nat) (n : AccessSize) : Bool :=
  match regionOf a with
  | .registers => decide (n = .four) && decide (a % 4 = 0)
  | .window _ => decide (a % n.bytes = 0)
  | .reserved => decide (a % n.bytes = 0)

/-- R42: the access keeps its region's rules as a write. -/
def legalWrite (a : Nat) (n : AccessSize) : Bool :=
  match regionOf a with
  | .registers => decide (n = .four) && decide (a % 4 = 0)
  | .window _ => false
  | .reserved => decide (a % n.bytes = 0)

/-- R41: the command may write FB. -/
def writesFb : Instr → Bool
  | .fbSetPixel _ | .fbHLine _ | .fbVLine _ | .fbRect _ | .fbFillRect _ | .fbClear | .fbFill _ => true
  | .fbLoadBegin | .fbLoadByte _ => false
  | .fbLoadCommit | .fbLoadPb => true
  | .pipeBegin | .pipePix _ | .pipeAbort => false
  | .pnlInit => false
  | .pnlClear _ => true
  | .pnlDisplay _ _ | .pnlSleep | .pnlCleanup => false

/-- R41: the command may write PB. -/
def writesPb : Instr → Bool
  | .fbSetPixel _ | .fbHLine _ | .fbVLine _ | .fbRect _ | .fbFillRect _ | .fbClear | .fbFill _ => false
  | .fbLoadBegin | .fbLoadByte _ | .fbLoadCommit | .fbLoadPb => false
  | .pipeBegin | .pipePix _ => true
  | .pipeAbort => false
  | .pnlInit | .pnlClear _ | .pnlDisplay _ _ | .pnlSleep | .pnlCleanup => false

/-- R41: the command may write the buffer. -/
def mayWrite (i : Instr) : Source → Bool
  | .fb => writesFb i
  | .pb => writesPb i

/-- R41, R132: a command runs that may write the buffer, so a read of its window gives free bytes. -/
def State.unsettled (buf : Source) (s : State) : Bool :=
  match decode s.cur with
  | .ok i => s.run && mayWrite i buf
  | .error _ => false

/-- R40: the buffer behind a window. -/
def State.windowBuffer (buf : Source) (s : State) : Memory :=
  match buf with
  | .fb => s.fb
  | .pb => s.pb

/-- R41: byte `i + k` of a window, the k-th byte of an access at offset i. -/
def State.windowByte (buf : Source) (i k : Nat) (s : State) : Byte :=
  if s.cfg.size ≤ i + k then 0
  else if s.unsettled buf then Config.freeWindowByte (s.env.bytesDrawn + k)
  else (s.windowBuffer buf).read (i + k)

/-- R45: bytes as one word, the first in the low lane. -/
def leWord : List Byte → Word
  | [] => 0
  | b :: rest => b.setWidth 32 ||| leWord rest <<< 8

/-- R45: the value of a window read. -/
def State.windowValue (buf : Source) (i n : Nat) (s : State) : Word :=
  leWord ((List.range n).map fun k => s.windowByte buf i k)

/-- R132, S3: a counter register read during a command gives the value before the command's write or after it, whichever a
free choice says. No command writes one of these registers twice, so the two are the value held at acceptance and the one
held at completion. -/
def State.counterValue (before : Word) (value : State → Word) (s : State) : Word :=
  if s.run then if Config.freeChoice s.env.choicesDrawn then before else value s.finished
  else value s

/-- R40: the value of a register read at an aligned address. CMD, STICKY_CLR and reserved addresses read 0. -/
def State.registerValue (a : Nat) (s : State) : Word :=
  match a with
  | 0x04 => s.statusWord
  | 0x08 => s.result.word
  | 0x10 => s.args.a0.setWidth 32
  | 0x14 => s.args.a1.setWidth 32
  | 0x18 => s.args.a2.setWidth 32
  | 0x1C => s.args.a3.setWidth 32
  | 0x20 => s.geomWord
  | 0x24 => s.sizeWord
  | 0x28 => s.counterValue s.before.dimWord fun t => t.image.dimWord
  | 0x2C => s.counterValue s.before.offWord fun t => t.image.offWord
  | 0x30 => s.counterValue s.before.cnt fun t => t.image.cnt
  | 0x34 => s.counterValue s.beforeLoadCnt fun t => t.loadCnt
  | _ => 0

/-- R42, R45: what `MemRead(addr, n)` returns. -/
def State.readValue (a : Nat) (n : AccessSize) (s : State) : Word :=
  if legalRead a n then
    match regionOf a with
    | .registers => s.registerValue a
    | .window buf => s.windowValue buf (a - windowBase buf) n.bytes
    | .reserved => 0
  else 0

/-- The free values a read takes (R41, R132). -/
def Env.afterRead (a : Nat) (n : AccessSize) (s : State) : Env :=
  match regionOf a with
  | .registers => if s.run then { s.env with choicesDrawn := s.env.choicesDrawn + 1 } else s.env
  | .window buf => if s.unsettled buf then { s.env with bytesDrawn := s.env.bytesDrawn + n.bytes } else s.env
  | .reserved => s.env

/-- R42, R43: the state after `MemRead(addr, n)`: a legal read has no side effect. -/
def State.afterRead (a : Nat) (n : AccessSize) (s : State) : State :=
  if legalRead a n then { s with env := Env.afterRead a n s } else s.noteBusError

/-- The host's read answered with a word, or left unanswered. -/
def State.reply (r : Option Word) (s : State) : State := { s with replies := s.replies ++ [r] }

/-- R60: a legal write of `w` to CMD. -/
def State.issue (w : Word) (s : State) : State := if s.run then s.noteOverrun else s.accept w

/-- R21: a write to an argument register keeps bits [15:0]. -/
def State.writeArg (k : Fin 4) (v : Word) (s : State) : State :=
  match k with
  | 0 => { s with args := { s.args with a0 := v.setWidth 16 } }
  | 1 => { s with args := { s.args with a1 := v.setWidth 16 } }
  | 2 => { s with args := { s.args with a2 := v.setWidth 16 } }
  | 3 => { s with args := { s.args with a3 := v.setWidth 16 } }

/-- R40, R43: the effect of a register write at an aligned address. Read-only registers and reserved addresses ignore it. -/
def State.registerWrite (a : Nat) (v : Word) (s : State) : State :=
  match a with
  | 0x00 => s.issue v
  | 0x0C => s.clearSticky v
  | 0x10 => s.writeArg 0 v
  | 0x14 => s.writeArg 1 v
  | 0x18 => s.writeArg 2 v
  | 0x1C => s.writeArg 3 v
  | _ => s

/-- R42, R43: the state after `MemWrite(addr, n, v)`. -/
def State.afterWrite (a : Nat) (n : AccessSize) (v : Word) (s : State) : State :=
  if legalWrite a n then
    match regionOf a with
    | .registers => s.registerWrite a v
    | .window _ => s
    | .reserved => s
  else s.noteBusError

/-- What an input does to the block. RESET_N driven low or released resets it; held high it does nothing. While it is low no
access is answered and none has an effect (R129). -/
def State.takeAct (a : HostAct) (s : State) : State :=
  match a with
  | .resetN level => if s.resetN && level then s else s.blockReset level
  | .read addr n =>
    if s.resetN then (s.afterRead addr.toNat n).reply (some (s.readValue addr.toNat n)) else s.reply none
  | .write addr n v => if s.resetN then s.afterWrite addr.toNat n v else s

/-- R63: the read of STATUS that ends a WAITIDLE. DESIGN CHOICE (log entry 23): while RESET_N is low the read is unanswered and
the WAITIDLE ends on it all the same. -/
def State.endWait (s : State) : State := s.takeAct (.read (regAddress .STATUS) .four)

end Sys2Proof.Machine
end

