-- ==== Sys2Proof/Machine/Dispatch.lean ====
section
/-! DEFINITION. Machine/Dispatch.lean: one arm per command. -/

namespace Sys2Proof.Machine

/-- The meaning of a decoded command on the state that has accepted it: its rule run to its completion (R60). -/
def exec (i : Instr) (s : State) : Host.Outcome State Fault Refusal :=
  match i with
  | .fbSetPixel c => Sys2Proof.Machine.execFbSetPixel c s
  | .fbHLine c => Sys2Proof.Machine.execFbHLine c s
  | .fbVLine c => Sys2Proof.Machine.execFbVLine c s
  | .fbRect c => Sys2Proof.Machine.execFbRect c s
  | .fbFillRect c => Sys2Proof.Machine.execFbFillRect c s
  | .fbClear => Sys2Proof.Machine.execFbClear s
  | .fbFill c => Sys2Proof.Machine.execFbFill c s
  | .fbLoadBegin => Sys2Proof.Machine.execFbLoadBegin s
  | .fbLoadByte imm => Sys2Proof.Machine.execFbLoadByte imm s
  | .fbLoadCommit => Sys2Proof.Machine.execFbLoadCommit s
  | .fbLoadPb => Sys2Proof.Machine.execFbLoadPb s
  | .pipeBegin => Sys2Proof.Machine.execPipeBegin s
  | .pipePix imm => Sys2Proof.Machine.execPipePix imm s
  | .pipeAbort => Sys2Proof.Machine.execPipeAbort s
  | .pnlInit => Sys2Proof.Machine.execPnlInit s
  | .pnlClear m => Sys2Proof.Machine.execPnlClear m s
  | .pnlDisplay m src => Sys2Proof.Machine.execPnlDisplay m src s
  | .pnlSleep => Sys2Proof.Machine.execPnlSleep s
  | .pnlCleanup => Sys2Proof.Machine.execPnlCleanup s

end Sys2Proof.Machine
end

