-- ==== Sys2Proof/WellFormed.lean ====
section
/-! DEFINITION. WellFormed.lean: which configurations (R6, D36) and which assembly lines (R61, R62) are well formed.
A term of Instr has no check of its own: each of its fields has exactly the values of the word's field (R53, R55). -/

namespace Sys2Proof

/-- R6, D36: `8 ≤ W, H ≤ 65528`, multiples of 8, `SIZE ≤ 2^20`, `BUSY_POLL_CAP ≥ 1`; with X_UNIT = BYTE the end of the
X window must fit a byte (R101). Geometries outside these limits are outside the model (U16). -/
def Config.wf (cfg : Config) : Bool :=
  decide (8 ≤ cfg.width) && decide (cfg.width ≤ 65528) && decide (cfg.width % 8 = 0) &&
  decide (8 ≤ cfg.height) && decide (cfg.height ≤ 65528) && decide (cfg.height % 8 = 0) &&
  decide (cfg.size ≤ 1048576) && decide (1 ≤ cfg.busyPollCap) &&
  (decide (cfg.rowBytes - 1 ≤ 255) || decide (cfg.program.xUnit = .pixel))

/-- R55: the command uses the colour bit C. -/
def Mnemonic.usesColour : Mnemonic → Bool
  | .FB_SETPIXEL | .FB_HLINE | .FB_VLINE | .FB_RECT | .FB_FILLRECT | .FB_FILL => true
  | .FB_CLEAR | .FB_LOAD_BEGIN | .FB_LOAD_BYTE | .FB_LOAD_COMMIT | .FB_LOAD_PB => false
  | .PIPE_BEGIN | .PIPE_PIX | .PIPE_ABORT => false
  | .PNL_INIT | .PNL_CLEAR | .PNL_DISPLAY | .PNL_SLEEP | .PNL_CLEANUP => false

/-- R55: the command uses the refresh mode bit M. -/
def Mnemonic.usesMode (mn : Mnemonic) : Bool := mn = .PNL_CLEAR || mn = .PNL_DISPLAY

/-- R55: the command uses the source bit S. -/
def Mnemonic.usesSource (mn : Mnemonic) : Bool := mn = .PNL_DISPLAY

/-- R55: the command uses the byte IMM8. -/
def Mnemonic.usesByte (mn : Mnemonic) : Bool := mn = .FB_LOAD_BYTE || mn = .PIPE_PIX

/-- R61: a qualifier a command does not use is an error of the assembly text, and a byte is 0 to 255. -/
def CommandLine.wf (l : CommandLine) : Bool :=
  (l.c.isNone || l.mnemonic.usesColour) && (l.m.isNone || l.mnemonic.usesMode) &&
  (l.s.isNone || l.mnemonic.usesSource) && (l.byte.isNone || l.mnemonic.usesByte) &&
  decide (l.byte.getD 0 ≤ 255)

/-- A signed 16-bit operand (R21). -/
def signedOperand (v : Int) : Bool := decide (-32768 ≤ v) && decide (v ≤ 32767)

/-- An unsigned 16-bit operand (R21). -/
def unsignedOperand (v : Nat) : Bool := decide (v ≤ 65535)

/-- The operands of a line fit the registers and the window they are written for. DESIGN CHOICE (log entry 24): R61 to R67 give
no range but a byte's (0 to 255), and R62 masks a0 and a1 to 16 bits; the model takes the ranges of the operands' 16-bit reading
(R21, R54) and of the window (R40), and calls a line outside them ill formed. -/
def AsmLine.wf : AsmLine → Bool
  | .wr _ _ => true
  | .rd _ => true
  | .rdb _ i => decide (i < 1048576)
  | .command l => l.wf
  | .args a0 a1 a2 a3 =>
      signedOperand (a0.getD 0) && signedOperand (a1.getD 0) && unsignedOperand (a2.getD 0) && unsignedOperand (a3.getD 0)
  | .waitIdle => true
  | .check => true
  | .load _ => true
  | .loadImage w h _ => unsignedOperand w && unsignedOperand h
  | .loadImageFailed w h _ => unsignedOperand w && unsignedOperand h
  | .setPixel x y _ => signedOperand x && signedOperand y
  | .hLine x y n _ => signedOperand x && signedOperand y && unsignedOperand n
  | .vLine x y n _ => signedOperand x && signedOperand y && unsignedOperand n
  | .rect x y w h _ => signedOperand x && signedOperand y && unsignedOperand w && unsignedOperand h
  | .fillRect x y w h _ => signedOperand x && signedOperand y && unsignedOperand w && unsignedOperand h

end Sys2Proof
end

