-- ==== Sys2Proof/Machine/Control.lean ====
section
/-! DEFINITION. Machine/Control.lean: how the sequencer and the host's accesses interleave (R34, R49, R60, D37). The running
command either makes one sequencer step, because a host access arrives in the middle of it, or runs to its completion,
because none does. -/

namespace Sys2Proof.Machine

/-- One sequencer step: the decoding of an accepted word, or the next piece of the running command's rule. -/
def sequencerStep (s : State) : State :=
  match s.seq with
  | .idle => s
  | .accepted =>
    match decode s.cur with
    | .ok i => { s with seq := .running (linesOf i s) }
    | .error _ => s.completeIllegal
  | .running [] => s.complete .ok
  | .running (op :: rest) =>
    match microStep op s with
    | .go t => { t with seq := .running rest }
    | .again op' t => { t with seq := .running (op' :: rest) }
    | .stop code t => t.complete code

/-- The sequencer left alone: the running command to its completion; a block with no command running stays as it is. -/
def sequencerRun (s : State) : Host.Outcome State Fault Refusal :=
  match s.seq with
  | .idle => .next s
  | .accepted =>
    match decode s.cur with
    | .ok i => exec i s
    | .error _ => .next s.completeIllegal
  | .running rest => .next (runLines rest s)

/-- One step of the block and its host: the next pending input if it has arrived, else the sequencer. A WAITIDLE reached while
RESET_N is low ends at once (DESIGN CHOICE, log entry 23). -/
def controlStep (s : State) : Host.Outcome State Fault Refusal :=
  match s.inbox with
  | [] => sequencerRun s
  | .waitIdle :: rest => if s.run then sequencerRun s else .next (State.endWait { s with inbox := rest })
  | .act 0 a :: rest => .next (State.takeAct a { s with inbox := rest })
  | .act (n + 1) a :: rest =>
    if s.run then .next (sequencerStep { s with inbox := .act n a :: rest })
    else .next (State.takeAct a { s with inbox := rest })

/-- The state in which the word `w` has been accepted from CMD and no host access arrives before it has completed. -/
def State.placeCommand (w : Word) (s : State) : State :=
  { s.accept w with resetN := true, inbox := .waitIdle :: s.inbox }

end Sys2Proof.Machine
end

