-- ==== Sys2Proof/Machine/Step.lean ====
section
/-! DEFINITION. Machine/Step.lean: the step function and the placing of a command for it. -/

namespace Sys2Proof.Machine

/-- One step. A configuration outside the limits of R6 has no meaning (U16). -/
def step (s : State) : Host.Outcome State Fault Refusal :=
  if s.cfg.wf then controlStep s else .refused .geometryOutsideModel

/-- `s` with the command word of `nbits` bits accepted (R60): EPD-FBC fetches nothing (R36, R52), so its next instruction is
the word in CUR, which the next step decodes and runs. The host waits for it (R63). -/
def State.withFetchWord (s : State) (nbits w : Nat) : State :=
  s.placeCommand (BitVec.ofNat 32 (w % 2 ^ nbits))

end Sys2Proof.Machine
end

