-- ==== Sys2Proof/Machine/Assembler.lean ====
section
/-! DEFINITION. Machine/Assembler.lean: the assembly lines of a host program as host accesses (R61 to R67). An access of a
line comes `after` sequencer steps of a command still running; the pseudo-instructions wait for each command. -/

namespace Sys2Proof.Machine

/-- `MemWrite(address of REG, 4, value)`, arriving at once. -/
def writeReg (reg : RegName) (v : Word) : HostEvent := .act 0 (.write (regAddress reg) .four v)

/-- `MemRead(address of REG, 4)`, arriving at once. -/
def readReg (reg : RegName) : HostEvent := .act 0 (.read (regAddress reg) .four)

/-- R56: the OP value of a mnemonic. -/
def mnemonicOp : Mnemonic → Byte
  | .FB_SETPIXEL => 0x10
  | .FB_HLINE => 0x11
  | .FB_VLINE => 0x12
  | .FB_RECT => 0x13
  | .FB_FILLRECT => 0x14
  | .FB_CLEAR => 0x15
  | .FB_FILL => 0x16
  | .FB_LOAD_BEGIN => 0x18
  | .FB_LOAD_BYTE => 0x19
  | .FB_LOAD_COMMIT => 0x1A
  | .FB_LOAD_PB => 0x1B
  | .PIPE_BEGIN => 0x20
  | .PIPE_PIX => 0x21
  | .PIPE_ABORT => 0x22
  | .PNL_INIT => 0x30
  | .PNL_CLEAR => 0x31
  | .PNL_DISPLAY => 0x32
  | .PNL_SLEEP => 0x33
  | .PNL_CLEANUP => 0x34

/-- R61: the word of a command line, `OP | c<<8 | m<<9 | s<<10 | byte<<16`. -/
def commandWord (l : CommandLine) : Word :=
  (mnemonicOp l.mnemonic).setWidth 32 ||| colourBit (l.c.getD .white) ||| modeBit (l.m.getD .full) |||
  sourceBit (l.s.getD .fb) ||| immBits (BitVec.ofNat 8 (l.byte.getD 0))

/-- R62: a 16-bit two's-complement pattern. -/
def argPattern (v : Int) : Word := (BitVec.ofInt 16 v).setWidth 32

/-- R62: `ARGS a0, a1, a2, a3`; an absent operand writes nothing. -/
def argWrites (a0 a1 : Option Int) (a2 a3 : Option Nat) : List HostEvent :=
  (a0.map fun v => writeReg .ARG0 (argPattern v)).toList ++
  (a1.map fun v => writeReg .ARG1 (argPattern v)).toList ++
  (a2.map fun v => writeReg .ARG2 (BitVec.ofNat 32 v)).toList ++
  (a3.map fun v => writeReg .ARG3 (BitVec.ofNat 32 v)).toList

/-- A command issued and waited for (R63). -/
def issueAndWait (i : Instr) : List HostEvent := [writeReg .CMD (encode i), .waitIdle]

/-- R66: the lines of LOADIMAGE up to the codec's work. -/
def openImage (srcW srcH : Nat) : List HostEvent :=
  argWrites none none (some srcW) (some srcH) ++ issueAndWait .pipeBegin ++ [readReg .RESULT, readReg .PIPE_DIM]

/-- R61 to R67: the host accesses of a line. DESIGN CHOICE (log entry 25): a failed LOADIMAGE makes its opening accesses first; a
codec that fails before them (R85) is the lines `PIPE_ABORT` and `WAITIDLE`. -/
def expandLine : AsmLine → List HostEvent
  | .wr reg v => [writeReg reg v]
  | .rd reg => [readReg reg]
  | .rdb buf i => [.act 0 (.read (BitVec.ofNat 22 (windowBase buf + i)) .one)]
  | .command l => [writeReg .CMD (commandWord l)]
  | .args a0 a1 a2 a3 => argWrites a0 a1 a2 a3
  | .waitIdle => [.waitIdle]
  | .check => [readReg .RESULT]
  | .load bytes =>
      issueAndWait .fbLoadBegin ++ bytes.flatMap (fun b => issueAndWait (.fbLoadByte b)) ++ issueAndWait .fbLoadCommit
  | .loadImage w h pixels => openImage w h ++ pixels.flatMap fun g => issueAndWait (.pipePix g)
  | .loadImageFailed w h pixels =>
      openImage w h ++ pixels.flatMap (fun g => issueAndWait (.pipePix g)) ++ issueAndWait .pipeAbort
  | .setPixel x y c => argWrites (some x) (some y) none none ++ issueAndWait (.fbSetPixel c)
  | .hLine x y n c => argWrites (some x) (some y) (some n) none ++ issueAndWait (.fbHLine c)
  | .vLine x y n c => argWrites (some x) (some y) (some n) none ++ issueAndWait (.fbVLine c)
  | .rect x y w h c => argWrites (some x) (some y) (some w) (some h) ++ issueAndWait (.fbRect c)
  | .fillRect x y w h c => argWrites (some x) (some y) (some w) (some h) ++ issueAndWait (.fbFillRect c)

end Sys2Proof.Machine
end

