-- ==== Sys2Proof/Machine/Wire.lean ====
section
/-! DEFINITION. Machine/Wire.lean: the wire-level view derived from a panel trace (R95), and the waits of a trace as time
(R96, R136). -/

namespace Sys2Proof.Machine

/-- R95: what a model that observes lines sees. -/
inductive WireEvent where
  | rstN (v : Bool)
  | pwrEn (v : Bool)
  | dc (v : Bool)
  | csN (v : Bool)
  | byte (b : Byte)
  | wait (t : WaitName)
  | busy (v : Bool)
  deriving DecidableEq, Repr

/-- R95: CS_N driven, where the block frames its transactions. -/
def csEdge (mode : CsMode) (v : Bool) : List WireEvent :=
  match mode with
  | .perTransaction => [.csN v]
  | .none => []

/-- R95: the start of a data transaction, if none is open. -/
def openData (mode : CsMode) (isOpen : Bool) : List WireEvent :=
  if isOpen then [] else .dc true :: csEdge mode false

/-- R95: the end of the data transaction, if one is open. -/
def closeData (mode : CsMode) (isOpen : Bool) : List WireEvent := if isOpen then csEdge mode true else []

/-- R95: one event that is no data byte. DESIGN CHOICE (log entry 27): the view reads the trace, which records no transport answer
(R91), so it shows a line driven, and a byte transferred, whatever the answer; after a failed line event `State.lines` keeps the
level undriven (R92, log entry 15). -/
def plainEvent (mode : CsMode) : PanelEvent → List WireEvent
  | .line .rstN v => [.rstN v]
  | .line .pwrEn v => [.pwrEn v]
  | .cmd b => .dc false :: csEdge mode false ++ [.byte b] ++ csEdge mode true
  | .data b => [.byte b]
  | .wait t => [.wait t]
  | .sample v => [.busy v]

/-- R95: the wire events of a trace; `isOpen` says that a data transaction is under way. A run of `Data` events is one
SendData call, since every call follows a command byte (R102 to R105). DESIGN CHOICE (log entry 26): the end of a trace closes an
open transaction, although a call still under way may have more bytes to come. -/
def wireFrom (mode : CsMode) : Bool → List PanelEvent → List WireEvent
  | isOpen, [] => closeData mode isOpen
  | isOpen, .data b :: rest => openData mode isOpen ++ .byte b :: wireFrom mode true rest
  | isOpen, e :: rest => closeData mode isOpen ++ plainEvent mode e ++ wireFrom mode false rest

/-- R95: the wire-level view of a trace. -/
def wireView (mode : CsMode) (trace : List PanelEvent) : List WireEvent := wireFrom mode false trace

/-- R136: the configured duration of a named wait. -/
def durationOf (d : Durations) : WaitName → Nat
  | .poll => d.poll
  | .rstPre => d.rstPre
  | .rstLow => d.rstLow
  | .rstPost => d.rstPost
  | .sleep => d.sleep

/-- R96: how long the waits of a trace block the sequencer, besides the events' own time. -/
def waitTime (d : Durations) : List PanelEvent → Nat
  | [] => 0
  | .wait t :: rest => durationOf d t + waitTime d rest
  | _ :: rest => waitTime d rest

end Sys2Proof.Machine
end

