-- ==== Sys2Proof/Safety.lean ====
section
/-! DEFINITION. Safety.lean: the invariants of the machine, and the shape of a busy-wait's trace, in the terms the
statements use. -/

namespace Sys2Proof.Machine

/-- R31 for a line of a rule: where it sets PSTATE, it sets INIT as R31 ties the two. -/
def Micro.keepsInit : Micro → Bool
  | .protocol p b => b == p.inSession
  | _ => true

/-- R102, R104, R108 to R112: every line still to run keeps PSTATE and INIT tied (R31). -/
def SeqPos.keepsInit : SeqPos → Bool
  | .idle => true
  | .accepted => true
  | .running rest => rest.all Micro.keepsInit

/-- R112: a line of PNL_CLEANUP up to the one that sets RELEASED. -/
def Micro.releases : Micro → Bool
  | .cutPower | .endSession _ | .releaseHandles _ => true
  | _ => false

/-- R32, R112: what is left of the running command can still set RELEASED. -/
def SeqPos.releases : SeqPos → Bool
  | .idle => false
  | .accepted => false
  | .running rest => rest.any Micro.releases

/-- What holds of the machine at every moment. -/
structure State.Inv (s : State) : Prop where
  /-- the configuration is within R6's limits -/
  config : s.cfg.wf = true
  /-- FB is in canonical form and has SIZE bytes (R15) -/
  fbForm : Memory.wf s.fb
  fbWithin : Memory.Within s.cfg.size s.fb
  /-- PB likewise (R18) -/
  pbForm : Memory.wf s.pb
  pbWithin : Memory.Within s.cfg.size s.pb
  /-- STAGE has SIZE bytes (R20) -/
  stageForm : Cells.Rising s.stage
  stageWithin : Memory.Within s.cfg.size s.stage
  /-- LOAD_CNT holds 0 to SIZE + 1 (R20) -/
  loadCount : s.loadCnt.toNat ≤ s.cfg.size + 1
  /-- TW ≤ W and TH ≤ H (R28) -/
  targetWidth : s.image.tw.toNat ≤ s.cfg.width
  targetHeight : s.image.th.toNat ≤ s.cfg.height
  /-- INIT = 1 exactly in Idle, Transferring and Refreshing (R31) -/
  initTied : s.init = s.pstate.inSession
  /-- what is left of the running command keeps that so -/
  linesTied : s.seq.keepsInit = true
  /-- only PNL_CLEANUP sets RELEASED (R32) -/
  releaseTied : s.seq.releases = true → decode s.cur = .ok .pnlCleanup
  /-- no command runs while RESET_N is low (R129) -/
  resetIdle : s.resetN = false → s.seq = .idle

/-- The image unit between commands (R19, R28, R89). -/
structure State.ImageInv (s : State) : Prop where
  /-- an image is being streamed: it has pixels, and not all of them have come -/
  streaming : s.pipeAct = true →
    0 < s.image.tw.toNat ∧ 0 < s.image.th.toNat ∧ s.image.cnt.toNat < s.image.tw.toNat * s.image.th.toNat
  /-- PB holds a complete image: every pixel has come, and none is being streamed -/
  complete : s.pbValid = true →
    s.pipeAct = false ∧ s.image.cnt.toNat = s.image.tw.toNat * s.image.th.toNat
  /-- CNT ≤ TW * TH -/
  counted : s.image.cnt.toNat ≤ s.image.tw.toNat * s.image.th.toNat
  /-- while an image is streamed or complete, its region lies on the panel, centred (R82) -/
  placed : s.pipeAct = true ∨ s.pbValid = true →
    s.image.tw.toNat ≤ s.cfg.width ∧ s.image.th.toNat ≤ s.cfg.height ∧
    s.image.xoff.toNat = (s.cfg.width - s.image.tw.toNat) / 2 ∧
    s.image.yoff.toNat = (s.cfg.height - s.image.th.toNat) / 2
  /-- and every pixel outside it is white (R89) -/
  margins : s.pipeAct = true ∨ s.pbValid = true → ∀ x y : Nat, x < s.cfg.width → y < s.cfg.height →
    ¬ (s.image.xoff.toNat ≤ x ∧ x < s.image.xoff.toNat + s.image.tw.toNat ∧
       s.image.yoff.toNat ≤ y ∧ y < s.image.yoff.toNat + s.image.th.toNat) →
    pixel s.cfg s.pb x y = true

/-- The pixel (x, y) lies in the rectangle of width w and height h at (x0, y0). -/
abbrev InRect (x0 y0 : Int) (w h : Nat) (x y : Nat) : Prop :=
  x0 ≤ (x : Int) ∧ (x : Int) < x0 + w ∧ y0 ≤ (y : Int) ∧ (y : Int) < y0 + h

/-- The next `n` transport answers are all ok (R91). -/
abbrev State.AnswersOk (n : Nat) (s : State) : Prop := ∀ j, j < n → s.env.answerAt j = true

/-- R98: the events of a busy-wait whose samples read `levels`: one `Wait(T_POLL)` between two samples, none after the
last. -/
def busyEvents : List Bool → List PanelEvent
  | [] => []
  | [v] => [.sample v]
  | v :: rest => .sample v :: .wait .poll :: busyEvents rest

/-- R98: the levels a busy-wait that is not failed by the transport can read: all but the last are busy, and the last is
ready or the `cap`-th. -/
def BusyLevels (cap : Nat) (levels : List Bool) : Prop :=
  1 ≤ levels.length ∧ levels.length ≤ cap ∧ (∀ v ∈ levels.dropLast, v = Config.busyActive) ∧
  (levels.getLast? ≠ some Config.busyActive ∨ levels.length = cap)

/-- The busy-wait reached the cap without a ready sample (R98). -/
def TimedOut (levels : List Bool) : Bool := levels.getLast? == some Config.busyActive

/-- R33, R95: the level at which CS_N rests after a transaction; a block that frames none leaves it. -/
def State.csAtRest (s : State) : Bool :=
  match s.cfg.csMode with
  | .perTransaction => true
  | .none => s.lines.csN

/-- The events of `SendCommand(b); SendData(bs)` with every answer ok (R93, R94). -/
def sendEvents (b : Byte) (bs : List Byte) : List PanelEvent := .cmd b :: bs.map .data

/-- Commands issued one after another, each waited for (R63): what the block holds after them. -/
def afterCommands : List Instr → State → State
  | [], s => s
  | i :: rest, s =>
    match exec i (s.accept (encode i)) with
    | .next t => afterCommands rest t
    | .fault _ => s
    | .refused _ => s

/-- R91: the event has a transport answer; only `Wait` has none. -/
def PanelEvent.answered : PanelEvent → Bool
  | .wait _ => false
  | .line _ _ => true
  | .cmd _ => true
  | .data _ => true
  | .sample _ => true

/-- R56: the opcode map as the spec prints it, (match, mask) a row. -/
def printedOpcodeMap : List (Word × Word) :=
  [ (0x00000010, 0xFFFFFEFF), (0x00000011, 0xFFFFFEFF), (0x00000012, 0xFFFFFEFF), (0x00000013, 0xFFFFFEFF),
    (0x00000014, 0xFFFFFEFF), (0x00000015, 0xFFFFFFFF), (0x00000016, 0xFFFFFEFF), (0x00000018, 0xFFFFFFFF),
    (0x00000019, 0xFF00FFFF), (0x0000001A, 0xFFFFFFFF) ] ++
  [ (0x0000001B, 0xFFFFFFFF), (0x00000020, 0xFFFFFFFF), (0x00000021, 0xFF00FFFF), (0x00000022, 0xFFFFFFFF),
    (0x00000030, 0xFFFFFFFF), (0x00000031, 0xFFFFFDFF), (0x00000032, 0xFFFFF9FF), (0x00000033, 0xFFFFFFFF),
    (0x00000034, 0xFFFFFFFF) ]

/-- R61: the command of a line; an absent qualifier is its zero value. -/
def lineCommand (l : CommandLine) : Instr :=
  match l.mnemonic with
  | .FB_SETPIXEL => .fbSetPixel (l.c.getD .white)
  | .FB_HLINE => .fbHLine (l.c.getD .white)
  | .FB_VLINE => .fbVLine (l.c.getD .white)
  | .FB_RECT => .fbRect (l.c.getD .white)
  | .FB_FILLRECT => .fbFillRect (l.c.getD .white)
  | .FB_CLEAR => .fbClear
  | .FB_FILL => .fbFill (l.c.getD .white)
  | .FB_LOAD_BEGIN => .fbLoadBegin
  | .FB_LOAD_BYTE => .fbLoadByte (BitVec.ofNat 8 (l.byte.getD 0))
  | .FB_LOAD_COMMIT => .fbLoadCommit
  | .FB_LOAD_PB => .fbLoadPb
  | .PIPE_BEGIN => .pipeBegin
  | .PIPE_PIX => .pipePix (BitVec.ofNat 8 (l.byte.getD 0))
  | .PIPE_ABORT => .pipeAbort
  | .PNL_INIT => .pnlInit
  | .PNL_CLEAR => .pnlClear (l.m.getD .full)
  | .PNL_DISPLAY => .pnlDisplay (l.m.getD .full) (l.s.getD .fb)
  | .PNL_SLEEP => .pnlSleep
  | .PNL_CLEANUP => .pnlCleanup

/-- R56: the three families. -/
def isPanel : Instr → Bool
  | .fbSetPixel _ | .fbHLine _ | .fbVLine _ | .fbRect _ | .fbFillRect _ | .fbClear | .fbFill _ => false
  | .fbLoadBegin | .fbLoadByte _ | .fbLoadCommit | .fbLoadPb => false
  | .pipeBegin | .pipePix _ | .pipeAbort => false
  | .pnlInit | .pnlClear _ | .pnlDisplay _ _ | .pnlSleep | .pnlCleanup => true

/-- R113: the total byte length of the nine parameter lists of the register program. -/
def parameterBytes (cfg : Config) : Nat :=
  cfg.program.dataTemp.length + cfg.program.dataSoftstart.length + (encDrvout cfg).length +
  cfg.program.dataBorder.length + 1 + (encXwin cfg).length + (encYwin cfg).length + (encXcnt cfg).length + encYcnt.length

/-- R113, item 2: the most events a command emits. -/
def traceBound (cfg : Config) : Instr → Nat
  | .pnlInit => 7 + 1 + 2 * (2 * cfg.busyPollCap - 1) + 9 + parameterBytes cfg
  | .pnlClear _ => (1 + cfg.size) * (if cfg.secondaryBankEn then 2 else 1) + 3 + (2 * cfg.busyPollCap - 1)
  | .pnlDisplay _ _ => 1 + cfg.size + 3 + (2 * cfg.busyPollCap - 1)
  | .pnlSleep => 3
  | .pnlCleanup => 1
  | .fbSetPixel _ | .fbHLine _ | .fbVLine _ | .fbRect _ | .fbFillRect _ | .fbClear | .fbFill _ => 0
  | .fbLoadBegin | .fbLoadByte _ | .fbLoadCommit | .fbLoadPb => 0
  | .pipeBegin | .pipePix _ | .pipeAbort => 0

/-- R96, R136: the longest the waits of a command can take: its busy-waits' and its fixed ones. -/
def waitBound (cfg : Config) : Instr → Nat
  | .pnlInit =>
    cfg.durations.rstPre + cfg.durations.rstLow + cfg.durations.rstPost + 2 * ((cfg.busyPollCap - 1) * cfg.durations.poll)
  | .pnlClear _ => (cfg.busyPollCap - 1) * cfg.durations.poll
  | .pnlDisplay _ _ => (cfg.busyPollCap - 1) * cfg.durations.poll
  | .pnlSleep => cfg.durations.sleep
  | .pnlCleanup => 0
  | .fbSetPixel _ | .fbHLine _ | .fbVLine _ | .fbRect _ | .fbFillRect _ | .fbClear | .fbFill _ => 0
  | .fbLoadBegin | .fbLoadByte _ | .fbLoadCommit | .fbLoadPb => 0
  | .pipeBegin | .pipePix _ | .pipeAbort => 0

/-- R98: the event is a BUSY sample. -/
def PanelEvent.isSample : PanelEvent → Bool
  | .sample _ => true
  | .line _ _ => false
  | .cmd _ => false
  | .data _ => false
  | .wait _ => false

/-- R92 to R94: the levels of RST_N, PWR_EN and DC after an event, answered ok or not. A failed line event leaves the level; DC
is set before its byte. CS_N is left to R95. -/
def PanelEvent.drive (ok : Bool) (e : PanelEvent) (l : Lines) : Lines :=
  match e with
  | .line .rstN v => if ok then { l with rstN := v } else l
  | .line .pwrEn v => if ok then { l with pwrEn := v } else l
  | .cmd _ => { l with dc := false }
  | .data _ => { l with dc := true }
  | .wait _ => l
  | .sample _ => l

/-- The levels after events of which all but perhaps the last, answered `ok`, were answered ok. -/
def linesAfter (ok : Bool) : List PanelEvent → Lines → Lines
  | [], l => l
  | [e], l => e.drive ok l
  | e :: f :: rest, l => linesAfter ok (f :: rest) (e.drive true l)

/-- R98, R116: a busy-wait of these events reached the cap: a busy sample, answered ok, that no `Wait(T_POLL)` follows. `ok` is the
answer to the last event. -/
def sawTimeout (ok : Bool) : List PanelEvent → Bool
  | [] => false
  | [e] => ok && e == .sample Config.busyActive
  | e :: f :: rest => (e == .sample Config.busyActive && f != .wait .poll) || sawTimeout ok (f :: rest)

/-- The same state before a transport whose next `n` answers are ok; the BUSY levels to come are the same. -/
def State.answeredOk (n : Nat) (s : State) : State := { s with env := { s.env with answers := List.replicate n true } }

/-- The command is not refused before its first event (R108 to R111): the handles are held, the session is open where it
must be, and PB holds an image where it is sent. PNL_CLEANUP is not among these. -/
def State.MayTransfer (s : State) : Instr → Prop
  | .pnlInit => s.released = false
  | .pnlClear _ => s.released = false ∧ s.init = true
  | .pnlDisplay _ src => s.released = false ∧ s.init = true ∧ (src = .pb → s.pbValid = true)
  | .pnlSleep => s.released = false ∧ s.init = true
  | .pnlCleanup => False
  | .fbSetPixel _ | .fbHLine _ | .fbVLine _ | .fbRect _ | .fbFillRect _ | .fbClear | .fbFill _ => False
  | .fbLoadBegin | .fbLoadByte _ | .fbLoadCommit | .fbLoadPb => False
  | .pipeBegin | .pipePix _ | .pipeAbort => False

/-- Sequencer steps, with no host access between them. -/
def sequencerSteps : Nat → State → State
  | 0, s => s
  | n + 1, s => sequencerSteps n (sequencerStep s)

end Sys2Proof.Machine
end

