-- ==== Sys2Proof/Certificates/Slice0/Obligations.lean ====
section
/-! DEFINITION. Certificates/Slice0/Obligations.lean: the statements about the model. Each docstring names the rules of
spec/ it formalises. `State.complete code` is R60's completion: RESULT written, RUN cleared. -/

open Sys2Proof Sys2Proof.Machine

/-! ### Encoding (R53 to R58) -/

/-- R56, R57: the decoder reads every command back from its word, with every operand. -/
def Obligations.DecodeOfEncodeIsTheCommand : Prop := ∀ i : Instr, decode (encode i) = .ok i

/-- R56: a word that decodes is the encoding of what it decodes to: no bit of it is dropped. -/
def Obligations.EncodeOfDecodeIsTheWord : Prop := ∀ (w : Word) (i : Instr), decode w = .ok i → encode i = w

/-- R56: the table the decoder searches is the opcode map as printed, (match, mask) a row, and no word matches two of its rows. -/
def Obligations.NoWordMatchesTwoRows : Prop :=
  opcodeRows.map (fun r => (r.pattern, r.mask)) = printedOpcodeMap ∧
  opcodeRows.Pairwise fun r r' => ∀ w : Word, ¬ (w &&& r.mask = r.pattern ∧ w &&& r'.mask = r'.pattern)

/-- R57: a word is illegal exactly when it matches no row of the printed opcode map. -/
def Obligations.IllegalWordsMatchNoRow : Prop :=
  ∀ w : Word, (∃ why, decode w = .error why) ↔ ∀ r ∈ printedOpcodeMap, w &&& r.2 ≠ r.1

/-- R56: words written out from the opcode map decode to their commands. -/
def Obligations.WrittenOutWordsDecode : Prop :=
  decode 0x00000110 = .ok (.fbSetPixel .black) ∧ decode 0x00000011 = .ok (.fbHLine .white) ∧
  decode 0x00AB0019 = .ok (.fbLoadByte 0xAB) ∧ decode 0x007F0021 = .ok (.pipePix 0x7F) ∧
  decode 0x00000231 = .ok (.pnlClear .fast) ∧ decode 0x00000632 = .ok (.pnlDisplay .fast .pb) ∧
  decode 0x00000034 = .ok .pnlCleanup

/-- R61: a well-formed command line assembles to the word of its command: the decoder reads the line's mnemonic with every
qualifier back, an absent one at its zero value. -/
def Obligations.WellFormedLinesAssembleToLegalWords : Prop :=
  ∀ l : CommandLine, l.wf = true →
    decode (commandWord l) = .ok (lineCommand l) ∧ (lineCommand l).opcode = mnemonicOp l.mnemonic

/-! ### The step, acceptance and completion (R22, R25, R34, R49, R60) -/

/-- R60: a step at a state that has accepted a legal word, with no host access due, is that command's meaning. -/
def Obligations.StepRunsTheAcceptedCommand : Prop :=
  ∀ (s : State) (i : Instr), s.cfg.wf = true → s.seq = .accepted → decode s.cur = .ok i →
    (s.inbox = [] ∨ ∃ rest, s.inbox = .waitIdle :: rest) → step s = exec i s

/-- R57: an illegal word completes at once with IllegalCommand and changes nothing else. -/
def Obligations.IllegalWordCompletesAtOnce : Prop :=
  ∀ (s : State) (why : IllegalWord), s.cfg.wf = true → s.seq = .accepted → decode s.cur = .error why → s.inbox = [] →
    step s = .next { s with result := ⟨.illegalCommand, s.opbto, s.cur.setWidth 8⟩, seq := .idle }

/-- R60, R22: a write to CMD with no command running is accepted: the arguments and the word are latched, opbto is cleared
and the command is running. (`before` and `beforeLoadCnt` are the model's copies of the counters at acceptance.) -/
def Obligations.CmdWriteIsAcceptedWhenIdle : Prop :=
  ∀ (s : State) (k : Nat) (w : Word) (rest : List HostEvent), s.cfg.wf = true → s.resetN = true → s.seq = .idle →
    s.inbox = .act k (.write 0 .four w) :: rest →
    step s = .next { s with inbox := rest, largs := s.args, cur := w, opbto := false, seq := .accepted,
                            before := s.image, beforeLoadCnt := s.loadCnt }

/-- R60: a write to CMD while a command runs is dropped and sets OVR; nothing else changes. -/
def Obligations.CmdWriteIsDroppedWhileRunning : Prop :=
  ∀ (s : State) (w : Word) (rest : List HostEvent), s.cfg.wf = true → s.resetN = true → s.run = true →
    s.inbox = .act 0 (.write 0 .four w) :: rest →
    step s = .next { s with inbox := rest, sticky := { s.sticky with ovr := true } }

/-- R34, R49: the sequencer's single steps, taken one after another with no host access between them, bring an accepted
command to the very state its meaning gives. -/
def Obligations.SequencerStepsReachTheCommandsEnd : Prop :=
  ∀ (s : State) (i : Instr), s.seq = .accepted → decode s.cur = .ok i →
    ∃ n, exec i s = .next (sequencerSteps n s) ∧ (sequencerSteps n s).seq = .idle

/-- R22: a host write to ARGn while a command runs changes ARGn and nothing of the running command's outcome. -/
def Obligations.ArgWriteLeavesTheRunningCommand : Prop :=
  ∀ (s : State) (k : Fin 4) (v : Word), s.run = true →
    ∃ t, sequencerRun s = .next t ∧ sequencerRun (s.writeArg k v) = .next (t.writeArg k v)

/-- R60: every accepted command completes, whatever the environment's draws: RUN is 0, and RESULT holds the low byte of the
word and the busy-wait flag. -/
def Obligations.EveryCommandCompletes : Prop :=
  ∀ (i : Instr) (s : State), ∃ t, exec i s = .next t ∧ t.seq = .idle ∧ t.result.lastop = s.cur.setWidth 8 ∧
    t.result.opbto = t.opbto

/-- R25: RESULT changes in a step only where a running command completes, or where the block is reset. -/
def Obligations.ResultIsWrittenOnlyAtCompletion : Prop :=
  ∀ s t : State, step s = .next t → t.result ≠ s.result →
    (s.run = true ∧ t.run = false) ∨
      ∃ k level rest, s.inbox = .act k (.resetN level) :: rest ∧ (k = 0 ∨ s.run = false)

/-- R21, R22, R129: no command writes an argument register, a latch, CUR, the sticky bits OVR and BERR or the reset input,
and none touches the host's side. -/
def Obligations.CommandsLeaveTheHostRegisters : Prop :=
  ∀ (i : Instr) (s : State), ∃ t, exec i s = .next t ∧ t.cfg = s.cfg ∧ t.args = s.args ∧ t.largs = s.largs ∧
    t.cur = s.cur ∧ t.sticky.ovr = s.sticky.ovr ∧ t.sticky.berr = s.sticky.berr ∧ t.resetN = s.resetN ∧
    t.inbox = s.inbox ∧ t.replies = s.replies

/-- R106: framebuffer and image-unit commands touch nothing of the panel: no event, no line, no protocol state, no draw. -/
def Obligations.BufferCommandsLeaveThePanel : Prop :=
  ∀ (i : Instr) (s : State), isPanel i = false → ∃ t, exec i s = .next t ∧ t.trace = s.trace ∧ t.env = s.env ∧
    t.lines = s.lines ∧ t.pstate = s.pstate ∧ t.init = s.init ∧ t.released = s.released ∧ t.busyCnt = s.busyCnt ∧
    t.opbto = s.opbto ∧ t.sticky = s.sticky

/-- R106, R128: panel commands leave PB, STAGE, the load and the image unit; only PNL_CLEAR writes FB; and each only appends
to the trace. -/
def Obligations.PanelCommandsLeaveTheBuffers : Prop :=
  ∀ (i : Instr) (s : State), isPanel i = true → ∃ t, exec i s = .next t ∧ t.pb = s.pb ∧ t.pbValid = s.pbValid ∧
    t.stage = s.stage ∧ t.loadAct = s.loadAct ∧ t.loadCnt = s.loadCnt ∧ t.image = s.image ∧ t.pipeAct = s.pipeAct ∧
    ((∀ m, i ≠ .pnlClear m) → t.fb = s.fb) ∧ ∃ events, t.trace = s.trace ++ events

/-! ### Invariants and reset (R15, R20, R28, R31, R38, R129, R130) -/

/-- R15, R18, R20, R28, R31, R32, R38: what `State.Inv` lists holds after every step from a state where it holds. That INIT and
PSTATE are tied at every step, also between the two assignments of R108 and R111, is the model's reading of R31 (log entry 8). -/
def Obligations.StepKeepsInv : Prop := ∀ s t : State, s.Inv → step s = .next t → t.Inv

/-- The state right after reset has the invariant. -/
def Obligations.ResetHasInv : Prop := State.reset.Inv

/-- R38: no step changes the configuration. -/
def Obligations.ConfigurationNeverChanges : Prop := ∀ s t : State, step s = .next t → t.cfg = s.cfg

/-- R129, R130: driving RESET_N low, or releasing it, at any moment, abandons the running command and gives every piece of state of
R130's table its reset value: no RESULT of the abandoned command, no event, the lines at their reset levels. STAGE is unspecified.
That the values hold already when RESET_N is driven low, and that the host's side and the environment's draws survive, is the
model's own choice (log entry 12). -/
def Obligations.BlockResetGivesTheResetValues : Prop :=
  ∀ (s : State) (level : Bool) (rest : List HostEvent), s.cfg.wf = true → level = false ∨ s.resetN = false →
    s.inbox = .act 0 (.resetN level) :: rest →
    ∃ t, step s = .next t ∧ t.cfg = s.cfg ∧ t.resetN = level ∧ t.inbox = rest ∧ t.replies = s.replies ∧ t.env = s.env ∧
      (∀ i, i < t.cfg.size → Memory.read t.fb i = 0xFF ∧ Memory.read t.pb i = 0xFF) ∧
      t.pbValid = false ∧ t.loadAct = false ∧ t.loadCnt = 0 ∧ t.args = Args.zero ∧ t.largs = Args.zero ∧ t.cur = 0 ∧
      t.statusWord = 0 ∧ t.result.word = 0 ∧ t.image = ImageRegs.zero ∧ t.pipeAct = false ∧
      t.pstate = .unpowered ∧ t.init = false ∧ t.released = false ∧ t.sticky = ⟨false, false, false⟩ ∧
      t.lines = { rstN := true, dc := false, csN := true, pwrEn := false } ∧
      t.seq = .idle ∧ t.opbto = false ∧ t.trace = [] ∧
      t.geomWord.toNat = s.cfg.width + 65536 * s.cfg.height ∧ t.sizeWord.toNat = s.cfg.size

/-- R129: while RESET_N is low no host access is answered and none has an effect. -/
def Obligations.NoAccessIsAnsweredInReset : Prop :=
  ∀ (s : State) (rest : List HostEvent), s.cfg.wf = true → s.resetN = false → s.seq = .idle →
    (∀ k addr n v, s.inbox = .act k (.write addr n v) :: rest → step s = .next { s with inbox := rest }) ∧
    (∀ k addr n, s.inbox = .act k (.read addr n) :: rest →
      step s = .next { s with inbox := rest, replies := s.replies ++ [none] })

/-! ### Framebuffer commands (40_framebuffer.md) -/

/-- R69 (with R16, R68): FB_SETPIXEL gives the pixel at (x, y) the colour, and changes no other pixel, no other byte of FB
and nothing else; out of bounds it changes nothing. -/
def Obligations.SetPixelColoursOnePixel : Prop :=
  ∀ (c : Colour) (s : State), s.cfg.wf = true →
    decode (0x00000010#32 ||| colourBit c) = .ok (.fbSetPixel c) ∧
    ∃ fb', exec (.fbSetPixel c) s = .next (State.complete .ok { s with fb := fb' }) ∧
      (∀ x y : Nat, x < s.cfg.width → y < s.cfg.height → pixel s.cfg fb' x y =
        if (x : Int) = s.largs.a0.toInt ∧ (y : Int) = s.largs.a1.toInt then storedBit c else pixel s.cfg s.fb x y) ∧
      (∀ i, (OnPanel s.cfg s.opX s.opY → i ≠ byteIndex s.cfg s.opX.toNat s.opY.toNat) →
        Memory.read fb' i = Memory.read s.fb i)

/-- R70: FB_HLINE colours exactly the pixels of the run that lie on the panel. -/
def Obligations.HLineColoursTheRun : Prop :=
  ∀ (c : Colour) (s : State), s.cfg.wf = true →
    decode (0x00000011#32 ||| colourBit c) = .ok (.fbHLine c) ∧
    ∃ fb', exec (.fbHLine c) s = .next (State.complete .ok { s with fb := fb' }) ∧
      (∀ x y : Nat, x < s.cfg.width → y < s.cfg.height → pixel s.cfg fb' x y =
        if s.largs.a0.toInt ≤ (x : Int) ∧ (x : Int) < s.largs.a0.toInt + s.largs.a2.toNat ∧ (y : Int) = s.largs.a1.toInt
        then storedBit c else pixel s.cfg s.fb x y) ∧
      (∀ i, s.cfg.size ≤ i → Memory.read fb' i = Memory.read s.fb i)

/-- R71: FB_VLINE colours exactly the pixels of the run that lie on the panel. -/
def Obligations.VLineColoursTheRun : Prop :=
  ∀ (c : Colour) (s : State), s.cfg.wf = true →
    decode (0x00000012#32 ||| colourBit c) = .ok (.fbVLine c) ∧
    ∃ fb', exec (.fbVLine c) s = .next (State.complete .ok { s with fb := fb' }) ∧
      (∀ x y : Nat, x < s.cfg.width → y < s.cfg.height → pixel s.cfg fb' x y =
        if (x : Int) = s.largs.a0.toInt ∧ s.largs.a1.toInt ≤ (y : Int) ∧ (y : Int) < s.largs.a1.toInt + s.largs.a2.toNat
        then storedBit c else pixel s.cfg s.fb x y) ∧
      (∀ i, s.cfg.size ≤ i → Memory.read fb' i = Memory.read s.fb i)

/-- R72: FB_RECT colours exactly the pixels of its four runs that lie on the panel, also where w or h is 0. -/
def Obligations.RectColoursTheOutline : Prop :=
  ∀ (c : Colour) (s : State), s.cfg.wf = true →
    decode (0x00000013#32 ||| colourBit c) = .ok (.fbRect c) ∧
    ∃ fb', exec (.fbRect c) s = .next (State.complete .ok { s with fb := fb' }) ∧
      (∀ px py : Nat, px < s.cfg.width → py < s.cfg.height →
        let x := s.largs.a0.toInt
        let y := s.largs.a1.toInt
        let w : Int := s.largs.a2.toNat
        let h : Int := s.largs.a3.toNat
        pixel s.cfg fb' px py =
          if (x ≤ px ∧ (px : Int) < x + w ∧ ((py : Int) = y ∨ (py : Int) = y + h - 1)) ∨
             (y ≤ py ∧ (py : Int) < y + h ∧ ((px : Int) = x ∨ (px : Int) = x + w - 1))
          then storedBit c else pixel s.cfg s.fb px py) ∧
      (∀ i, s.cfg.size ≤ i → Memory.read fb' i = Memory.read s.fb i)

/-- R73: FB_FILLRECT colours exactly the pixels of [x, x+w) × [y, y+h) that lie on the panel. -/
def Obligations.FillRectColoursTheRectangle : Prop :=
  ∀ (c : Colour) (s : State), s.cfg.wf = true →
    decode (0x00000014#32 ||| colourBit c) = .ok (.fbFillRect c) ∧
    ∃ fb', exec (.fbFillRect c) s = .next (State.complete .ok { s with fb := fb' }) ∧
      (∀ x y : Nat, x < s.cfg.width → y < s.cfg.height → pixel s.cfg fb' x y =
        if InRect s.largs.a0.toInt s.largs.a1.toInt s.largs.a2.toNat s.largs.a3.toNat x y
        then storedBit c else pixel s.cfg s.fb x y) ∧
      (∀ i, s.cfg.size ≤ i → Memory.read fb' i = Memory.read s.fb i)

/-- R74, R75: FB_CLEAR makes every byte of FB 0xFF; FB_FILL makes every byte 0xFF for white and 0x00 for black. -/
def Obligations.ClearAndFillWriteEveryByte : Prop :=
  ∀ s : State,
    (∃ fb', exec .fbClear s = .next (State.complete .ok { s with fb := fb' }) ∧
      ∀ i, i < s.cfg.size → Memory.read fb' i = 0xFF) ∧
    (∀ c, ∃ fb', exec (.fbFill c) s = .next (State.complete .ok { s with fb := fb' }) ∧
      ∀ i, i < s.cfg.size → Memory.read fb' i = match c with | .white => 0xFF | .black => 0x00) ∧
    decode 0x00000015 = .ok .fbClear ∧ ∀ c, decode (0x00000016#32 ||| colourBit c) = .ok (.fbFill c)

/-- R76: FB_LOAD_BEGIN opens a load with no byte staged and touches nothing else. -/
def Obligations.LoadBeginOpensALoad : Prop :=
  ∀ s : State, decode 0x00000018 = .ok .fbLoadBegin ∧
    exec .fbLoadBegin s = .next (State.complete .ok { s with loadAct := true, loadCnt := 0 })

/-- R77: FB_LOAD_BYTE stages its byte while there is room and counts it up to SIZE + 1; with no load open it is a
SequenceError and changes nothing. -/
def Obligations.LoadByteStagesOneByte : Prop :=
  ∀ (imm : Byte) (s : State), s.cfg.wf = true →
    decode (0x00000019#32 ||| immBits imm) = .ok (.fbLoadByte imm) ∧
    (s.loadAct = false → exec (.fbLoadByte imm) s = .next (s.complete .sequenceError)) ∧
    (s.loadAct = true → ∃ stage' cnt',
      exec (.fbLoadByte imm) s = .next (State.complete .ok { s with stage := stage', loadCnt := cnt' }) ∧
      (∀ i, Memory.stageRead stage' i =
        if i = s.loadCnt.toNat ∧ s.loadCnt.toNat < s.cfg.size then imm else Memory.stageRead s.stage i) ∧
      cnt'.toNat = if s.loadCnt.toNat ≤ s.cfg.size then s.loadCnt.toNat + 1 else s.loadCnt.toNat)

/-- R78: FB_LOAD_COMMIT replaces FB by STAGE exactly when SIZE bytes are staged, closes the load either way, and is a
SequenceError with no load open. -/
def Obligations.LoadCommitReplacesFramebuffer : Prop :=
  ∀ s : State, decode 0x0000001A = .ok .fbLoadCommit ∧
    (s.loadAct = false → exec .fbLoadCommit s = .next (s.complete .sequenceError)) ∧
    (s.loadAct = true → s.loadCnt.toNat ≠ s.cfg.size →
      exec .fbLoadCommit s = .next (State.complete .sizeMismatch { s with loadAct := false })) ∧
    (s.loadAct = true → s.loadCnt.toNat = s.cfg.size → ∃ fb',
      exec .fbLoadCommit s = .next (State.complete .ok { s with loadAct := false, fb := fb' }) ∧
      ∀ i, i < s.cfg.size → Memory.read fb' i = Memory.stageRead s.stage i)

/-- R79: FB_LOAD_PB replaces FB by PB when PB holds a complete image, else it is ImageNotReady and changes nothing. -/
def Obligations.LoadPbCopiesTheImage : Prop :=
  ∀ s : State, decode 0x0000001B = .ok .fbLoadPb ∧
    (s.pbValid = false → exec .fbLoadPb s = .next (s.complete .imageNotReady)) ∧
    (s.pbValid = true → ∃ fb', exec .fbLoadPb s = .next (State.complete .ok { s with fb := fb' }) ∧
      ∀ i, i < s.cfg.size → Memory.read fb' i = Memory.read s.pb i)

/-- R65, R78: `LOAD [b0, ..., b(n-1)]` succeeds exactly when n = SIZE, and then FB is bit-identical to the buffer;
otherwise the commit is a SizeMismatch and FB is as it was. -/
def Obligations.LoadSucceedsExactlyAtSize : Prop :=
  ∀ (s : State) (bytes : List Byte), s.cfg.wf = true →
    let t := afterCommands (.fbLoadBegin :: bytes.map .fbLoadByte ++ [.fbLoadCommit]) s
    (bytes.length = s.cfg.size → t.result.code = .ok ∧ Memory.bytes s.cfg.size t.fb = bytes) ∧
    (bytes.length ≠ s.cfg.size → t.result.code = .sizeMismatch ∧ t.fb = s.fb) ∧
    t.loadAct = false ∧ t.pb = s.pb ∧ t.trace = s.trace

/-! ### Image unit (41_pipeline.md) -/

/-- R81: the target size is the exact `floor(srcDim * min(W/sw, H/sh, 1))` over the rationals. -/
def Obligations.ScaleIsTheExactMinimum : Prop :=
  ∀ (cfg : Config) (sw sh : Nat), cfg.wf = true → 0 < sw → 0 < sh →
    let factor : ℚ := min (min ((cfg.width : ℚ) / sw) ((cfg.height : ℚ) / sh)) 1
    ((scaleToFit cfg sw sh).1 : ℤ) = ⌊(sw : ℚ) * factor⌋ ∧ ((scaleToFit cfg sw sh).2 : ℤ) = ⌊(sh : ℚ) * factor⌋

/-- R86 (with R81, R82): PIPE_BEGIN writes the scaled size and the centering offsets, which leave margins that differ by at
most one pixel, restarts the count and invalidates PB; an empty target is EmptyImage and leaves PB, else PB becomes white
and an image is being streamed. -/
def Obligations.PipeBeginOpensAnImage : Prop :=
  ∀ s : State, s.cfg.wf = true → decode 0x00000020 = .ok .pipeBegin ∧
    ∃ r : ImageRegs,
      (r.tw.toNat, r.th.toNat) = scaleToFit s.cfg s.largs.a2.toNat s.largs.a3.toNat ∧
      r.xoff.toNat = (s.cfg.width - r.tw.toNat) / 2 ∧ r.yoff.toNat = (s.cfg.height - r.th.toNat) / 2 ∧ r.cnt = 0 ∧
      r.tw.toNat ≤ s.cfg.width ∧ r.th.toNat ≤ s.cfg.height ∧
      s.cfg.width - r.tw.toNat - 2 * r.xoff.toNat ≤ 1 ∧ s.cfg.height - r.th.toNat - 2 * r.yoff.toNat ≤ 1 ∧
      (r.tw = 0 ∨ r.th = 0 → exec .pipeBegin s =
        .next (State.complete .emptyImage { s with image := r, pbValid := false, pipeAct := false })) ∧
      (r.tw ≠ 0 → r.th ≠ 0 → ∃ pb', exec .pipeBegin s =
        .next (State.complete .ok { s with image := r, pbValid := false, pipeAct := true, pb := pb' }) ∧
        ∀ i, i < s.cfg.size → Memory.read pb' i = 0xFF)

/-- R87 (with R83, R84): PIPE_PIX makes pixel number CNT black when its grey value is below 128 and leaves it otherwise,
counts it, and at the last pixel closes the image and validates PB; with no image open it is a SequenceError. -/
def Obligations.PipePixPacksOnePixel : Prop :=
  ∀ (g : Byte) (s : State), s.cfg.wf = true → decode (0x00000021#32 ||| immBits g) = .ok (.pipePix g) ∧
    (s.pipeAct = false → exec (.pipePix g) s = .next (s.complete .sequenceError)) ∧
    (s.pipeAct = true →
      let k := s.image.cnt.toNat
      let px := k % s.image.tw.toNat + s.image.xoff.toNat
      let py := k / s.image.tw.toNat + s.image.yoff.toNat
      let cnt' := s.image.cnt + 1
      let last := decide (cnt'.toNat = s.image.tw.toNat * s.image.th.toNat)
      ∃ pb', exec (.pipePix g) s = .next (State.complete .ok
          { s with pb := pb', image := { s.image with cnt := cnt' }, pipeAct := !last, pbValid := last || s.pbValid }) ∧
        (∀ x y, x < s.cfg.width → y < s.cfg.height → pixel s.cfg pb' x y =
          if g.toNat < 128 ∧ x = px ∧ y = py then false else pixel s.cfg s.pb x y) ∧
        (∀ i, (px < s.cfg.width → py < s.cfg.height → i ≠ byteIndex s.cfg px py) →
          Memory.read pb' i = Memory.read s.pb i))

/-- R88: PIPE_ABORT closes the image, invalidates PB, keeps its bytes and always completes with DecodeFailure. -/
def Obligations.PipeAbortFails : Prop :=
  ∀ s : State, decode 0x00000022 = .ok .pipeAbort ∧
    exec .pipeAbort s = .next (State.complete .decodeFailure { s with pipeAct := false, pbValid := false })

/-- R19, R28, R89: between commands the image unit's registers agree with its flags, a streamed or complete image lies
centred on the panel, and every pixel outside it is white: every command keeps this. -/
def Obligations.CommandsKeepTheImageInv : Prop :=
  ∀ (i : Instr) (s : State), s.cfg.wf = true → s.ImageInv → ∃ t, exec i s = .next t ∧ t.ImageInv

/-- R84, R87, R89: after PIPE_BEGIN on a non-empty image and its TW * TH grey values in row-major order, PB is valid and is
exactly the thresholded picture, centred, on white. -/
def Obligations.StreamedImageIsThePicture : Prop :=
  ∀ (s : State) (greys : List Byte), s.cfg.wf = true →
    let d := scaleToFit s.cfg s.args.a2.toNat s.args.a3.toNat
    0 < d.1 → 0 < d.2 → greys.length = d.1 * d.2 →
    let t := afterCommands (.pipeBegin :: greys.map .pipePix) s
    let x0 := (s.cfg.width - d.1) / 2
    let y0 := (s.cfg.height - d.2) / 2
    t.pbValid = true ∧ t.pipeAct = false ∧ t.result.code = .ok ∧ t.fb = s.fb ∧
    ∀ x y : Nat, x < s.cfg.width → y < s.cfg.height →
      pixel s.cfg t.pb x y =
        if x0 ≤ x ∧ x < x0 + d.1 ∧ y0 ≤ y ∧ y < y0 + d.2
        then decide (128 ≤ ((greys.getD ((y - y0) * d.1 + (x - x0)) 0xFF).toNat)) else true

/-! ### Panel commands (42_panel_serializer.md, 43_panel_ops.md) -/

/-- R108 (with R98, R99, R102): with the handles held and every answer ok, PNL_INIT emits the whole sequence in its one order,
the two busy-waits as the panel answers them, and ends in Idle with INIT = 1; a busy-wait at the cap is a flag, not an
error. The level of CS_N rests on R33, R95 and log entries 10 and 16. -/
def Obligations.InitRunsTheSequence : Prop :=
  ∀ s : State, s.released = false → 1 ≤ s.cfg.busyPollCap →
    s.AnswersOk (14 + parameterBytes s.cfg + 2 * s.cfg.busyPollCap) →
    decode 0x00000030 = .ok .pnlInit ∧
    ∃ (first second : List Bool) (t : State), exec .pnlInit s = .next t ∧
      BusyLevels s.cfg.busyPollCap first ∧ BusyLevels s.cfg.busyPollCap second ∧
      (∀ j, j < (first ++ second).length → (first ++ second)[j]? = some (s.env.busyAt j)) ∧
      t.trace = s.trace ++
        [ .line .pwrEn true, .line .rstN true, .wait .rstPre, .line .rstN false, .wait .rstLow, .line .rstN true,
          .wait .rstPost, .cmd 0x12 ] ++ busyEvents first ++
        sendEvents s.cfg.program.cmdTemp s.cfg.program.dataTemp ++
        sendEvents s.cfg.program.cmdSoftstart s.cfg.program.dataSoftstart ++ sendEvents 0x01 (encDrvout s.cfg) ++
        sendEvents s.cfg.program.cmdBorder s.cfg.program.dataBorder ++ sendEvents 0x11 [s.cfg.program.dataEntry] ++
        sendEvents 0x44 (encXwin s.cfg) ++ sendEvents 0x45 (encYwin s.cfg) ++ sendEvents 0x4E (encXcnt s.cfg) ++
        sendEvents 0x4F encYcnt ++ busyEvents second ∧
      (let late := s.opbto || TimedOut first || TimedOut second
       t = { s with
         trace := t.trace, env := t.env, pstate := .idle, init := true, seq := .idle, busyCnt := second.length,
         lines := { rstN := true, dc := true, csN := s.csAtRest, pwrEn := true }, opbto := late,
         sticky := { s.sticky with bto := s.sticky.bto || TimedOut first || TimedOut second },
         result := ⟨.ok, late, s.cur.setWidth 8⟩ })

/-- R109 (with R103, R104): with the session open and every answer ok, PNL_CLEAR makes FB white, streams it to the primary
bank and, where enabled, to the secondary, refreshes and returns to Idle. The level of CS_N rests on R33, R95 and log
entries 10 and 16. -/
def Obligations.ClearWhitensAndRefreshes : Prop :=
  ∀ (m : RefreshMode) (s : State), s.released = false → s.init = true → 1 ≤ s.cfg.busyPollCap →
    s.AnswersOk ((1 + s.cfg.size) * (if s.cfg.secondaryBankEn then 2 else 1) + 3 + s.cfg.busyPollCap) →
    decode (0x00000031#32 ||| modeBit m) = .ok (.pnlClear m) ∧
    ∃ (levels : List Bool) (t : State), exec (.pnlClear m) s = .next t ∧
      BusyLevels s.cfg.busyPollCap levels ∧ (∀ j, j < levels.length → levels[j]? = some (s.env.busyAt j)) ∧
      (∀ i, i < s.cfg.size → Memory.read t.fb i = 0xFF) ∧
      t.trace = s.trace ++ sendEvents 0x24 (List.replicate s.cfg.size 0xFF) ++
        (if s.cfg.secondaryBankEn then sendEvents s.cfg.program.cmdRam2 (List.replicate s.cfg.size 0xFF) else []) ++
        sendEvents 0x22 [refreshByte s.cfg m] ++ [.cmd 0x20] ++ busyEvents levels ∧
      (let late := s.opbto || TimedOut levels
       t = { s with
         fb := t.fb, trace := t.trace, env := t.env, pstate := .idle, init := true, seq := .idle,
         busyCnt := levels.length, lines := { s.lines with dc := false, csN := s.csAtRest }, opbto := late,
         sticky := { s.sticky with bto := s.sticky.bto || TimedOut levels }, result := ⟨.ok, late, s.cur.setWidth 8⟩ })

/-- R110 (with R103, R104, R113): with the session open, the source buffer ready and every answer ok, PNL_DISPLAY streams
exactly the SIZE bytes of the source in index order, refreshes in the mode asked for and returns to Idle; no buffer
changes. The level of CS_N rests on R33, R95 and log entries 10 and 16. -/
def Obligations.DisplaySendsTheBuffer : Prop :=
  ∀ (m : RefreshMode) (src : Source) (s : State), s.released = false → s.init = true →
    (src = .pb → s.pbValid = true) → 1 ≤ s.cfg.busyPollCap → s.AnswersOk (4 + s.cfg.size + s.cfg.busyPollCap) →
    decode (0x00000032#32 ||| modeBit m ||| sourceBit src) = .ok (.pnlDisplay m src) ∧
    ∃ (levels : List Bool) (t : State), exec (.pnlDisplay m src) s = .next t ∧
      BusyLevels s.cfg.busyPollCap levels ∧ (∀ j, j < levels.length → levels[j]? = some (s.env.busyAt j)) ∧
      t.trace = s.trace ++
        sendEvents 0x24 ((List.range s.cfg.size).map fun i =>
          match src with | .fb => Memory.read s.fb i | .pb => Memory.read s.pb i) ++
        sendEvents 0x22 [refreshByte s.cfg m] ++ [.cmd 0x20] ++ busyEvents levels ∧
      (let late := s.opbto || TimedOut levels
       t = { s with
         trace := t.trace, env := t.env, pstate := .idle, init := true, seq := .idle, busyCnt := levels.length,
         lines := { s.lines with dc := false, csN := s.csAtRest }, opbto := late,
         sticky := { s.sticky with bto := s.sticky.bto || TimedOut levels }, result := ⟨.ok, late, s.cur.setWidth 8⟩ })

/-- R111 (with R105): with the session open and both answers ok, PNL_SLEEP emits its three events and ends the session in
Sleeping. The level of CS_N rests on R33, R95 and log entries 10 and 16. -/
def Obligations.SleepEndsTheSession : Prop :=
  ∀ s : State, s.released = false → s.init = true → s.AnswersOk 2 →
    decode 0x00000033 = .ok .pnlSleep ∧
    ∃ t, exec .pnlSleep s = .next t ∧
      t = { s with
        trace := s.trace ++ [.cmd 0x10, .data s.cfg.program.dataSleep, .wait .sleep], env := t.env, pstate := .sleeping,
        init := false, seq := .idle, lines := { s.lines with dc := true, csN := s.csAtRest },
        result := ⟨.ok, s.opbto, s.cur.setWidth 8⟩ }

/-- R112, R32: the first PNL_CLEANUP cuts the power and releases the handles whatever the answer, which alone decides between OK
and TransportError; a repeated one emits nothing and is OK. In any step RELEASED rises only while PNL_CLEANUP runs and falls only
where RESET_N is driven low or released. -/
def Obligations.CleanupReleasesOnce : Prop :=
  (∀ s : State, decode 0x00000034 = .ok .pnlCleanup ∧
    (s.released = true → exec .pnlCleanup s = .next (s.complete .ok)) ∧
    (s.released = false → ∃ t, exec .pnlCleanup s = .next t ∧
      t = { s with
        trace := s.trace ++ [.line .pwrEn false], env := t.env, lines := { s.lines with pwrEn := false },
        pstate := .unpowered, init := false, released := true, seq := .idle,
        result := ⟨if s.env.answerAt 0 then .ok else .transportError, s.opbto, s.cur.setWidth 8⟩ })) ∧
  ∀ s t : State, s.Inv → step s = .next t →
    (s.released = false → t.released = true → s.run = true ∧ decode s.cur = .ok .pnlCleanup) ∧
    (s.released = true → t.released = false →
      ∃ k level rest, s.inbox = .act k (.resetN level) :: rest ∧ (k = 0 ∨ s.run = false) ∧
        (level = false ∨ s.resetN = false))

/-- R113, R117: a panel command refused because the handles are released, no session is open or no image is ready emits
nothing and changes nothing but RESULT; the checks come in that order. -/
def Obligations.RefusedPanelCommandsChangeNothing : Prop :=
  ∀ (m : RefreshMode) (src : Source) (s : State),
    (s.released = true → exec .pnlInit s = .next (s.complete .transportError) ∧
      exec (.pnlClear m) s = .next (s.complete .transportError) ∧
      exec (.pnlDisplay m src) s = .next (s.complete .transportError) ∧
      exec .pnlSleep s = .next (s.complete .transportError)) ∧
    (s.released = false → s.init = false → exec (.pnlClear m) s = .next (s.complete .notInitialized) ∧
      exec (.pnlDisplay m src) s = .next (s.complete .notInitialized) ∧
      exec .pnlSleep s = .next (s.complete .notInitialized)) ∧
    (s.released = false → s.init = true → s.pbValid = false →
      exec (.pnlDisplay m .pb) s = .next (s.complete .imageNotReady))

/-- R91, R107: a command past its checks stops at the first answer that is `fail`, which ends the session with
TransportError; with no such answer it is OK. Every answer before the last event's was ok, and the events are a prefix of those
the command emits when every answer is ok. Nothing done is undone: RST_N, PWR_EN and DC keep the levels last driven, opbto and BTO
the timeouts seen, FB the white fill of PNL_CLEAR, and nothing else changes. That CS_N rests at 1 after a failure, that a failed
line event leaves its level and that DC is set before its byte is log entries 10, 15 and 16. -/
def Obligations.FirstFailedAnswerEndsTheSession : Prop :=
  ∀ (i : Instr) (s : State), s.MayTransfer i →
    ∃ t events, exec i s = .next t ∧ t.trace = s.trace ++ events ∧
      (let n := (events.filter PanelEvent.answered).length
       let ok := s.env.answerAt (n - 1)
       let late := s.opbto || sawTimeout ok events
       0 < n ∧ (∀ j, j + 1 < n → s.env.answerAt j = true) ∧
       ((ok = true ∧ t.result.code = .ok) ∨
        (ok = false ∧ t.result.code = .transportError ∧ t.init = false ∧ t.pstate = .unpowered ∧
          (events.getLast?.map PanelEvent.answered) = some true)) ∧
       t = { s with
         fb := t.fb, trace := t.trace, env := t.env, pstate := t.pstate, init := t.init, seq := .idle, busyCnt := t.busyCnt,
         lines := { linesAfter ok events s.lines with csN := s.csAtRest }, opbto := late,
         sticky := { s.sticky with bto := s.sticky.bto || sawTimeout ok events },
         result := ⟨t.result.code, late, s.cur.setWidth 8⟩ } ∧
       (∀ m, i = .pnlClear m → ∀ k, k < s.cfg.size → Memory.read t.fb k = 0xFF) ∧
       ((∀ m, i ≠ .pnlClear m) → t.fb = s.fb) ∧
       (1 ≤ s.cfg.busyPollCap → ∀ m, traceBound s.cfg i ≤ m → ∃ u full, exec i (s.answeredOk m) = .next u ∧
         u.result.code = .ok ∧ u.trace = s.trace ++ full ∧ events <+: full ∧ (ok = true → events = full)))

/-- R98, R113: with BUSY stuck at "busy" a display of either buffer, a clear and an init still complete with OK: each of their
busy-waits makes exactly BUSY_POLL_CAP samples, and the timeout is flagged in RESULT.OPBTO and STATUS.BTO. -/
def Obligations.StuckBusyStillCompletes : Prop :=
  ∀ s : State, s.released = false → 1 ≤ s.cfg.busyPollCap → (∀ j, j < 2 * s.cfg.busyPollCap → s.env.busyAt j = true) →
    (let stuck := busyEvents (List.replicate s.cfg.busyPollCap true)
     let flagged := fun t : State =>
       t.result.code = .ok ∧ t.result.opbto = true ∧ t.sticky.bto = true ∧ t.statusWord.getLsbD 16 = true
     let quiet := fun sent : List PanelEvent => ∀ v, PanelEvent.sample v ∉ sent
     (s.init = true → ∀ m src, (src = .pb → s.pbValid = true) → s.AnswersOk (4 + s.cfg.size + s.cfg.busyPollCap) →
       ∃ t sent, exec (.pnlDisplay m src) s = .next t ∧ flagged t ∧ t.trace = s.trace ++ sent ++ stuck ∧ quiet sent) ∧
     (s.init = true → ∀ m,
       s.AnswersOk ((1 + s.cfg.size) * (if s.cfg.secondaryBankEn then 2 else 1) + 3 + s.cfg.busyPollCap) →
       ∃ t sent, exec (.pnlClear m) s = .next t ∧ flagged t ∧ t.trace = s.trace ++ sent ++ stuck ∧ quiet sent) ∧
     (s.AnswersOk (14 + parameterBytes s.cfg + 2 * s.cfg.busyPollCap) →
       ∃ t sent more, exec .pnlInit s = .next t ∧ flagged t ∧
         t.trace = s.trace ++ sent ++ stuck ++ more ++ stuck ∧ quiet sent ∧ quiet more))

/-- R113, item 2: every command emits a bounded trace, whatever the draws. -/
def Obligations.EveryTraceIsBounded : Prop :=
  ∀ (i : Instr) (s : State), 1 ≤ s.cfg.busyPollCap →
    ∃ t events, exec i s = .next t ∧ t.trace = s.trace ++ events ∧ events.length ≤ traceBound s.cfg i

/-- R98, R136: whatever the draws, a busy-wait of the machine emits 1 to BUSY_POLL_CAP samples and no event but samples and
`Wait(T_POLL)`, and its waits take at most `(BUSY_POLL_CAP − 1) · T_POLL`; the waits of a whole command take at most those of its
busy-waits and its fixed waits. -/
def Obligations.BusyWaitTimeIsBounded : Prop :=
  ∀ s : State, 1 ≤ s.cfg.busyPollCap →
    (∃ events, (runLines [.busyWait] s).trace = s.trace ++ events ∧
      waitTime s.cfg.durations events ≤ (s.cfg.busyPollCap - 1) * s.cfg.durations.poll ∧
      1 ≤ (events.filter PanelEvent.isSample).length ∧ (events.filter PanelEvent.isSample).length ≤ s.cfg.busyPollCap ∧
      ∀ e ∈ events, e.isSample = true ∨ e = .wait .poll) ∧
    ∀ i : Instr, ∃ t events, exec i s = .next t ∧ t.trace = s.trace ++ events ∧
      waitTime s.cfg.durations events ≤ waitBound s.cfg i

/-- R95: on the wire a command byte with its data is one transaction, or two where there is data: DC low for the command byte, DC
high for the data, each framed by CS_N where the transport asks for it. That all data of a call is one framed transaction is log
entry 16. -/
def Obligations.WireFramesEachTransaction : Prop :=
  ∀ (mode : CsMode) (b : Byte) (bs : List Byte),
    wireView mode (sendEvents b bs) =
      [.dc false] ++ csEdge mode false ++ [.byte b] ++ csEdge mode true ++
      (if bs = [] then [] else [.dc true] ++ csEdge mode false ++ bs.map .byte ++ csEdge mode true)

/-! ### Host accesses (20_memory.md) -/

/-- R41, R45: an aligned window read with no command running returns the buffer's bytes in little-endian lanes, 0 past SIZE,
and changes nothing. -/
def Obligations.WindowReadIsLittleEndian : Prop :=
  ∀ (s : State) (buf : Source) (i : Nat) (n : AccessSize) (addr : HostAddr) (k : Nat) (rest : List HostEvent),
    s.cfg.wf = true → s.resetN = true → s.seq = .idle → i < 0x100000 → i % n.bytes = 0 →
    addr.toNat = (match buf with | .fb => 0x100000 | .pb => 0x200000) + i → s.inbox = .act k (.read addr n) :: rest →
    ∃ v : Word, step s = .next { s with inbox := rest, replies := s.replies ++ [some v] } ∧
      ∀ j, j < 4 → v.extractLsb' (8 * j) 8 =
        if j < n.bytes ∧ i + j < s.cfg.size then Memory.read (match buf with | .fb => s.fb | .pb => s.pb) (i + j) else 0

/-- R41, R45, R132: while a command runs that does not write the buffer (R41 lists those that may), or an illegal word is about to
complete, an aligned window read returns the buffer's exact bytes in little-endian lanes, 0 past SIZE, and changes nothing. -/
def Obligations.SettledWindowByteIsExact : Prop :=
  ∀ (s : State) (buf : Source) (i : Nat) (n : AccessSize) (addr : HostAddr) (rest : List HostEvent),
    s.cfg.wf = true → s.resetN = true → s.run = true →
    (∀ c, decode s.cur = .ok c → match buf with
      | .fb => c.opcode ∉ [0x10, 0x11, 0x12, 0x13, 0x14, 0x15, 0x16, 0x1A, 0x1B, 0x31]
      | .pb => c.opcode ∉ [0x20, 0x21]) →
    i < 0x100000 → i % n.bytes = 0 →
    addr.toNat = (match buf with | .fb => 0x100000 | .pb => 0x200000) + i → s.inbox = .act 0 (.read addr n) :: rest →
    ∃ v : Word, step s = .next { s with inbox := rest, replies := s.replies ++ [some v] } ∧
      ∀ j, j < 4 → v.extractLsb' (8 * j) 8 =
        if j < n.bytes ∧ i + j < s.cfg.size then Memory.read (match buf with | .fb => s.fb | .pb => s.pb) (i + j) else 0

/-- R42: an access that breaks the rules of its region reads 0 or is ignored, and sets BERR; nothing else changes. -/
def Obligations.IllegalAccessSetsBerr : Prop :=
  ∀ (s : State) (addr : HostAddr) (n : AccessSize) (rest : List HostEvent), s.cfg.wf = true → s.resetN = true →
    let a := addr.toNat
    let badRegister := a < 0x100000 ∧ ¬ (n = .four ∧ a % 4 = 0)
    let misaligned := 0x100000 ≤ a ∧ a % n.bytes ≠ 0
    let window := 0x100000 ≤ a ∧ a < 0x300000
    (badRegister ∨ misaligned → s.inbox = .act 0 (.read addr n) :: rest →
      step s = .next { s with inbox := rest, replies := s.replies ++ [some 0], sticky := { s.sticky with berr := true } }) ∧
    (badRegister ∨ misaligned ∨ window → ∀ v, s.inbox = .act 0 (.write addr n v) :: rest →
      step s = .next { s with inbox := rest, sticky := { s.sticky with berr := true } })

/-- R42: a legal write to a read-only register or to a reserved address is ignored without BERR, while a command runs or
not. -/
def Obligations.ReadOnlyWritesAreIgnored : Prop :=
  ∀ (s : State) (addr : HostAddr) (n : AccessSize) (v : Word) (rest : List HostEvent), s.cfg.wf = true →
    s.resetN = true → s.inbox = .act 0 (.write addr n v) :: rest →
    (n = .four ∧ addr.toNat ∈ [0x04, 0x08, 0x20, 0x24, 0x28, 0x2C, 0x30, 0x34]) ∨
      (n = .four ∧ 0x38 ≤ addr.toNat ∧ addr.toNat < 0x100000 ∧ addr.toNat % 4 = 0) ∨
      (0x300000 ≤ addr.toNat ∧ addr.toNat % n.bytes = 0) →
    step s = .next { s with inbox := rest }

/-- R43, R132: a legal read of a register, while a command runs or not, has no side effect: CMD, STICKY_CLR and reserved
addresses read 0, the argument registers their 16 bits, GEOM and FB_SIZE the configuration, STATUS its current fields with RUN as
it is, RESULT the last completed command's; the counter registers read their values where no command runs. (`choicesDrawn` is the
model's own count of free choices, log entry 6.) -/
def Obligations.RegisterReadHasNoSideEffect : Prop :=
  ∀ (s : State) (addr : HostAddr) (k : Nat) (rest : List HostEvent), s.cfg.wf = true → s.resetN = true →
    k = 0 ∨ s.run = false → addr.toNat < 0x100000 → addr.toNat % 4 = 0 → s.inbox = .act k (.read addr .four) :: rest →
    ∃ (v : Word) (drawn : Nat), step s = .next
        { s with inbox := rest, replies := s.replies ++ [some v], env := { s.env with choicesDrawn := drawn } } ∧
      (s.run = false → drawn = s.env.choicesDrawn) ∧
      (addr = 0x00 ∨ addr = 0x0C ∨ 0x38 ≤ addr.toNat → v = 0) ∧
      (addr = 0x10 → v.toNat = s.args.a0.toNat) ∧ (addr = 0x14 → v.toNat = s.args.a1.toNat) ∧
      (addr = 0x18 → v.toNat = s.args.a2.toNat) ∧ (addr = 0x1C → v.toNat = s.args.a3.toNat) ∧
      (addr = 0x04 → v = s.statusWord ∧ v.getLsbD 0 = s.run) ∧ (addr = 0x08 → v = s.result.word) ∧
      (addr = 0x20 → v.toNat = s.cfg.width + 65536 * s.cfg.height) ∧ (addr = 0x24 → v.toNat = s.cfg.size) ∧
      (s.run = false →
        (addr = 0x28 → v.toNat = s.image.tw.toNat + 65536 * s.image.th.toNat) ∧
        (addr = 0x2C → v.toNat = s.image.xoff.toNat + 65536 * s.image.yoff.toNat) ∧
        (addr = 0x30 → v = s.image.cnt) ∧ (addr = 0x34 → v = s.loadCnt))

/-- R132, S3: a counter register read while a command runs gives its value at the command's acceptance or the value the command
leaves at its completion. That these two are the values before and after the write is the model's reading (log entry 6). -/
def Obligations.CounterReadIsOldOrNew : Prop :=
  ∀ s : State, s.run = true → ∃ t, sequencerRun s = .next t ∧
    (s.readValue 0x28 .four = s.before.dimWord ∨ s.readValue 0x28 .four = t.image.dimWord) ∧
    (s.readValue 0x2C .four = s.before.offWord ∨ s.readValue 0x2C .four = t.image.offWord) ∧
    (s.readValue 0x30 .four = s.before.cnt ∨ s.readValue 0x30 .four = t.image.cnt) ∧
    (s.readValue 0x34 .four = s.beforeLoadCnt ∨ s.readValue 0x34 .four = t.loadCnt)

/-- R24, R30: the fields of STATUS, bit by bit, every other bit reading 0, and the codes of PSTATE. -/
def Obligations.StatusWordHasItsFields : Prop :=
  (∀ (s : State) (k : Nat), s.statusWord.getLsbD k =
    if k = 0 then s.run else if k = 1 then s.init else if k = 2 then s.pbValid else if k = 3 then s.loadAct
    else if k = 4 then s.pipeAct else if k = 5 then s.released
    else if 8 ≤ k ∧ k ≤ 10 then s.pstate.code.testBit (k - 8)
    else if k = 16 then s.sticky.bto else if k = 17 then s.sticky.ovr else if k = 18 then s.sticky.berr else false) ∧
  PState.unpowered.code = 0 ∧ PState.resetting.code = 1 ∧ PState.awaitingReady.code = 2 ∧ PState.configured.code = 3 ∧
  PState.idle.code = 4 ∧ PState.transferring.code = 5 ∧ PState.refreshing.code = 6 ∧ PState.sleeping.code = 7

/-- R25, R114: the fields of RESULT, every other bit reading 0, and the result codes. -/
def Obligations.ResultWordHasItsFields : Prop :=
  (∀ r : Result, r.word.toNat = r.code.code + 256 * r.opbto.toNat + 65536 * r.lastop.toNat) ∧
  ResultCode.ok.code = 0 ∧ ResultCode.transportError.code = 1 ∧ ResultCode.sizeMismatch.code = 2 ∧
  ResultCode.decodeFailure.code = 3 ∧ ResultCode.emptyImage.code = 4 ∧ ResultCode.notInitialized.code = 5 ∧
  ResultCode.illegalCommand.code = 6 ∧ ResultCode.sequenceError.code = 7 ∧ ResultCode.imageNotReady.code = 8

/-- R26: a write to STICKY_CLR clears exactly the sticky bits whose bit of the word is 1, while a command runs or not. -/
def Obligations.StickyClearIsWriteOneToClear : Prop :=
  ∀ (s : State) (w : Word) (rest : List HostEvent), s.cfg.wf = true → s.resetN = true →
    s.inbox = .act 0 (.write 0x0C .four w) :: rest →
    ∃ t, step s = .next t ∧ t = { s with inbox := rest, sticky := t.sticky } ∧
      (t.sticky.bto = true ↔ s.sticky.bto = true ∧ w.getLsbD 16 = false) ∧
      (t.sticky.ovr = true ↔ s.sticky.ovr = true ∧ w.getLsbD 17 = false) ∧
      (t.sticky.berr = true ↔ s.sticky.berr = true ∧ w.getLsbD 18 = false)

/-- R21: a write to an argument register keeps bits [15:0] of the word, and touches nothing else, while a command runs or
not. -/
def Obligations.ArgWriteKeepsTheLowHalf : Prop :=
  ∀ (s : State) (addr : HostAddr) (w : Word) (rest : List HostEvent), s.cfg.wf = true → s.resetN = true →
    s.inbox = .act 0 (.write addr .four w) :: rest →
    (addr = 0x10 → step s = .next { s with inbox := rest, args := { s.args with a0 := w.setWidth 16 } }) ∧
    (addr = 0x14 → step s = .next { s with inbox := rest, args := { s.args with a1 := w.setWidth 16 } }) ∧
    (addr = 0x18 → step s = .next { s with inbox := rest, args := { s.args with a2 := w.setWidth 16 } }) ∧
    (addr = 0x1C → step s = .next { s with inbox := rest, args := { s.args with a3 := w.setWidth 16 } })
end

