-- ==== Sys2Proof/Laws/State.lean ====
section
/-! SUPPORT. Laws/State.lean: what each named update of the state does to each field. -/

namespace Sys2Proof.Machine

variable (s : State)

/-! ### record -/

@[simp] theorem State.record_cfg (e : PanelEvent) : (s.record e).cfg = s.cfg := rfl
@[simp] theorem State.record_fb (e : PanelEvent) : (s.record e).fb = s.fb := rfl
@[simp] theorem State.record_pb (e : PanelEvent) : (s.record e).pb = s.pb := rfl
@[simp] theorem State.record_stage (e : PanelEvent) : (s.record e).stage = s.stage := rfl
@[simp] theorem State.record_pbValid (e : PanelEvent) : (s.record e).pbValid = s.pbValid := rfl
@[simp] theorem State.record_loadAct (e : PanelEvent) : (s.record e).loadAct = s.loadAct := rfl
@[simp] theorem State.record_loadCnt (e : PanelEvent) : (s.record e).loadCnt = s.loadCnt := rfl
@[simp] theorem State.record_args (e : PanelEvent) : (s.record e).args = s.args := rfl
@[simp] theorem State.record_largs (e : PanelEvent) : (s.record e).largs = s.largs := rfl
@[simp] theorem State.record_cur (e : PanelEvent) : (s.record e).cur = s.cur := rfl
@[simp] theorem State.record_sticky (e : PanelEvent) : (s.record e).sticky = s.sticky := rfl
@[simp] theorem State.record_result (e : PanelEvent) : (s.record e).result = s.result := rfl
@[simp] theorem State.record_image (e : PanelEvent) : (s.record e).image = s.image := rfl
@[simp] theorem State.record_pipeAct (e : PanelEvent) : (s.record e).pipeAct = s.pipeAct := rfl
@[simp] theorem State.record_pstate (e : PanelEvent) : (s.record e).pstate = s.pstate := rfl
@[simp] theorem State.record_init (e : PanelEvent) : (s.record e).init = s.init := rfl
@[simp] theorem State.record_released (e : PanelEvent) : (s.record e).released = s.released := rfl
@[simp] theorem State.record_lines (e : PanelEvent) : (s.record e).lines = s.lines := rfl
@[simp] theorem State.record_seq (e : PanelEvent) : (s.record e).seq = s.seq := rfl
@[simp] theorem State.record_busyCnt (e : PanelEvent) : (s.record e).busyCnt = s.busyCnt := rfl
@[simp] theorem State.record_opbto (e : PanelEvent) : (s.record e).opbto = s.opbto := rfl
@[simp] theorem State.record_trace (e : PanelEvent) : (s.record e).trace = s.trace ++ [e] := rfl
@[simp] theorem State.record_resetN (e : PanelEvent) : (s.record e).resetN = s.resetN := rfl
@[simp] theorem State.record_before (e : PanelEvent) : (s.record e).before = s.before := rfl
@[simp] theorem State.record_beforeLoadCnt (e : PanelEvent) : (s.record e).beforeLoadCnt = s.beforeLoadCnt := rfl
@[simp] theorem State.record_env (e : PanelEvent) : (s.record e).env = s.env := rfl
@[simp] theorem State.record_inbox (e : PanelEvent) : (s.record e).inbox = s.inbox := rfl
@[simp] theorem State.record_replies (e : PanelEvent) : (s.record e).replies = s.replies := rfl

/-! ### emit -/

@[simp] theorem State.emit_cfg (e : PanelEvent) : (s.emit e).cfg = s.cfg := rfl
@[simp] theorem State.emit_fb (e : PanelEvent) : (s.emit e).fb = s.fb := rfl
@[simp] theorem State.emit_pb (e : PanelEvent) : (s.emit e).pb = s.pb := rfl
@[simp] theorem State.emit_stage (e : PanelEvent) : (s.emit e).stage = s.stage := rfl
@[simp] theorem State.emit_pbValid (e : PanelEvent) : (s.emit e).pbValid = s.pbValid := rfl
@[simp] theorem State.emit_loadAct (e : PanelEvent) : (s.emit e).loadAct = s.loadAct := rfl
@[simp] theorem State.emit_loadCnt (e : PanelEvent) : (s.emit e).loadCnt = s.loadCnt := rfl
@[simp] theorem State.emit_args (e : PanelEvent) : (s.emit e).args = s.args := rfl
@[simp] theorem State.emit_largs (e : PanelEvent) : (s.emit e).largs = s.largs := rfl
@[simp] theorem State.emit_cur (e : PanelEvent) : (s.emit e).cur = s.cur := rfl
@[simp] theorem State.emit_sticky (e : PanelEvent) : (s.emit e).sticky = s.sticky := rfl
@[simp] theorem State.emit_result (e : PanelEvent) : (s.emit e).result = s.result := rfl
@[simp] theorem State.emit_image (e : PanelEvent) : (s.emit e).image = s.image := rfl
@[simp] theorem State.emit_pipeAct (e : PanelEvent) : (s.emit e).pipeAct = s.pipeAct := rfl
@[simp] theorem State.emit_pstate (e : PanelEvent) : (s.emit e).pstate = s.pstate := rfl
@[simp] theorem State.emit_init (e : PanelEvent) : (s.emit e).init = s.init := rfl
@[simp] theorem State.emit_released (e : PanelEvent) : (s.emit e).released = s.released := rfl
@[simp] theorem State.emit_lines (e : PanelEvent) : (s.emit e).lines = s.lines := rfl
@[simp] theorem State.emit_seq (e : PanelEvent) : (s.emit e).seq = s.seq := rfl
@[simp] theorem State.emit_busyCnt (e : PanelEvent) : (s.emit e).busyCnt = s.busyCnt := rfl
@[simp] theorem State.emit_opbto (e : PanelEvent) : (s.emit e).opbto = s.opbto := rfl
@[simp] theorem State.emit_trace (e : PanelEvent) : (s.emit e).trace = s.trace ++ [e] := rfl
@[simp] theorem State.emit_resetN (e : PanelEvent) : (s.emit e).resetN = s.resetN := rfl
@[simp] theorem State.emit_before (e : PanelEvent) : (s.emit e).before = s.before := rfl
@[simp] theorem State.emit_beforeLoadCnt (e : PanelEvent) : (s.emit e).beforeLoadCnt = s.beforeLoadCnt := rfl
@[simp] theorem State.emit_env (e : PanelEvent) : (s.emit e).env = s.env.afterAnswer := rfl
@[simp] theorem State.emit_inbox (e : PanelEvent) : (s.emit e).inbox = s.inbox := rfl
@[simp] theorem State.emit_replies (e : PanelEvent) : (s.emit e).replies = s.replies := rfl

/-! ### sample -/

@[simp] theorem State.sample_cfg : (s.sample).cfg = s.cfg := rfl
@[simp] theorem State.sample_fb : (s.sample).fb = s.fb := rfl
@[simp] theorem State.sample_pb : (s.sample).pb = s.pb := rfl
@[simp] theorem State.sample_stage : (s.sample).stage = s.stage := rfl
@[simp] theorem State.sample_pbValid : (s.sample).pbValid = s.pbValid := rfl
@[simp] theorem State.sample_loadAct : (s.sample).loadAct = s.loadAct := rfl
@[simp] theorem State.sample_loadCnt : (s.sample).loadCnt = s.loadCnt := rfl
@[simp] theorem State.sample_args : (s.sample).args = s.args := rfl
@[simp] theorem State.sample_largs : (s.sample).largs = s.largs := rfl
@[simp] theorem State.sample_cur : (s.sample).cur = s.cur := rfl
@[simp] theorem State.sample_sticky : (s.sample).sticky = s.sticky := rfl
@[simp] theorem State.sample_result : (s.sample).result = s.result := rfl
@[simp] theorem State.sample_image : (s.sample).image = s.image := rfl
@[simp] theorem State.sample_pipeAct : (s.sample).pipeAct = s.pipeAct := rfl
@[simp] theorem State.sample_pstate : (s.sample).pstate = s.pstate := rfl
@[simp] theorem State.sample_init : (s.sample).init = s.init := rfl
@[simp] theorem State.sample_released : (s.sample).released = s.released := rfl
@[simp] theorem State.sample_lines : (s.sample).lines = s.lines := rfl
@[simp] theorem State.sample_seq : (s.sample).seq = s.seq := rfl
@[simp] theorem State.sample_busyCnt : (s.sample).busyCnt = s.busyCnt := rfl
@[simp] theorem State.sample_opbto : (s.sample).opbto = s.opbto := rfl
@[simp] theorem State.sample_trace : (s.sample).trace = s.trace ++ [.sample s.nextBusy] := rfl
@[simp] theorem State.sample_resetN : (s.sample).resetN = s.resetN := rfl
@[simp] theorem State.sample_before : (s.sample).before = s.before := rfl
@[simp] theorem State.sample_beforeLoadCnt : (s.sample).beforeLoadCnt = s.beforeLoadCnt := rfl
@[simp] theorem State.sample_env : (s.sample).env = s.env.afterBusy.afterAnswer := rfl
@[simp] theorem State.sample_inbox : (s.sample).inbox = s.inbox := rfl
@[simp] theorem State.sample_replies : (s.sample).replies = s.replies := rfl

/-! ### setDc -/

@[simp] theorem State.setDc_cfg (v : Bool) : (s.setDc v).cfg = s.cfg := rfl
@[simp] theorem State.setDc_fb (v : Bool) : (s.setDc v).fb = s.fb := rfl
@[simp] theorem State.setDc_pb (v : Bool) : (s.setDc v).pb = s.pb := rfl
@[simp] theorem State.setDc_stage (v : Bool) : (s.setDc v).stage = s.stage := rfl
@[simp] theorem State.setDc_pbValid (v : Bool) : (s.setDc v).pbValid = s.pbValid := rfl
@[simp] theorem State.setDc_loadAct (v : Bool) : (s.setDc v).loadAct = s.loadAct := rfl
@[simp] theorem State.setDc_loadCnt (v : Bool) : (s.setDc v).loadCnt = s.loadCnt := rfl
@[simp] theorem State.setDc_args (v : Bool) : (s.setDc v).args = s.args := rfl
@[simp] theorem State.setDc_largs (v : Bool) : (s.setDc v).largs = s.largs := rfl
@[simp] theorem State.setDc_cur (v : Bool) : (s.setDc v).cur = s.cur := rfl
@[simp] theorem State.setDc_sticky (v : Bool) : (s.setDc v).sticky = s.sticky := rfl
@[simp] theorem State.setDc_result (v : Bool) : (s.setDc v).result = s.result := rfl
@[simp] theorem State.setDc_image (v : Bool) : (s.setDc v).image = s.image := rfl
@[simp] theorem State.setDc_pipeAct (v : Bool) : (s.setDc v).pipeAct = s.pipeAct := rfl
@[simp] theorem State.setDc_pstate (v : Bool) : (s.setDc v).pstate = s.pstate := rfl
@[simp] theorem State.setDc_init (v : Bool) : (s.setDc v).init = s.init := rfl
@[simp] theorem State.setDc_released (v : Bool) : (s.setDc v).released = s.released := rfl
@[simp] theorem State.setDc_lines (v : Bool) : (s.setDc v).lines = { s.lines with dc := v } := rfl
@[simp] theorem State.setDc_seq (v : Bool) : (s.setDc v).seq = s.seq := rfl
@[simp] theorem State.setDc_busyCnt (v : Bool) : (s.setDc v).busyCnt = s.busyCnt := rfl
@[simp] theorem State.setDc_opbto (v : Bool) : (s.setDc v).opbto = s.opbto := rfl
@[simp] theorem State.setDc_trace (v : Bool) : (s.setDc v).trace = s.trace := rfl
@[simp] theorem State.setDc_resetN (v : Bool) : (s.setDc v).resetN = s.resetN := rfl
@[simp] theorem State.setDc_before (v : Bool) : (s.setDc v).before = s.before := rfl
@[simp] theorem State.setDc_beforeLoadCnt (v : Bool) : (s.setDc v).beforeLoadCnt = s.beforeLoadCnt := rfl
@[simp] theorem State.setDc_env (v : Bool) : (s.setDc v).env = s.env := rfl
@[simp] theorem State.setDc_inbox (v : Bool) : (s.setDc v).inbox = s.inbox := rfl
@[simp] theorem State.setDc_replies (v : Bool) : (s.setDc v).replies = s.replies := rfl

/-! ### setProtocol -/

@[simp] theorem State.setProtocol_cfg (p : PState) (b : Bool) : (s.setProtocol p b).cfg = s.cfg := rfl
@[simp] theorem State.setProtocol_fb (p : PState) (b : Bool) : (s.setProtocol p b).fb = s.fb := rfl
@[simp] theorem State.setProtocol_pb (p : PState) (b : Bool) : (s.setProtocol p b).pb = s.pb := rfl
@[simp] theorem State.setProtocol_stage (p : PState) (b : Bool) : (s.setProtocol p b).stage = s.stage := rfl
@[simp] theorem State.setProtocol_pbValid (p : PState) (b : Bool) : (s.setProtocol p b).pbValid = s.pbValid := rfl
@[simp] theorem State.setProtocol_loadAct (p : PState) (b : Bool) : (s.setProtocol p b).loadAct = s.loadAct := rfl
@[simp] theorem State.setProtocol_loadCnt (p : PState) (b : Bool) : (s.setProtocol p b).loadCnt = s.loadCnt := rfl
@[simp] theorem State.setProtocol_args (p : PState) (b : Bool) : (s.setProtocol p b).args = s.args := rfl
@[simp] theorem State.setProtocol_largs (p : PState) (b : Bool) : (s.setProtocol p b).largs = s.largs := rfl
@[simp] theorem State.setProtocol_cur (p : PState) (b : Bool) : (s.setProtocol p b).cur = s.cur := rfl
@[simp] theorem State.setProtocol_sticky (p : PState) (b : Bool) : (s.setProtocol p b).sticky = s.sticky := rfl
@[simp] theorem State.setProtocol_result (p : PState) (b : Bool) : (s.setProtocol p b).result = s.result := rfl
@[simp] theorem State.setProtocol_image (p : PState) (b : Bool) : (s.setProtocol p b).image = s.image := rfl
@[simp] theorem State.setProtocol_pipeAct (p : PState) (b : Bool) : (s.setProtocol p b).pipeAct = s.pipeAct := rfl
@[simp] theorem State.setProtocol_pstate (p : PState) (b : Bool) : (s.setProtocol p b).pstate = p := rfl
@[simp] theorem State.setProtocol_init (p : PState) (b : Bool) : (s.setProtocol p b).init = b := rfl
@[simp] theorem State.setProtocol_released (p : PState) (b : Bool) : (s.setProtocol p b).released = s.released := rfl
@[simp] theorem State.setProtocol_lines (p : PState) (b : Bool) : (s.setProtocol p b).lines = s.lines := rfl
@[simp] theorem State.setProtocol_seq (p : PState) (b : Bool) : (s.setProtocol p b).seq = s.seq := rfl
@[simp] theorem State.setProtocol_busyCnt (p : PState) (b : Bool) : (s.setProtocol p b).busyCnt = s.busyCnt := rfl
@[simp] theorem State.setProtocol_opbto (p : PState) (b : Bool) : (s.setProtocol p b).opbto = s.opbto := rfl
@[simp] theorem State.setProtocol_trace (p : PState) (b : Bool) : (s.setProtocol p b).trace = s.trace := rfl
@[simp] theorem State.setProtocol_resetN (p : PState) (b : Bool) : (s.setProtocol p b).resetN = s.resetN := rfl
@[simp] theorem State.setProtocol_before (p : PState) (b : Bool) : (s.setProtocol p b).before = s.before := rfl
@[simp] theorem State.setProtocol_beforeLoadCnt (p : PState) (b : Bool) : (s.setProtocol p b).beforeLoadCnt = s.beforeLoadCnt := rfl
@[simp] theorem State.setProtocol_env (p : PState) (b : Bool) : (s.setProtocol p b).env = s.env := rfl
@[simp] theorem State.setProtocol_inbox (p : PState) (b : Bool) : (s.setProtocol p b).inbox = s.inbox := rfl
@[simp] theorem State.setProtocol_replies (p : PState) (b : Bool) : (s.setProtocol p b).replies = s.replies := rfl

/-! ### noteTimeout -/

@[simp] theorem State.noteTimeout_cfg : (s.noteTimeout).cfg = s.cfg := rfl
@[simp] theorem State.noteTimeout_fb : (s.noteTimeout).fb = s.fb := rfl
@[simp] theorem State.noteTimeout_pb : (s.noteTimeout).pb = s.pb := rfl
@[simp] theorem State.noteTimeout_stage : (s.noteTimeout).stage = s.stage := rfl
@[simp] theorem State.noteTimeout_pbValid : (s.noteTimeout).pbValid = s.pbValid := rfl
@[simp] theorem State.noteTimeout_loadAct : (s.noteTimeout).loadAct = s.loadAct := rfl
@[simp] theorem State.noteTimeout_loadCnt : (s.noteTimeout).loadCnt = s.loadCnt := rfl
@[simp] theorem State.noteTimeout_args : (s.noteTimeout).args = s.args := rfl
@[simp] theorem State.noteTimeout_largs : (s.noteTimeout).largs = s.largs := rfl
@[simp] theorem State.noteTimeout_cur : (s.noteTimeout).cur = s.cur := rfl
@[simp] theorem State.noteTimeout_sticky : (s.noteTimeout).sticky = { s.sticky with bto := true } := rfl
@[simp] theorem State.noteTimeout_result : (s.noteTimeout).result = s.result := rfl
@[simp] theorem State.noteTimeout_image : (s.noteTimeout).image = s.image := rfl
@[simp] theorem State.noteTimeout_pipeAct : (s.noteTimeout).pipeAct = s.pipeAct := rfl
@[simp] theorem State.noteTimeout_pstate : (s.noteTimeout).pstate = s.pstate := rfl
@[simp] theorem State.noteTimeout_init : (s.noteTimeout).init = s.init := rfl
@[simp] theorem State.noteTimeout_released : (s.noteTimeout).released = s.released := rfl
@[simp] theorem State.noteTimeout_lines : (s.noteTimeout).lines = s.lines := rfl
@[simp] theorem State.noteTimeout_seq : (s.noteTimeout).seq = s.seq := rfl
@[simp] theorem State.noteTimeout_busyCnt : (s.noteTimeout).busyCnt = s.busyCnt := rfl
@[simp] theorem State.noteTimeout_opbto : (s.noteTimeout).opbto = true := rfl
@[simp] theorem State.noteTimeout_trace : (s.noteTimeout).trace = s.trace := rfl
@[simp] theorem State.noteTimeout_resetN : (s.noteTimeout).resetN = s.resetN := rfl
@[simp] theorem State.noteTimeout_before : (s.noteTimeout).before = s.before := rfl
@[simp] theorem State.noteTimeout_beforeLoadCnt : (s.noteTimeout).beforeLoadCnt = s.beforeLoadCnt := rfl
@[simp] theorem State.noteTimeout_env : (s.noteTimeout).env = s.env := rfl
@[simp] theorem State.noteTimeout_inbox : (s.noteTimeout).inbox = s.inbox := rfl
@[simp] theorem State.noteTimeout_replies : (s.noteTimeout).replies = s.replies := rfl

/-! ### accept -/

@[simp] theorem State.accept_cfg (w : Word) : (s.accept w).cfg = s.cfg := rfl
@[simp] theorem State.accept_fb (w : Word) : (s.accept w).fb = s.fb := rfl
@[simp] theorem State.accept_pb (w : Word) : (s.accept w).pb = s.pb := rfl
@[simp] theorem State.accept_stage (w : Word) : (s.accept w).stage = s.stage := rfl
@[simp] theorem State.accept_pbValid (w : Word) : (s.accept w).pbValid = s.pbValid := rfl
@[simp] theorem State.accept_loadAct (w : Word) : (s.accept w).loadAct = s.loadAct := rfl
@[simp] theorem State.accept_loadCnt (w : Word) : (s.accept w).loadCnt = s.loadCnt := rfl
@[simp] theorem State.accept_args (w : Word) : (s.accept w).args = s.args := rfl
@[simp] theorem State.accept_largs (w : Word) : (s.accept w).largs = s.args := rfl
@[simp] theorem State.accept_cur (w : Word) : (s.accept w).cur = w := rfl
@[simp] theorem State.accept_sticky (w : Word) : (s.accept w).sticky = s.sticky := rfl
@[simp] theorem State.accept_result (w : Word) : (s.accept w).result = s.result := rfl
@[simp] theorem State.accept_image (w : Word) : (s.accept w).image = s.image := rfl
@[simp] theorem State.accept_pipeAct (w : Word) : (s.accept w).pipeAct = s.pipeAct := rfl
@[simp] theorem State.accept_pstate (w : Word) : (s.accept w).pstate = s.pstate := rfl
@[simp] theorem State.accept_init (w : Word) : (s.accept w).init = s.init := rfl
@[simp] theorem State.accept_released (w : Word) : (s.accept w).released = s.released := rfl
@[simp] theorem State.accept_lines (w : Word) : (s.accept w).lines = s.lines := rfl
@[simp] theorem State.accept_seq (w : Word) : (s.accept w).seq = .accepted := rfl
@[simp] theorem State.accept_busyCnt (w : Word) : (s.accept w).busyCnt = s.busyCnt := rfl
@[simp] theorem State.accept_opbto (w : Word) : (s.accept w).opbto = false := rfl
@[simp] theorem State.accept_trace (w : Word) : (s.accept w).trace = s.trace := rfl
@[simp] theorem State.accept_resetN (w : Word) : (s.accept w).resetN = s.resetN := rfl
@[simp] theorem State.accept_before (w : Word) : (s.accept w).before = s.image := rfl
@[simp] theorem State.accept_beforeLoadCnt (w : Word) : (s.accept w).beforeLoadCnt = s.loadCnt := rfl
@[simp] theorem State.accept_env (w : Word) : (s.accept w).env = s.env := rfl
@[simp] theorem State.accept_inbox (w : Word) : (s.accept w).inbox = s.inbox := rfl
@[simp] theorem State.accept_replies (w : Word) : (s.accept w).replies = s.replies := rfl

/-! ### complete -/

@[simp] theorem State.complete_cfg (c : ResultCode) : (s.complete c).cfg = s.cfg := rfl
@[simp] theorem State.complete_fb (c : ResultCode) : (s.complete c).fb = s.fb := rfl
@[simp] theorem State.complete_pb (c : ResultCode) : (s.complete c).pb = s.pb := rfl
@[simp] theorem State.complete_stage (c : ResultCode) : (s.complete c).stage = s.stage := rfl
@[simp] theorem State.complete_pbValid (c : ResultCode) : (s.complete c).pbValid = s.pbValid := rfl
@[simp] theorem State.complete_loadAct (c : ResultCode) : (s.complete c).loadAct = s.loadAct := rfl
@[simp] theorem State.complete_loadCnt (c : ResultCode) : (s.complete c).loadCnt = s.loadCnt := rfl
@[simp] theorem State.complete_args (c : ResultCode) : (s.complete c).args = s.args := rfl
@[simp] theorem State.complete_largs (c : ResultCode) : (s.complete c).largs = s.largs := rfl
@[simp] theorem State.complete_cur (c : ResultCode) : (s.complete c).cur = s.cur := rfl
@[simp] theorem State.complete_sticky (c : ResultCode) : (s.complete c).sticky = s.sticky := rfl
@[simp] theorem State.complete_result (c : ResultCode) : (s.complete c).result = ⟨c, s.opbto, s.cur.setWidth 8⟩ := rfl
@[simp] theorem State.complete_image (c : ResultCode) : (s.complete c).image = s.image := rfl
@[simp] theorem State.complete_pipeAct (c : ResultCode) : (s.complete c).pipeAct = s.pipeAct := rfl
@[simp] theorem State.complete_pstate (c : ResultCode) : (s.complete c).pstate = s.pstate := rfl
@[simp] theorem State.complete_init (c : ResultCode) : (s.complete c).init = s.init := rfl
@[simp] theorem State.complete_released (c : ResultCode) : (s.complete c).released = s.released := rfl
@[simp] theorem State.complete_lines (c : ResultCode) : (s.complete c).lines = s.lines := rfl
@[simp] theorem State.complete_seq (c : ResultCode) : (s.complete c).seq = .idle := rfl
@[simp] theorem State.complete_busyCnt (c : ResultCode) : (s.complete c).busyCnt = s.busyCnt := rfl
@[simp] theorem State.complete_opbto (c : ResultCode) : (s.complete c).opbto = s.opbto := rfl
@[simp] theorem State.complete_trace (c : ResultCode) : (s.complete c).trace = s.trace := rfl
@[simp] theorem State.complete_resetN (c : ResultCode) : (s.complete c).resetN = s.resetN := rfl
@[simp] theorem State.complete_before (c : ResultCode) : (s.complete c).before = s.before := rfl
@[simp] theorem State.complete_beforeLoadCnt (c : ResultCode) : (s.complete c).beforeLoadCnt = s.beforeLoadCnt := rfl
@[simp] theorem State.complete_env (c : ResultCode) : (s.complete c).env = s.env := rfl
@[simp] theorem State.complete_inbox (c : ResultCode) : (s.complete c).inbox = s.inbox := rfl
@[simp] theorem State.complete_replies (c : ResultCode) : (s.complete c).replies = s.replies := rfl

/-! ### setLevel -/

@[simp] theorem State.setLevel_cfg (l : Line) (v : Bool) : (s.setLevel l v).cfg = s.cfg := by cases l <;> rfl
@[simp] theorem State.setLevel_fb (l : Line) (v : Bool) : (s.setLevel l v).fb = s.fb := by cases l <;> rfl
@[simp] theorem State.setLevel_pb (l : Line) (v : Bool) : (s.setLevel l v).pb = s.pb := by cases l <;> rfl
@[simp] theorem State.setLevel_stage (l : Line) (v : Bool) : (s.setLevel l v).stage = s.stage := by cases l <;> rfl
@[simp] theorem State.setLevel_pbValid (l : Line) (v : Bool) : (s.setLevel l v).pbValid = s.pbValid := by cases l <;> rfl
@[simp] theorem State.setLevel_loadAct (l : Line) (v : Bool) : (s.setLevel l v).loadAct = s.loadAct := by cases l <;> rfl
@[simp] theorem State.setLevel_loadCnt (l : Line) (v : Bool) : (s.setLevel l v).loadCnt = s.loadCnt := by cases l <;> rfl
@[simp] theorem State.setLevel_args (l : Line) (v : Bool) : (s.setLevel l v).args = s.args := by cases l <;> rfl
@[simp] theorem State.setLevel_largs (l : Line) (v : Bool) : (s.setLevel l v).largs = s.largs := by cases l <;> rfl
@[simp] theorem State.setLevel_cur (l : Line) (v : Bool) : (s.setLevel l v).cur = s.cur := by cases l <;> rfl
@[simp] theorem State.setLevel_sticky (l : Line) (v : Bool) : (s.setLevel l v).sticky = s.sticky := by cases l <;> rfl
@[simp] theorem State.setLevel_result (l : Line) (v : Bool) : (s.setLevel l v).result = s.result := by cases l <;> rfl
@[simp] theorem State.setLevel_image (l : Line) (v : Bool) : (s.setLevel l v).image = s.image := by cases l <;> rfl
@[simp] theorem State.setLevel_pipeAct (l : Line) (v : Bool) : (s.setLevel l v).pipeAct = s.pipeAct := by cases l <;> rfl
@[simp] theorem State.setLevel_pstate (l : Line) (v : Bool) : (s.setLevel l v).pstate = s.pstate := by cases l <;> rfl
@[simp] theorem State.setLevel_init (l : Line) (v : Bool) : (s.setLevel l v).init = s.init := by cases l <;> rfl
@[simp] theorem State.setLevel_released (l : Line) (v : Bool) : (s.setLevel l v).released = s.released := by cases l <;> rfl
@[simp] theorem State.setLevel_seq (l : Line) (v : Bool) : (s.setLevel l v).seq = s.seq := by cases l <;> rfl
@[simp] theorem State.setLevel_busyCnt (l : Line) (v : Bool) : (s.setLevel l v).busyCnt = s.busyCnt := by cases l <;> rfl
@[simp] theorem State.setLevel_opbto (l : Line) (v : Bool) : (s.setLevel l v).opbto = s.opbto := by cases l <;> rfl
@[simp] theorem State.setLevel_trace (l : Line) (v : Bool) : (s.setLevel l v).trace = s.trace := by cases l <;> rfl
@[simp] theorem State.setLevel_resetN (l : Line) (v : Bool) : (s.setLevel l v).resetN = s.resetN := by cases l <;> rfl
@[simp] theorem State.setLevel_before (l : Line) (v : Bool) : (s.setLevel l v).before = s.before := by cases l <;> rfl
@[simp] theorem State.setLevel_beforeLoadCnt (l : Line) (v : Bool) : (s.setLevel l v).beforeLoadCnt = s.beforeLoadCnt := by cases l <;> rfl
@[simp] theorem State.setLevel_env (l : Line) (v : Bool) : (s.setLevel l v).env = s.env := by cases l <;> rfl
@[simp] theorem State.setLevel_inbox (l : Line) (v : Bool) : (s.setLevel l v).inbox = s.inbox := by cases l <;> rfl
@[simp] theorem State.setLevel_replies (l : Line) (v : Bool) : (s.setLevel l v).replies = s.replies := by cases l <;> rfl

/-! ### driveCs -/

@[simp] theorem State.driveCs_cfg (v : Bool) : (s.driveCs v).cfg = s.cfg := by unfold State.driveCs; split <;> rfl
@[simp] theorem State.driveCs_fb (v : Bool) : (s.driveCs v).fb = s.fb := by unfold State.driveCs; split <;> rfl
@[simp] theorem State.driveCs_pb (v : Bool) : (s.driveCs v).pb = s.pb := by unfold State.driveCs; split <;> rfl
@[simp] theorem State.driveCs_stage (v : Bool) : (s.driveCs v).stage = s.stage := by unfold State.driveCs; split <;> rfl
@[simp] theorem State.driveCs_pbValid (v : Bool) : (s.driveCs v).pbValid = s.pbValid := by unfold State.driveCs; split <;> rfl
@[simp] theorem State.driveCs_loadAct (v : Bool) : (s.driveCs v).loadAct = s.loadAct := by unfold State.driveCs; split <;> rfl
@[simp] theorem State.driveCs_loadCnt (v : Bool) : (s.driveCs v).loadCnt = s.loadCnt := by unfold State.driveCs; split <;> rfl
@[simp] theorem State.driveCs_args (v : Bool) : (s.driveCs v).args = s.args := by unfold State.driveCs; split <;> rfl
@[simp] theorem State.driveCs_largs (v : Bool) : (s.driveCs v).largs = s.largs := by unfold State.driveCs; split <;> rfl
@[simp] theorem State.driveCs_cur (v : Bool) : (s.driveCs v).cur = s.cur := by unfold State.driveCs; split <;> rfl
@[simp] theorem State.driveCs_sticky (v : Bool) : (s.driveCs v).sticky = s.sticky := by unfold State.driveCs; split <;> rfl
@[simp] theorem State.driveCs_result (v : Bool) : (s.driveCs v).result = s.result := by unfold State.driveCs; split <;> rfl
@[simp] theorem State.driveCs_image (v : Bool) : (s.driveCs v).image = s.image := by unfold State.driveCs; split <;> rfl
@[simp] theorem State.driveCs_pipeAct (v : Bool) : (s.driveCs v).pipeAct = s.pipeAct := by unfold State.driveCs; split <;> rfl
@[simp] theorem State.driveCs_pstate (v : Bool) : (s.driveCs v).pstate = s.pstate := by unfold State.driveCs; split <;> rfl
@[simp] theorem State.driveCs_init (v : Bool) : (s.driveCs v).init = s.init := by unfold State.driveCs; split <;> rfl
@[simp] theorem State.driveCs_released (v : Bool) : (s.driveCs v).released = s.released := by unfold State.driveCs; split <;> rfl
@[simp] theorem State.driveCs_seq (v : Bool) : (s.driveCs v).seq = s.seq := by unfold State.driveCs; split <;> rfl
@[simp] theorem State.driveCs_busyCnt (v : Bool) : (s.driveCs v).busyCnt = s.busyCnt := by unfold State.driveCs; split <;> rfl
@[simp] theorem State.driveCs_opbto (v : Bool) : (s.driveCs v).opbto = s.opbto := by unfold State.driveCs; split <;> rfl
@[simp] theorem State.driveCs_trace (v : Bool) : (s.driveCs v).trace = s.trace := by unfold State.driveCs; split <;> rfl
@[simp] theorem State.driveCs_resetN (v : Bool) : (s.driveCs v).resetN = s.resetN := by unfold State.driveCs; split <;> rfl
@[simp] theorem State.driveCs_before (v : Bool) : (s.driveCs v).before = s.before := by unfold State.driveCs; split <;> rfl
@[simp] theorem State.driveCs_beforeLoadCnt (v : Bool) : (s.driveCs v).beforeLoadCnt = s.beforeLoadCnt := by unfold State.driveCs; split <;> rfl
@[simp] theorem State.driveCs_env (v : Bool) : (s.driveCs v).env = s.env := by unfold State.driveCs; split <;> rfl
@[simp] theorem State.driveCs_inbox (v : Bool) : (s.driveCs v).inbox = s.inbox := by unfold State.driveCs; split <;> rfl
@[simp] theorem State.driveCs_replies (v : Bool) : (s.driveCs v).replies = s.replies := by unfold State.driveCs; split <;> rfl

/-! ### abort -/

@[simp] theorem State.abort_cfg : (s.abort).cfg = s.cfg := by simp [State.abort]
@[simp] theorem State.abort_fb : (s.abort).fb = s.fb := by simp [State.abort]
@[simp] theorem State.abort_pb : (s.abort).pb = s.pb := by simp [State.abort]
@[simp] theorem State.abort_stage : (s.abort).stage = s.stage := by simp [State.abort]
@[simp] theorem State.abort_pbValid : (s.abort).pbValid = s.pbValid := by simp [State.abort]
@[simp] theorem State.abort_loadAct : (s.abort).loadAct = s.loadAct := by simp [State.abort]
@[simp] theorem State.abort_loadCnt : (s.abort).loadCnt = s.loadCnt := by simp [State.abort]
@[simp] theorem State.abort_args : (s.abort).args = s.args := by simp [State.abort]
@[simp] theorem State.abort_largs : (s.abort).largs = s.largs := by simp [State.abort]
@[simp] theorem State.abort_cur : (s.abort).cur = s.cur := by simp [State.abort]
@[simp] theorem State.abort_sticky : (s.abort).sticky = s.sticky := by simp [State.abort]
@[simp] theorem State.abort_result : (s.abort).result = s.result := by simp [State.abort]
@[simp] theorem State.abort_image : (s.abort).image = s.image := by simp [State.abort]
@[simp] theorem State.abort_pipeAct : (s.abort).pipeAct = s.pipeAct := by simp [State.abort]
@[simp] theorem State.abort_pstate : (s.abort).pstate = .unpowered := by simp [State.abort]
@[simp] theorem State.abort_init : (s.abort).init = false := by simp [State.abort]
@[simp] theorem State.abort_released : (s.abort).released = s.released := by simp [State.abort]
@[simp] theorem State.abort_seq : (s.abort).seq = s.seq := by simp [State.abort]
@[simp] theorem State.abort_busyCnt : (s.abort).busyCnt = s.busyCnt := by simp [State.abort]
@[simp] theorem State.abort_opbto : (s.abort).opbto = s.opbto := by simp [State.abort]
@[simp] theorem State.abort_trace : (s.abort).trace = s.trace := by simp [State.abort]
@[simp] theorem State.abort_resetN : (s.abort).resetN = s.resetN := by simp [State.abort]
@[simp] theorem State.abort_before : (s.abort).before = s.before := by simp [State.abort]
@[simp] theorem State.abort_beforeLoadCnt : (s.abort).beforeLoadCnt = s.beforeLoadCnt := by simp [State.abort]
@[simp] theorem State.abort_env : (s.abort).env = s.env := by simp [State.abort]
@[simp] theorem State.abort_inbox : (s.abort).inbox = s.inbox := by simp [State.abort]
@[simp] theorem State.abort_replies : (s.abort).replies = s.replies := by simp [State.abort]

/-! ### The lines -/

@[simp] theorem State.setLevel_rstN (v : Bool) : (s.setLevel .rstN v).lines = { s.lines with rstN := v } := rfl
@[simp] theorem State.setLevel_pwrEn (v : Bool) : (s.setLevel .pwrEn v).lines = { s.lines with pwrEn := v } := rfl
@[simp] theorem State.driveCs_rstN (v : Bool) : (s.driveCs v).lines.rstN = s.lines.rstN := by unfold State.driveCs; split <;> rfl
@[simp] theorem State.driveCs_dc (v : Bool) : (s.driveCs v).lines.dc = s.lines.dc := by unfold State.driveCs; split <;> rfl
@[simp] theorem State.driveCs_pwrEn (v : Bool) : (s.driveCs v).lines.pwrEn = s.lines.pwrEn := by unfold State.driveCs; split <;> rfl
theorem State.driveCs_csN (v : Bool) :
    (s.driveCs v).lines.csN = if s.cfg.csMode = .perTransaction then v else s.lines.csN := by
  unfold State.driveCs; split <;> simp_all
@[simp] theorem State.abort_rstN : s.abort.lines.rstN = s.lines.rstN := by simp [State.abort]
@[simp] theorem State.abort_dc : s.abort.lines.dc = s.lines.dc := by simp [State.abort]
@[simp] theorem State.abort_pwrEn : s.abort.lines.pwrEn = s.lines.pwrEn := by simp [State.abort]

/-! ### RUN -/

@[simp] theorem SeqPos.isRunning_idle : SeqPos.idle.isRunning = false := rfl
@[simp] theorem SeqPos.isRunning_accepted : SeqPos.accepted.isRunning = true := rfl
@[simp] theorem SeqPos.isRunning_running (rest : List Micro) : (SeqPos.running rest).isRunning = true := rfl

theorem State.run_def : s.run = s.seq.isRunning := rfl
theorem State.run_eq_false : s.run = false ↔ s.seq = .idle := by
  rw [State.run_def]; cases s.seq <;> simp
theorem State.run_eq_true : s.run = true ↔ s.seq ≠ .idle := by
  rw [State.run_def]; cases s.seq <;> simp

/-! ### The draws -/

theorem Env.answerAt_afterAnswer (e : Env) (j : Nat) : e.afterAnswer.answerAt j = e.answerAt (j + 1) := by
  unfold Env.afterAnswer Env.answerAt
  split <;> simp_all
  grind

theorem Env.busyAt_afterBusy (e : Env) (j : Nat) : e.afterBusy.busyAt j = e.busyAt (j + 1) := by
  unfold Env.afterBusy Env.busyAt
  split <;> simp_all
  grind

@[simp] theorem Env.busyAt_afterAnswer (e : Env) (j : Nat) : e.afterAnswer.busyAt j = e.busyAt j := by
  unfold Env.afterAnswer Env.busyAt
  split <;> rfl

@[simp] theorem Env.answerAt_afterBusy (e : Env) (j : Nat) : e.afterBusy.answerAt j = e.answerAt j := by
  unfold Env.afterBusy Env.answerAt
  split <;> rfl

end Sys2Proof.Machine
end

