-- ==== Sys2Proof/Laws/Bus.lean ====
section
/-! SUPPORT. Laws/Bus.lean: the regions of the host space, the byte lanes of a read, and what an access leaves. -/

namespace Sys2Proof.Machine

/-! ### Regions (R40) -/

theorem regionOf_registers {a : Nat} (h : a < 0x100000) : regionOf a = .registers := by simp [regionOf, h]

theorem regionOf_ne_registers {a : Nat} (h : 0x100000 ≤ a) : regionOf a ≠ .registers := by
  unfold regionOf; rw [if_neg (by omega)]; split <;> [simp; (split <;> simp)]

theorem regionOf_window {a : Nat} (h1 : 0x100000 ≤ a) (h2 : a < 0x300000) : ∃ buf, regionOf a = .window buf := by
  unfold regionOf; rw [if_neg (by omega), if_pos h2]; split <;> exact ⟨_, rfl⟩

theorem regionOf_reserved {a : Nat} (h : 0x300000 ≤ a) : regionOf a = .reserved := by
  unfold regionOf; rw [if_neg (by omega), if_neg (by omega), if_neg (by omega)]

theorem regionOf_windowBase (buf : Source) {i : Nat} (h : i < 0x100000) : regionOf (windowBase buf + i) = .window buf := by
  cases buf <;> simp only [windowBase] <;> unfold regionOf
  · rw [if_neg (by omega), if_pos (by omega)]
  · rw [if_neg (by omega), if_neg (by omega), if_pos (by omega)]

/-! ### Byte lanes (R45) -/

theorem lane_zero (b : Byte) (w : Word) : (b.setWidth 32 ||| w <<< 8).extractLsb' 0 8 = b := by
  ext k hk; interval_cases k <;> simp
theorem lane_succ (b : Byte) (w : Word) (j : Nat) (hj : j < 3) : (b.setWidth 32 ||| w <<< 8).extractLsb' (8 * (j + 1)) 8 = w.extractLsb' (8 * j) 8 := by
  ext k hk; interval_cases j <;> interval_cases k <;> simp
/-- Lane j of the word read holds byte j. -/
theorem leWord_lane (bs : List Byte) (h : bs.length ≤ 4) (j : Nat) (hj : j < 4) : (leWord bs).extractLsb' (8 * j) 8 = bs.getD j 0 := by
  induction bs generalizing j with
  | nil => simp [leWord]
  | cons b r ih =>
    simp only [leWord]
    cases j with
    | zero => simpa using lane_zero b _
    | succ j => rw [lane_succ _ _ _ (by omega), ih (by simp at h; omega) _ (by omega)]; simp

/-! ### What an access leaves -/

/-- R43: a read changes nothing of the block but, where it is illegal, BERR; the draws count what it was given. -/
theorem State.afterRead_eq (a : Nat) (n : AccessSize) (s : State) :
    s.afterRead a n = { s with env := (s.afterRead a n).env, sticky := (s.afterRead a n).sticky } := by
  unfold State.afterRead State.noteBusError; split <;> rfl

/-- An illegal write sets BERR and nothing else. -/
theorem State.afterWrite_illegal {a : Nat} {n : AccessSize} {s : State} (h : legalWrite a n = false) (v : Word) :
    s.afterWrite a n v = s.noteBusError := by simp [State.afterWrite, h]

/-- What a legal write can do: issue a command, clear sticky bits, write an argument register, or nothing. -/
theorem State.afterWrite_legal {a : Nat} {n : AccessSize} {s : State} (h : legalWrite a n = true) (v : Word) :
    (a = 0x00 ∧ s.afterWrite a n v = s.issue v) ∨ (a = 0x0C ∧ s.afterWrite a n v = s.clearSticky v) ∨
      (∃ k : Fin 4, a = 0x10 + 4 * k.val ∧ s.afterWrite a n v = s.writeArg k v) ∨ s.afterWrite a n v = s := by
  simp only [State.afterWrite, h, if_true]
  split
  · unfold State.registerWrite
    split
    · exact .inl ⟨rfl, rfl⟩
    · exact .inr (.inl ⟨rfl, rfl⟩)
    · exact .inr (.inr (.inl ⟨0, rfl, rfl⟩))
    · exact .inr (.inr (.inl ⟨1, rfl, rfl⟩))
    · exact .inr (.inr (.inl ⟨2, rfl, rfl⟩))
    · exact .inr (.inr (.inl ⟨3, rfl, rfl⟩))
    · exact .inr (.inr (.inr rfl))
  · exact .inr (.inr (.inr rfl))
  · exact .inr (.inr (.inr rfl))

end Sys2Proof.Machine
end

