-- ==== Sys2Proof/Laws/Sequencer.lean ====
section
/-! SUPPORT. Laws/Sequencer.lean: what one line of a rule can do, how a rule's run follows its lines, and how to carry a
property along a run. -/

namespace Sys2Proof.Machine

/-- The state a line leaves. -/
def Flow.state : Flow → State
  | .go t => t
  | .again _ t => t
  | .stop _ t => t

/-! ### The outcomes of the serializer's primitives -/

theorem onAnswer_ok {s after : State} {k : State → Flow} (h : s.nextAnswer = true) : onAnswer s after k = k after := by
  simp [onAnswer, h]

theorem onAnswer_fail {s after : State} {k : State → Flow} (h : s.nextAnswer = false) :
    onAnswer s after k = .stop .transportError after.abort := by
  simp [onAnswer, h]

/-! ### Fuel

A line taken up again needs one turn less, so `lineRun` never runs out and the fuel can be forgotten. -/

theorem microFuel_again {op op' : Micro} {s t : State} (h : microStep op s = .again op' t) :
    microFuel op s = microFuel op' t + 1 := by
  cases op with
  | sendData bs =>
    cases bs with
    | nil => simp [microStep] at h
    | cons b rest =>
      simp only [microStep, dataStep, onAnswer] at h
      split at h <;> [skip; simp at h]
      split at h
      · simp at h
      · simp only [Flow.again.injEq] at h; obtain ⟨rfl, rfl⟩ := h; rfl
  | poll =>
    simp only [microStep, pollStep, onAnswer] at h
    split at h <;> [skip; simp at h]
    split at h
    · simp at h
    · split at h
      · simp at h
      · rename_i hc
        simp only [Flow.again.injEq] at h; obtain ⟨rfl, rfl⟩ := h
        simp only [microFuel, State.record_cfg, State.record_busyCnt, State.sample_cfg, State.sample_busyCnt] at hc ⊢
        omega
  | busyWait => simp only [microStep, Flow.again.injEq] at h; obtain ⟨rfl, rfl⟩ := h; rfl
  | cutPower => simp only [microStep, Flow.again.injEq] at h; obtain ⟨rfl, rfl⟩ := h; rfl
  | endSession a => simp only [microStep, Flow.again.injEq] at h; obtain ⟨rfl, rfl⟩ := h; rfl
  | releaseHandles a => simp only [microStep, Flow.again.injEq] at h; obtain ⟨rfl, rfl⟩ := h; rfl
  | closeImage =>
    simp only [microStep, closeStep] at h
    split at h
    · simp only [Flow.again.injEq] at h; obtain ⟨rfl, rfl⟩ := h; rfl
    · simp at h
  | _ =>
    simp only [microStep, guardLine, lineStep, commandStep, onAnswer] at h
    first
      | (simp at h; done)
      | (split at h <;> simp at h)

/-- The run of a rule goes line by line. -/
theorem runLines_cons (op : Micro) (rest : List Micro) (s : State) :
    runLines (op :: rest) s =
      match microStep op s with
      | .go t => runLines rest t
      | .again op' t => runLines (op' :: rest) t
      | .stop code t => t.complete code := by
  rw [runLines]
  cases h : microStep op s with
  | go t => cases hf : microFuel op s <;> simp [lineRun, h]
  | stop code t => cases hf : microFuel op s <;> simp [lineRun, h]
  | again op' t => simp only [microFuel_again h, lineRun, h, runLines]

@[simp] theorem runLines_nil (s : State) : runLines [] s = s.complete .ok := rfl

theorem runLines_go {op : Micro} {s t : State} (h : microStep op s = .go t) (rest : List Micro) :
    runLines (op :: rest) s = runLines rest t := by
  rw [runLines_cons, h]

theorem runLines_again {op op' : Micro} {s t : State} (h : microStep op s = .again op' t) (rest : List Micro) :
    runLines (op :: rest) s = runLines (op' :: rest) t := by
  rw [runLines_cons, h]

theorem runLines_stop {op : Micro} {s t : State} {code : ResultCode} (h : microStep op s = .stop code t)
    (rest : List Micro) : runLines (op :: rest) s = t.complete code := by
  rw [runLines_cons, h]

/-- Both assignments of R87's last line together. -/
theorem runLines_closeImage (rest : List Micro) (s : State) :
    runLines (.closeImage :: rest) s =
      runLines rest (if s.image.cnt.toNat = s.image.tw.toNat * s.image.th.toNat
        then { s with pipeAct := false, pbValid := true } else s) := by
  by_cases h : s.image.cnt.toNat = s.image.tw.toNat * s.image.th.toNat
  · rw [runLines_again (op' := .setPbValid true) (t := { s with pipeAct := false }) (by simp [microStep, closeStep, h]),
      runLines_go rfl, if_pos h]
  · rw [runLines_go (t := s) (by simp [microStep, closeStep, h]), if_neg h]

/-! ### A property carried along a run -/

/-- Induction along a run: what holds of no lines, and of a line and its rest wherever it holds of what is left after one step,
holds of every list of lines at every state. -/
theorem runLines_induct {motive : List Micro → State → Prop} (nil : ∀ s, motive [] s)
    (cons : ∀ op rest s, (∀ t, microStep op s = .go t → motive rest t) →
      (∀ op' t, microStep op s = .again op' t → motive (op' :: rest) t) → motive (op :: rest) s) :
    ∀ lines s, motive lines s := by
  intro lines
  induction lines with
  | nil => exact nil
  | cons op rest ih =>
    intro s
    generalize hk : microFuel op s = k
    induction k generalizing op s with
    | zero => exact cons op rest s (fun t _ => ih t) fun op' t h => by have := microFuel_again h; omega
    | succ k ih' => exact cons op rest s (fun t _ => ih t) fun op' t h => ih' op' t (by have := microFuel_again h; omega)


theorem lineRun_preserves {P : Micro → Prop} {Q : State → Prop}
    (hstep : ∀ op s, P op → Q s → Q (microStep op s).state ∧ ∀ op' t, microStep op s = .again op' t → P op')
    (fuel : Nat) {op : Micro} {s : State} (hp : P op) (hq : Q s) : Q (lineRun fuel op s).state := by
  induction fuel generalizing op s with
  | zero => exact (hstep op s hp hq).1
  | succ k ih =>
    have := hstep op s hp hq
    cases h : microStep op s with
    | go t => simpa [lineRun, h, Flow.state] using this.1
    | stop c t => simpa [lineRun, h, Flow.state] using this.1
    | again op' t =>
      simp only [lineRun, h]
      exact ih (this.2 _ _ h) (by simpa [h, Flow.state] using this.1)

/-- A property that every line of the rule keeps holds where the command completes. -/
theorem runLines_preserves {P : Micro → Prop} {Q : State → Prop}
    (hstep : ∀ op s, P op → Q s → Q (microStep op s).state ∧ ∀ op' t, microStep op s = .again op' t → P op')
    {lines : List Micro} {s : State} (hp : ∀ op ∈ lines, P op) (hq : Q s) :
    ∃ code t, runLines lines s = t.complete code ∧ Q t := by
  induction lines generalizing s with
  | nil => exact ⟨.ok, s, rfl, hq⟩
  | cons op rest ih =>
    have h1 := lineRun_preserves hstep (microFuel op s) (hp op (by simp)) hq
    have ih' := fun {t : State} (ht : Q t) => ih (s := t) (fun o ho => hp o (by simp [ho])) ht
    rw [runLines]
    cases h : lineRun (microFuel op s) op s with
    | go t => exact ih' (by simpa [h, Flow.state] using h1)
    | again op' t => exact ih' (by simpa [h, Flow.state] using h1)
    | stop code t => exact ⟨code, t, rfl, by simpa [h, Flow.state] using h1⟩

/-! ### What no line does -/

/-- What every line of every rule leaves as it is. -/
structure SameHost (s t : State) : Prop where
  cfg : t.cfg = s.cfg
  args : t.args = s.args
  largs : t.largs = s.largs
  cur : t.cur = s.cur
  result : t.result = s.result
  seq : t.seq = s.seq
  resetN : t.resetN = s.resetN
  before : t.before = s.before
  beforeLoadCnt : t.beforeLoadCnt = s.beforeLoadCnt
  inbox : t.inbox = s.inbox
  replies : t.replies = s.replies

theorem SameHost.refl (s : State) : SameHost s s := ⟨rfl, rfl, rfl, rfl, rfl, rfl, rfl, rfl, rfl, rfl, rfl⟩

theorem SameHost.trans {s t u : State} (h : SameHost s t) (k : SameHost t u) : SameHost s u :=
  ⟨k.cfg.trans h.cfg, k.args.trans h.args, k.largs.trans h.largs, k.cur.trans h.cur, k.result.trans h.result,
    k.seq.trans h.seq, k.resetN.trans h.resetN, k.before.trans h.before, k.beforeLoadCnt.trans h.beforeLoadCnt,
    k.inbox.trans h.inbox, k.replies.trans h.replies⟩

/-- No line touches the configuration, a host register, the latches, RESULT or the host's side. -/
theorem microStep_sameHost (op : Micro) (s : State) : SameHost s (microStep op s).state := by
  cases op with
  | sendData bs =>
    cases bs with
    | nil => exact SameHost.refl s
    | cons b rest =>
      simp only [microStep, dataStep, onAnswer]
      split
      · split <;> constructor <;> simp [Flow.state]
      · constructor <;> simp [Flow.state]
  | _ =>
    simp only [microStep, guardLine, lineStep, commandStep, pollStep, onAnswer, State.stageByte, State.countByte,
      State.scale, State.center, State.packPixel, closeStep]
    (repeat' split) <;> constructor <;> simp [Flow.state]

theorem runLines_sameHost (lines : List Micro) (s : State) :
    ∃ code t, runLines lines s = t.complete code ∧ SameHost s t :=
  runLines_preserves (P := fun _ => True) (fun op t _ h => ⟨h.trans (microStep_sameHost op t), fun _ _ _ => trivial⟩)
    (fun _ _ => trivial) (SameHost.refl s)

end Sys2Proof.Machine
end

