-- ==== Sys2Proof/Laws/Interleave.lean ====
section
/-! SUPPORT. Laws/Interleave.lean: a rule's lines read neither the argument registers nor the sequencer's position, so host
writes between them do not change what they do (R22, R49). -/

namespace Sys2Proof.Machine

/-- A line's outcome with its state changed. -/
def Flow.map (f : State → State) : Flow → Flow
  | .go t => .go (f t)
  | .again op t => .again op (f t)
  | .stop c t => .stop c (f t)

/-- The state with the argument registers and the sequencer's position replaced. -/
def State.relabel (a : Args) (q : SeqPos) (s : State) : State := { s with args := a, seq := q }

theorem State.driveCs_relabel (v : Bool) (a : Args) (q : SeqPos) (s : State) :
    (s.relabel a q).driveCs v = (s.driveCs v).relabel a q := by
  unfold State.driveCs State.relabel; dsimp only; split <;> rfl

theorem guardLine_relabel (b : Bool) (c : ResultCode) (a : Args) (q : SeqPos) (s : State) :
    guardLine b c (s.relabel a q) = (guardLine b c s).map (State.relabel a q) := by
  cases b <;> rfl

/-- A line's effect depends on neither the argument registers nor the position. -/
theorem microStep_relabel (op : Micro) (a : Args) (q : SeqPos) (s : State) :
    microStep op (s.relabel a q) = (microStep op s).map (State.relabel a q) := by
  have hd := fun (v : Bool) (s : State) => State.driveCs_relabel v a q s
  cases op with
  | sendData bs =>
    cases bs with
    | nil => rfl
    | cons b rest =>
      simp only [microStep, dataStep, onAnswer]
      have e : (s.relabel a q).nextAnswer = s.nextAnswer := rfl
      have e1 : (s.relabel a q).setDc true = (s.setDc true).relabel a q := rfl
      rw [e, e1, hd]
      have e2 : State.emit (.data b) (State.relabel a q ((s.setDc true).driveCs false)) = State.relabel a q (State.emit (.data b) ((s.setDc true).driveCs false)) := rfl
      rw [e2]
      split
      · split
        · rw [hd]; rfl
        · rfl
      · unfold State.abort
        simp only [Flow.map]
        rw [← hd]; rfl
  | sendCommand b =>
    simp only [microStep, commandStep, onAnswer]
    have e : (s.relabel a q).nextAnswer = s.nextAnswer := rfl
    rw [e]
    split
    · simp only [Flow.map]; rw [← hd]; rfl
    · unfold State.abort
      simp only [Flow.map]
      rw [← hd]; rfl
  | setLine l v =>
    simp only [microStep, lineStep, onAnswer]
    have e : (s.relabel a q).nextAnswer = s.nextAnswer := rfl
    rw [e]
    split
    · cases l <;> rfl
    · unfold State.abort
      simp only [Flow.map]
      rw [← hd]; rfl
  | poll =>
    simp only [microStep, pollStep, onAnswer]
    have e : (s.relabel a q).nextAnswer = s.nextAnswer := rfl
    have e2 : (s.relabel a q).nextBusy = s.nextBusy := rfl
    have e3 : (s.relabel a q).sample = s.sample.relabel a q := rfl
    rw [e, e2, e3]
    split
    · split
      · rfl
      · by_cases h : s.sample.cfg.busyPollCap ≤ s.sample.busyCnt + 1 <;>
          simp only [State.relabel, h, if_true, if_false] <;> rfl
    · unfold State.abort
      simp only [Flow.map]
      rw [← hd]; rfl
  | stageByte imm =>
    simp only [microStep, State.stageByte]
    by_cases h : s.loadCnt.toNat < s.cfg.size <;> simp only [State.relabel, h, if_true, if_false] <;> rfl
  | countByte =>
    simp only [microStep, State.countByte]
    by_cases h : s.loadCnt.toNat ≤ s.cfg.size <;> simp only [State.relabel, h, if_true, if_false] <;> rfl
  | packPixel g =>
    simp only [microStep, State.packPixel]
    by_cases h : isBlack g = true <;> simp only [State.relabel, h, if_true] <;> rfl
  | closeImage =>
    simp only [microStep, closeStep]
    by_cases h : s.image.cnt.toNat = s.image.tw.toNat * s.image.th.toNat <;> simp only [State.relabel, h, if_true, if_false] <;> rfl
  | finishIfReleased =>
    have e : (s.relabel a q).released = s.released := rfl
    simp only [microStep, e]; split <;> rfl
  | needHandles => exact guardLine_relabel s.released _ a q s
  | needInit => exact guardLine_relabel (!s.init) _ a q s
  | needImage => exact guardLine_relabel (!s.pbValid) _ a q s
  | needLoad => exact guardLine_relabel (!s.loadAct) _ a q s
  | needFullLoad => exact guardLine_relabel (s.loadCnt.toNat != s.cfg.size) _ a q s
  | needStream => exact guardLine_relabel (!s.pipeAct) _ a q s
  | needPixels => exact guardLine_relabel (s.image.tw == 0 || s.image.th == 0) _ a q s
  | reportAnswer b => exact guardLine_relabel (!b) _ a q s
  | _ => rfl

theorem microFuel_relabel (op : Micro) (a : Args) (q : SeqPos) (s : State) : microFuel op (s.relabel a q) = microFuel op s := by
  cases op <;> rfl

theorem lineRun_relabel (k : Nat) (op : Micro) (a : Args) (q : SeqPos) (s : State) :
    lineRun k op (s.relabel a q) = (lineRun k op s).map (State.relabel a q) := by
  induction k generalizing op s with
  | zero => exact microStep_relabel op a q s
  | succ k ih =>
    simp only [lineRun, microStep_relabel]
    cases microStep op s with
    | go t => rfl
    | again op' t => exact ih op' t
    | stop c t => rfl

/-- A rule's run leaves a changed argument register changed and is otherwise the same run (R22). -/
theorem runLines_relabel (lines : List Micro) (a : Args) (q : SeqPos) (s : State) :
    runLines lines (s.relabel a q) = { runLines lines s with args := a } := by
  induction lines generalizing s with
  | nil => rfl
  | cons op rest ih =>
    rw [runLines, runLines, microFuel_relabel, lineRun_relabel]
    cases lineRun (microFuel op s) op s with
    | go t => exact ih t
    | again op' t => exact ih t
    | stop c t => rfl

/-- A rule's run does not depend on the position it starts from. -/
theorem runLines_seq (lines : List Micro) (q : SeqPos) (s : State) : runLines lines { s with seq := q } = runLines lines s := by
  have h := runLines_relabel lines s.args q s
  obtain ⟨c, t, e, hs⟩ := runLines_sameHost lines s
  rw [State.relabel] at h
  refine h.trans ?_
  rw [e, ← hs.args]; rfl

end Sys2Proof.Machine
end

