-- ==== Sys2Proof/Laws/Memory.lean ====
section
/-! SUPPORT. Laws/Memory.lean: reads after writes of a buffer, and that every buffer operation keeps the canonical form. -/

namespace Sys2Proof.Machine

/-! ### Cells -/

theorem Cells.get_put (m : Memory) (i j : Nat) (v : Byte) :
    Cells.get (Cells.put m i v) j = if i = j then some v else Cells.get m j := by
  induction m with
  | nil => simp [Cells.put, Cells.get]
  | cons c rest ih =>
    obtain ⟨k, u⟩ := c
    simp only [Cells.put]
    split
    · simp [Cells.get]
    · split
      · rename_i h; subst h; simp only [Cells.get]; split <;> rfl
      · simp only [Cells.get, ih]; grind

theorem Cells.get_del (m : Memory) (i j : Nat) :
    Cells.get (Cells.del m i) j = if i = j then none else Cells.get m j := by
  unfold Cells.del
  induction m with
  | nil => simp [Cells.get]
  | cons c rest ih =>
    obtain ⟨k, u⟩ := c
    by_cases h : k = i
    · subst h; simp [ih, Cells.get]; grind
    · simp [h, Cells.get, ih]; grind

theorem Cells.mem_put {m : Memory} {i : Nat} {v : Byte} {c : Host.Cell} (h : c ∈ Cells.put m i v) :
    c = (i, v) ∨ c ∈ m := by
  induction m with
  | nil => simpa [Cells.put] using h
  | cons d rest ih =>
    obtain ⟨k, u⟩ := d
    simp only [Cells.put] at h
    split at h
    · simpa using h
    · split at h
      · rcases List.mem_cons.1 h with h | h
        · exact .inl h
        · exact .inr (List.mem_cons_of_mem _ h)
      · rcases List.mem_cons.1 h with h | h
        · exact .inr (h ▸ List.mem_cons_self ..)
        · exact (ih h).imp id (List.mem_cons_of_mem _)

theorem Cells.rising_put {m : Memory} (h : Cells.Rising m) (i : Nat) (v : Byte) : Cells.Rising (Cells.put m i v) := by
  induction m with
  | nil => simp [Cells.put, Cells.Rising]
  | cons d rest ih =>
    obtain ⟨k, u⟩ := d
    rw [Cells.Rising, List.pairwise_cons] at h
    simp only [Cells.put]
    split
    · rename_i hik
      refine List.pairwise_cons.2 ⟨?_, List.pairwise_cons.2 h⟩
      intro c hc
      rcases List.mem_cons.1 hc with hc | hc
      · exact hc ▸ hik
      · exact Nat.lt_trans hik (h.1 c hc)
    · split
      · rename_i hik; subst hik; exact List.pairwise_cons.2 h
      · refine List.pairwise_cons.2 ⟨?_, ih h.2⟩
        intro c hc
        rcases Cells.mem_put hc with hc | hc
        · subst hc; simp only; omega
        · exact h.1 c hc

theorem Cells.rising_del {m : Memory} (h : Cells.Rising m) (i : Nat) : Cells.Rising (Cells.del m i) :=
  List.Pairwise.filter _ h

theorem Cells.get_eq_none_of_lt {m : Memory} {i : Nat} (h : ∀ c ∈ m, i < c.1) : Cells.get m i = none := by
  induction m with
  | nil => rfl
  | cons d rest ih =>
    have := h d (by simp)
    simp only [Cells.get]
    rw [if_neg (by omega), ih fun c hc => h c (List.mem_cons_of_mem _ hc)]

/-- A listed cell is what its index reads as. -/
theorem Cells.get_of_mem {m : Memory} (h : Cells.Rising m) {c : Host.Cell} (hc : c ∈ m) : Cells.get m c.1 = some c.2 := by
  induction m with
  | nil => simp at hc
  | cons d rest ih =>
    rw [Cells.Rising, List.pairwise_cons] at h
    rcases List.mem_cons.1 hc with hc | hc
    · subst hc; simp [Cells.get]
    · have := h.1 c hc
      simp only [Cells.get]
      rw [if_neg (by omega), ih h.2 hc]

theorem Cells.mem_of_get {m : Memory} {i : Nat} {v : Byte} (h : Cells.get m i = some v) : (i, v) ∈ m := by
  induction m with
  | nil => simp [Cells.get] at h
  | cons d rest ih =>
    obtain ⟨k, u⟩ := d
    simp only [Cells.get] at h
    split at h
    · simp_all
    · exact List.mem_cons_of_mem _ (ih h)

/-! ### Reads and writes of a buffer -/

@[simp] theorem Memory.read_nil (i : Nat) : Memory.read [] i = Memory.unlisted := rfl

/-- Read after write. -/
theorem Memory.read_write (m : Memory) (i j : Nat) (v : Byte) :
    (Memory.write m i v).read j = if i = j then v else Memory.read m j := by
  unfold Memory.write Memory.read
  split
  · rename_i h; rw [Cells.get_del]; split <;> simp [h]
  · rw [Cells.get_put]; split <;> simp

theorem Memory.wf_nil : Memory.wf [] := by simp [Memory.wf, Cells.Rising]

/-- A write keeps the canonical form. -/
theorem Memory.wf_write {m : Memory} (h : Memory.wf m) (i : Nat) (v : Byte) : Memory.wf (Memory.write m i v) := by
  unfold Memory.write
  split
  · exact ⟨Cells.rising_del h.1 i, fun c hc => h.2 c (List.mem_of_mem_filter hc)⟩
  · rename_i hv
    refine ⟨Cells.rising_put h.1 i v, fun c hc => ?_⟩
    rcases Cells.mem_put hc with hc | hc
    · exact hc ▸ hv
    · exact h.2 c hc

theorem Memory.within_put {n : Nat} {m : Memory} (h : Memory.Within n m) {i : Nat} (hi : i < n) (v : Byte) :
    Memory.Within n (Cells.put m i v) := by
  intro c hc
  rcases Cells.mem_put hc with hc | hc
  · exact hc ▸ hi
  · exact h c hc

/-- A write below `n` keeps the buffer within `n` bytes. -/
theorem Memory.within_write {n : Nat} {m : Memory} (h : Memory.Within n m) {i : Nat} (hi : i < n) (v : Byte) :
    Memory.Within n (Memory.write m i v) := by
  unfold Memory.write
  split
  · exact fun c hc => h c (List.mem_of_mem_filter hc)
  · exact Memory.within_put h hi v

/-- Past its length a buffer reads as unlisted. -/
theorem Memory.read_of_within {n : Nat} {m : Memory} (h : Memory.Within n m) {i : Nat} (hi : n ≤ i) :
    Memory.read m i = Memory.unlisted := by
  unfold Memory.read
  cases hg : Cells.get m i with
  | none => rfl
  | some v => have := h _ (Cells.mem_of_get hg); omega

/-! ### Whole-buffer writes -/

theorem Memory.tabulate_succ (n : Nat) (f : Nat → Byte) :
    Memory.tabulate (n + 1) f =
      Memory.tabulate n f ++ (if f n = Memory.unlisted then [] else [(n, f n)]) := by
  unfold Memory.tabulate
  rw [List.range_succ, List.filterMap_append]
  congr 1
  simp only [List.filterMap_cons, List.filterMap_nil]
  split <;> simp_all

theorem Memory.mem_tabulate {n : Nat} {f : Nat → Byte} {c : Host.Cell} :
    c ∈ Memory.tabulate n f ↔ c.1 < n ∧ c.2 = f c.1 ∧ f c.1 ≠ Memory.unlisted := by
  unfold Memory.tabulate
  rw [List.mem_filterMap]
  constructor
  · rintro ⟨i, hi, h⟩
    split at h
    · simp at h
    · simp only [Option.some.injEq] at h
      subst h
      simp_all
  · rintro ⟨h1, h2, h3⟩
    refine ⟨c.1, by simpa using h1, ?_⟩
    rw [if_neg h3, ← h2]

theorem Memory.within_tabulate (n : Nat) (f : Nat → Byte) : Memory.Within n (Memory.tabulate n f) :=
  fun _ hc => (Memory.mem_tabulate.1 hc).1

theorem Memory.wf_tabulate (n : Nat) (f : Nat → Byte) : Memory.wf (Memory.tabulate n f) := by
  refine ⟨?_, fun c hc => ?_⟩
  · induction n with
    | zero => simp [Memory.tabulate]
    | succ k ih =>
      rw [Memory.tabulate_succ, Cells.Rising, List.pairwise_append]
      refine ⟨ih, by split <;> simp, fun a ha b hb => ?_⟩
      have := Memory.within_tabulate k f a ha
      split at hb <;> simp_all
  · obtain ⟨_, h2, h3⟩ := Memory.mem_tabulate.1 hc
    exact h2 ▸ h3

/-- Byte i of a buffer written whole. -/
theorem Memory.read_tabulate (n : Nat) (f : Nat → Byte) (i : Nat) :
    (Memory.tabulate n f).read i = if i < n then f i else Memory.unlisted := by
  have hr := (Memory.wf_tabulate n f).1
  unfold Memory.read
  split
  · rename_i hi
    by_cases hf : f i = Memory.unlisted
    · cases hg : Cells.get (Memory.tabulate n f) i with
      | none => simp [hf]
      | some v =>
        have := Memory.mem_tabulate.1 (Cells.mem_of_get hg)
        exact absurd hf this.2.2
    · rw [Cells.get_of_mem hr (Memory.mem_tabulate (c := (i, f i)) |>.2 ⟨hi, rfl, hf⟩)]
      rfl
  · rename_i hi
    exact Memory.read_of_within (Memory.within_tabulate n f) (by omega)

@[simp] theorem Memory.length_bytes (n : Nat) (m : Memory) : (Memory.bytes n m).length = n := by
  simp [Memory.bytes]

/-- The exchange format lists byte i at place i (R17). -/
theorem Memory.getElem_bytes (n : Nat) (m : Memory) {i : Nat} (h : i < n) :
    (Memory.bytes n m)[i]? = some (Memory.read m i) := by
  simp [Memory.bytes, h]

/-- Two buffers in canonical form that read alike everywhere are the same. -/
theorem Memory.ext_of_read {m m' : Memory} (h : Memory.wf m) (h' : Memory.wf m')
    (hr : ∀ i, Memory.read m i = Memory.read m' i) : m = m' := by
  have hg : ∀ {a b : Memory}, Memory.wf a → Memory.wf b → (∀ i, Memory.read a i = Memory.read b i) → ∀ c ∈ a, c ∈ b := by
    intro a b ha hb hab c hc
    have h1 : Memory.read a c.1 = c.2 := by simp [Memory.read, Cells.get_of_mem ha.1 hc]
    have h2 := hab c.1
    rw [h1] at h2
    cases hgb : Cells.get b c.1 with
    | none => simp [Memory.read, hgb] at h2; exact absurd h2 (ha.2 c hc)
    | some v =>
      simp [Memory.read, hgb] at h2
      have := Cells.mem_of_get hgb
      rwa [← h2] at this
  refine List.Perm.eq_of_pairwise (le := fun x y : Host.Cell => x.1 < y.1) ?_ h.1 h'.1 ?_
  · intro a b _ _ h1 h2; omega
  · refine (List.perm_ext_iff_of_nodup ?_ ?_).2 fun c => ⟨hg h h' hr c, hg h' h (fun i => (hr i).symm) c⟩
    · exact h.1.imp fun hab he => by simp [he] at hab
    · exact h'.1.imp fun hab he => by simp [he] at hab

/-- STAGE after one byte is staged. -/
theorem Memory.stageRead_put (m : Memory) (i j : Nat) (v : Byte) :
    Memory.stageRead (Cells.put m i v) j = if i = j then v else Memory.stageRead m j := by
  simp only [Memory.stageRead, Cells.get_put]
  split <;> rfl

end Sys2Proof.Machine
end

