-- ==== Sys2Proof/Laws/Panel.lean ====
section
/-! SUPPORT. Laws/Panel.lean: what the serializer's primitives leave when the transport answers ok (R92 to R98). -/

namespace Sys2Proof.Machine

/-- `e'` is `e` after `a` transport answers and `b` BUSY levels have been taken. -/
structure Env.Taken (e e' : Env) (a b : Nat) : Prop where
  answers : ∀ j, e'.answerAt j = e.answerAt (j + a)
  busy : ∀ j, e'.busyAt j = e.busyAt (j + b)

theorem Env.Taken.refl (e : Env) : Env.Taken e e 0 0 := ⟨fun _ => rfl, fun _ => rfl⟩

theorem Env.Taken.trans {e f g : Env} {a b c d : Nat} (h : Env.Taken e f a b) (k : Env.Taken f g c d) :
    Env.Taken e g (a + c) (b + d) :=
  ⟨fun j => by rw [k.answers, h.answers, Nat.add_assoc, Nat.add_comm c],
   fun j => by rw [k.busy, h.busy, Nat.add_assoc, Nat.add_comm d]⟩

theorem Env.taken_answer (e : Env) : Env.Taken e e.afterAnswer 1 0 :=
  ⟨fun j => e.answerAt_afterAnswer j, fun j => e.busyAt_afterAnswer j⟩

theorem Env.taken_sample (e : Env) : Env.Taken e e.afterBusy.afterAnswer 1 1 :=
  ⟨fun j => by rw [Env.answerAt_afterAnswer, Env.answerAt_afterBusy],
   fun j => by rw [Env.busyAt_afterAnswer, Env.busyAt_afterBusy]⟩

theorem State.AnswersOk.mono {n m : Nat} {s : State} (h : s.AnswersOk n) (k : m ≤ n) : s.AnswersOk m :=
  fun j hj => h j (by omega)

theorem State.AnswersOk.taken {n a b : Nat} {s t : State} (h : s.AnswersOk n) (k : Env.Taken s.env t.env a b) {m : Nat}
    (hm : m + a ≤ n) : t.AnswersOk m := fun j hj => by rw [k.answers]; exact h _ (by omega)

/-- CS_N driven high is CS_N at rest. -/
theorem State.driveCs_true (s : State) : s.driveCs true = { s with lines := { s.lines with csN := s.csAtRest } } := by
  unfold State.driveCs State.csAtRest; cases s.cfg.csMode <;> rfl

/-- R92: a line event answered ok. -/
theorem runLines_setLine {s : State} (h : s.AnswersOk 1) (l : Line) (v : Bool) (rest : List Micro) :
    runLines (.setLine l v :: rest) s = runLines rest ((s.emit (.line l v)).setLevel l v) :=
  runLines_go (by simp only [microStep, lineStep]; exact onAnswer_ok (h 0 (by omega))) rest

/-- R93: a command byte answered ok. -/
theorem runLines_sendCommand {s : State} (h : s.AnswersOk 1) (b : Byte) (rest : List Micro) :
    runLines (.sendCommand b :: rest) s = runLines rest
      { s with trace := s.trace ++ [.cmd b], env := s.env.afterAnswer,
               lines := { s.lines with dc := false, csN := s.csAtRest } } := by
  refine (runLines_go (t := ((s.setDc false).emit (.cmd b)).driveCs true) ?_ rest).trans ?_
  · simp only [microStep, commandStep]; exact onAnswer_ok (h 0 (by omega))
  · rw [State.driveCs_true]; rfl

/-- R94: data bytes all answered ok. -/
theorem runLines_sendData (bs : List Byte) {s : State} (hb : bs ≠ []) (h : s.AnswersOk bs.length) (rest : List Micro) :
    ∃ t, runLines (.sendData bs :: rest) s = runLines rest t ∧ Env.Taken s.env t.env bs.length 0 ∧
      t = { s with trace := s.trace ++ bs.map .data, env := t.env,
                   lines := { s.lines with dc := true, csN := s.csAtRest } } := by
  induction bs generalizing s with
  | nil => exact absurd rfl hb
  | cons b more ih =>
    have hok : s.nextAnswer = true := h 0 (by simp)
    by_cases hm : more = []
    · subst hm
      refine ⟨((((s.setDc true).driveCs false).emit (.data b)).driveCs true), runLines_go ?_ rest, ?_, ?_⟩
      · simp only [microStep, dataStep, if_true]
        exact onAnswer_ok hok
      · simpa using s.env.taken_answer
      · unfold State.driveCs State.csAtRest State.emit State.setDc
        cases hc : s.cfg.csMode <;> simp [hc]
    · have hstep : microStep (.sendData (b :: more)) s =
          .again (.sendData more) (((s.setDc true).driveCs false).emit (.data b)) := by
        simp only [microStep, dataStep, if_neg hm]
        exact onAnswer_ok hok
      have ht : Env.Taken s.env ((((s.setDc true).driveCs false).emit (.data b)).env) 1 0 := by
        simpa using s.env.taken_answer
      obtain ⟨t, t1, t2, t3⟩ := ih hm (h.taken ht (by simp))
      refine ⟨t, (runLines_again hstep rest).trans t1, ?_, ?_⟩
      · have := ht.trans t2
        rwa [Nat.add_comm 1] at this
      · rw [t3]
        unfold State.driveCs State.csAtRest State.emit State.setDc
        cases hc : s.cfg.csMode <;> simp [hc]

/-- R93, R94: a command byte and its data, all answered ok. -/
theorem runLines_send (b : Byte) (bs : List Byte) {s : State} (h : s.AnswersOk (1 + bs.length)) (rest : List Micro) :
    ∃ t, runLines (.sendCommand b :: .sendData bs :: rest) s = runLines rest t ∧
      Env.Taken s.env t.env (1 + bs.length) 0 ∧
      t = { s with trace := s.trace ++ sendEvents b bs, env := t.env,
                   lines := { s.lines with dc := !bs.isEmpty, csN := s.csAtRest } } := by
  rw [runLines_sendCommand (h.mono (by omega))]
  have ht := s.env.taken_answer
  by_cases hb : bs = []
  · subst hb
    exact ⟨_, runLines_go rfl rest, ht, by simp [sendEvents]⟩
  · obtain ⟨t, t1, t2, t3⟩ := runLines_sendData bs (rest := rest) (s := { s with
      trace := s.trace ++ [.cmd b], env := s.env.afterAnswer,
      lines := { s.lines with dc := false, csN := s.csAtRest } }) hb (fun j hj => by
        rw [ht.answers]; exact h _ (by omega))
    refine ⟨t, t1, ht.trans t2, ?_⟩
    rw [t3]
    have : bs.isEmpty = false := by simpa using hb
    have hc : State.csAtRest { s with
        trace := s.trace ++ [.cmd b], env := s.env.afterAnswer,
        lines := { s.lines with dc := false, csN := s.csAtRest } } = s.csAtRest := by
      unfold State.csAtRest; dsimp only; split <;> rfl
    simp [sendEvents, this, hc]

/-- R98: the loop of a busy-wait that has made `s.busyCnt` samples, with every answer ok. -/
theorem runLines_poll {s : State} (hn : s.busyCnt < s.cfg.busyPollCap)
    (h : s.AnswersOk (s.cfg.busyPollCap - s.busyCnt)) (rest : List Micro) :
    ∃ levels t, runLines (.poll :: rest) s = runLines rest t ∧
      BusyLevels (s.cfg.busyPollCap - s.busyCnt) levels ∧ (∀ j, j < levels.length → levels[j]? = some (s.env.busyAt j)) ∧
      Env.Taken s.env t.env levels.length levels.length ∧
      t = { s with trace := s.trace ++ busyEvents levels, env := t.env, busyCnt := s.busyCnt + levels.length,
                   opbto := s.opbto || TimedOut levels,
                   sticky := { s.sticky with bto := s.sticky.bto || TimedOut levels } } := by
  generalize hk : s.cfg.busyPollCap - s.busyCnt = k at h ⊢
  induction k generalizing s with
  | zero => omega
  | succ k ih =>
    have hok : s.nextAnswer = true := h 0 (by omega)
    have ht : Env.Taken s.env s.sample.env 1 1 := s.env.taken_sample
    by_cases hb : s.nextBusy = Config.busyActive
    · have hbt : s.nextBusy = true := hb
      by_cases hcap : s.cfg.busyPollCap ≤ s.busyCnt + 1
      · refine ⟨[s.nextBusy], { s.sample with busyCnt := s.busyCnt + 1 }.noteTimeout, runLines_go ?_ rest, ?_, ?_, ht, ?_⟩
        · simp only [microStep, pollStep]
          rw [onAnswer_ok hok]
          simp only [hb, ne_eq, not_true, if_false, State.sample_busyCnt, State.sample_cfg, hcap, if_true]
        · exact ⟨by simp, by simp, by simp, .inr (by simp; omega)⟩
        · intro j hj
          simp only [List.length_singleton, Nat.lt_one_iff] at hj
          subst hj; rfl
        · simp [State.noteTimeout, State.sample, State.emit, busyEvents, TimedOut, hbt, Config.busyActive]
      · obtain ⟨levels, t, t1, t2, t3, t4, t5⟩ := ih
          (s := ({ s.sample with busyCnt := s.busyCnt + 1 } : State).record (.wait .poll))
          (by simp; omega) (by simp; omega) (fun j hj => by
            show s.sample.env.answerAt j = true
            rw [ht.answers]; exact h _ (by omega))
        obtain ⟨b1, b2, b3, b4⟩ := t2
        have hne : levels ≠ [] := by rintro rfl; simp at b1
        refine ⟨s.nextBusy :: levels, t, ?_, ⟨by simp, by simpa using b2, ?_, ?_⟩, ?_, ?_, ?_⟩
        · refine (runLines_again ?_ rest).trans t1
          simp only [microStep, pollStep]
          rw [onAnswer_ok hok]
          simp only [hb, ne_eq, not_true, if_false, State.sample_busyCnt, State.sample_cfg, hcap]
        · intro v hv
          rw [List.dropLast_cons_of_ne_nil hne] at hv
          rcases List.mem_cons.1 hv with rfl | hv
          · exact hb
          · exact b3 v hv
        · rw [List.getLast?_cons_of_ne_nil hne]
          rcases b4 with b4 | b4
          · exact .inl b4
          · exact .inr (by simp [b4])
        · intro j hj
          cases j with
          | zero => rfl
          | succ j =>
            rw [List.getElem?_cons_succ, t3 j (by simpa using hj)]
            exact congrArg some (ht.busy j)
        · have := ht.trans t4
          simpa [Nat.add_comm] using this
        · rw [t5]
          have e1 : TimedOut (s.nextBusy :: levels) = TimedOut levels := by
            simp only [TimedOut, List.getLast?_cons_of_ne_nil hne]
          have e2 : busyEvents (s.nextBusy :: levels) = .sample s.nextBusy :: .wait .poll :: busyEvents levels := by
            cases levels with
            | nil => exact absurd rfl hne
            | cons _ _ => rfl
          simp [State.record, State.sample, State.emit, e1, e2, Nat.add_assoc, Nat.add_comm 1]
    · refine ⟨[s.nextBusy], { s.sample with busyCnt := s.busyCnt + 1 }, runLines_go ?_ rest, ?_, ?_, ht, ?_⟩
      · simp only [microStep, pollStep]
        rw [onAnswer_ok hok]
        simp only [hb, ne_eq, not_false_eq_true, if_true, State.sample_busyCnt]
      · exact ⟨by simp, by simp, by simp, .inl (by simpa using hb)⟩
      · intro j hj
        simp only [List.length_singleton, Nat.lt_one_iff] at hj
        subst hj; rfl
      · have hf : TimedOut [s.nextBusy] = false := by simpa [TimedOut] using hb
        simp [State.sample, State.emit, busyEvents, hf]

/-- R98: a busy-wait with every answer ok. -/
theorem runLines_busyWait {s : State} (hc : 1 ≤ s.cfg.busyPollCap) (h : s.AnswersOk s.cfg.busyPollCap)
    (rest : List Micro) :
    ∃ levels t, runLines (.busyWait :: rest) s = runLines rest t ∧
      BusyLevels s.cfg.busyPollCap levels ∧ (∀ j, j < levels.length → levels[j]? = some (s.env.busyAt j)) ∧
      Env.Taken s.env t.env levels.length levels.length ∧
      t = { s with trace := s.trace ++ busyEvents levels, env := t.env, busyCnt := levels.length,
                   opbto := s.opbto || TimedOut levels,
                   sticky := { s.sticky with bto := s.sticky.bto || TimedOut levels } } := by
  obtain ⟨levels, t, t1, t2, t3, t4, t5⟩ := runLines_poll (s := { s with busyCnt := 0 }) (by simp; omega) (by simpa using h) rest
  refine ⟨levels, t, (runLines_again rfl rest).trans t1, by simpa using t2, t3, t4, ?_⟩
  simpa using t5

end Sys2Proof.Machine
end

