-- ==== Sys2Proof/Laws/PerInstr.lean ====
section
/-! SUPPORT. Laws/PerInstr.lean: the per-instruction family Encoding: each command's word keeps the reserved bits 0, holds
its opcode in the low byte, and matches one row of the opcode map (R53, R56, R57). -/

namespace Sys2Proof.Laws.Encoding

/-- R53, R56, R57: the word's reserved bits are 0, its low byte is OP, and it matches a row of the opcode map. -/
def Statement (i : Instr) : Prop :=
  encode i &&& 0xFF00F800#32 = 0#32 ∧ (encode i).setWidth 8 = i.opcode ∧
  opcodeRows.any (fun r => r.matchesWord (encode i)) = true

theorem fbSetPixel (c : Colour) : Statement (.fbSetPixel c) := by cases c <;> exact ⟨rfl, rfl, rfl⟩
theorem fbHLine (c : Colour) : Statement (.fbHLine c) := by cases c <;> exact ⟨rfl, rfl, rfl⟩
theorem fbVLine (c : Colour) : Statement (.fbVLine c) := by cases c <;> exact ⟨rfl, rfl, rfl⟩
theorem fbRect (c : Colour) : Statement (.fbRect c) := by cases c <;> exact ⟨rfl, rfl, rfl⟩
theorem fbFillRect (c : Colour) : Statement (.fbFillRect c) := by cases c <;> exact ⟨rfl, rfl, rfl⟩
theorem fbClear : Statement .fbClear := ⟨rfl, rfl, rfl⟩
theorem fbFill (c : Colour) : Statement (.fbFill c) := by cases c <;> exact ⟨rfl, rfl, rfl⟩
theorem fbLoadBegin : Statement .fbLoadBegin := ⟨rfl, rfl, rfl⟩

theorem fbLoadByte (imm : Byte) : Statement (.fbLoadByte imm) := by
  revert imm; unfold Statement; decide
theorem fbLoadCommit : Statement .fbLoadCommit := ⟨rfl, rfl, rfl⟩
theorem fbLoadPb : Statement .fbLoadPb := ⟨rfl, rfl, rfl⟩
theorem pipeBegin : Statement .pipeBegin := ⟨rfl, rfl, rfl⟩
theorem pipePix (imm : Byte) : Statement (.pipePix imm) := by
  revert imm; unfold Statement; decide
theorem pipeAbort : Statement .pipeAbort := ⟨rfl, rfl, rfl⟩
theorem pnlInit : Statement .pnlInit := ⟨rfl, rfl, rfl⟩
theorem pnlClear (m : RefreshMode) : Statement (.pnlClear m) := by cases m <;> exact ⟨rfl, rfl, rfl⟩
theorem pnlDisplay (m : RefreshMode) (s : Source) : Statement (.pnlDisplay m s) := by
  cases m <;> cases s <;> exact ⟨rfl, rfl, rfl⟩
theorem pnlSleep : Statement .pnlSleep := ⟨rfl, rfl, rfl⟩
theorem pnlCleanup : Statement .pnlCleanup := ⟨rfl, rfl, rfl⟩

end Sys2Proof.Laws.Encoding
end

