-- ==== Sys2Proof/Laws/Raster.lean ====
section
/-! SUPPORT. Laws/Raster.lean: the bit-packer, SetPix, the runs and rectangles, and the scale and centering arithmetic: what
each does to every pixel and byte of a buffer. -/

namespace Sys2Proof.Machine

/-! ### Configurations -/

/-- What a well-formed configuration gives (R6). -/
theorem Config.wf_iff (cfg : Config) :
    cfg.wf = true ↔ 8 ≤ cfg.width ∧ cfg.width ≤ 65528 ∧ cfg.width % 8 = 0 ∧ 8 ≤ cfg.height ∧ cfg.height ≤ 65528 ∧
      cfg.height % 8 = 0 ∧ cfg.size ≤ 1048576 ∧ 1 ≤ cfg.busyPollCap ∧
      (cfg.rowBytes - 1 ≤ 255 ∨ cfg.program.xUnit = .pixel) := by
  simp [Config.wf, and_assoc]

theorem Config.width_mod {cfg : Config} (h : cfg.wf = true) : cfg.width % 8 = 0 := ((Config.wf_iff cfg).1 h).2.2.1

/-! ### The bit-packer (R16) -/

/-- R16: `floor((x + y*W) / 8) = y * (W/8) + x div 8`. -/
theorem byteIndex_eq {cfg : Config} (h : cfg.width % 8 = 0) (x y : Nat) :
    byteIndex cfg x y = y * (cfg.width / 8) + x / 8 := by
  obtain ⟨k, hk⟩ := Nat.dvd_of_mod_eq_zero h
  unfold byteIndex
  rw [hk, Nat.mul_div_cancel_left _ (by norm_num), show x + y * (8 * k) = x + 8 * (y * k) by ring,
    Nat.add_mul_div_left _ _ (by norm_num), Nat.add_comm]

theorem byteIndex_lt {cfg : Config} (h : cfg.width % 8 = 0) {x y : Nat} (hx : x < cfg.width) (hy : y < cfg.height) :
    byteIndex cfg x y < cfg.size := by
  rw [byteIndex_eq h, Config.size]
  have hx8 : x / 8 < cfg.width / 8 := by omega
  calc y * (cfg.width / 8) + x / 8 < y * (cfg.width / 8) + cfg.width / 8 := by omega
    _ = (y + 1) * (cfg.width / 8) := by ring
    _ ≤ cfg.height * (cfg.width / 8) := Nat.mul_le_mul_right _ hy
    _ = _ := Nat.mul_comm ..

theorem bitIndex_lt (x : Nat) : bitIndex x < 8 := by unfold bitIndex; omega

/-- Two pixels of the panel share a bit only if they are the same pixel. -/
theorem pixel_place_inj {cfg : Config} (h : cfg.width % 8 = 0) {x y x' y' : Nat} (hx : x < cfg.width)
    (hx' : x' < cfg.width) (hb : byteIndex cfg x y = byteIndex cfg x' y') (hi : bitIndex x = bitIndex x') :
    x = x' ∧ y = y' := by
  rw [byteIndex_eq h, byteIndex_eq h] at hb
  have h8 : x / 8 < cfg.width / 8 := by omega
  have h8' : x' / 8 < cfg.width / 8 := by omega
  have hy : y = y' := by
    have := congrArg (· / (cfg.width / 8)) hb
    beta_reduce at this
    rw [Nat.add_comm, Nat.add_comm (y' * _), Nat.add_mul_div_right _ _ (by omega), Nat.add_mul_div_right _ _ (by omega),
      Nat.div_eq_of_lt h8, Nat.div_eq_of_lt h8'] at this
    omega
  subst hy
  unfold bitIndex at hi
  omega

theorem getLsbD_paint (v : Byte) (b j : Nat) (hb : b < 8) (hj : j < 8) (c : Colour) :
    (paint v b c).getLsbD j = if j = b then storedBit c else v.getLsbD j := by
  cases c
  · simp only [paint, storedBit, BitVec.getLsbD_or, BitVec.getLsbD_shiftLeft, BitVec.getLsbD_one]
    by_cases h : j = b
    · subst h; simp [hj]
    · have : ¬ (j - b = 0 ∧ b ≤ j) := by omega
      simp [h, hj]; grind
  · simp only [paint, storedBit, BitVec.getLsbD_and, BitVec.getLsbD_not, BitVec.getLsbD_shiftLeft, BitVec.getLsbD_one]
    by_cases h : j = b
    · subst h; simp [hj]
    · simp [h, hj]; grind

/-! ### SetPix (R68) -/

theorem setPix_of_not_onPanel {cfg : Config} {x y : Int} (h : ¬ OnPanel cfg x y) (buf : Memory) (c : Colour) :
    setPix cfg buf x y c = buf := by
  rw [setPix, if_neg h]

theorem wf_setPix {buf : Memory} (h : Memory.wf buf) (cfg : Config) (x y : Int) (c : Colour) :
    Memory.wf (setPix cfg buf x y c) := by
  unfold setPix
  split
  · exact Memory.wf_write h _ _
  · exact h

theorem within_setPix {cfg : Config} (hw : cfg.width % 8 = 0) {buf : Memory} (h : Memory.Within cfg.size buf) (x y : Int)
    (c : Colour) : Memory.Within cfg.size (setPix cfg buf x y c) := by
  unfold setPix
  split
  · rename_i hp
    exact Memory.within_write h (byteIndex_lt hw (by omega) (by omega)) _
  · exact h

/-- SetPix changes no byte but the pixel's. -/
theorem read_setPix_of_ne {cfg : Config} {x y : Int} {i : Nat} (h : OnPanel cfg x y → i ≠ byteIndex cfg x.toNat y.toNat)
    (buf : Memory) (c : Colour) : (setPix cfg buf x y c).read i = Memory.read buf i := by
  unfold setPix
  split
  · rename_i hp
    rw [Memory.read_write, if_neg (Ne.symm (h hp))]
  · rfl

/-- R68: SetPix gives one pixel of the panel the colour and leaves every other pixel. -/
theorem pixel_setPix {cfg : Config} (hw : cfg.width % 8 = 0) (buf : Memory) (x y : Int) (c : Colour) {px py : Nat}
    (hx : px < cfg.width) (hy : py < cfg.height) :
    pixel cfg (setPix cfg buf x y c) px py =
      if (px : Int) = x ∧ (py : Int) = y then storedBit c else pixel cfg buf px py := by
  unfold setPix
  by_cases hp : OnPanel cfg x y
  · rw [if_pos hp]
    simp only [pixel]
    rw [Memory.read_write]
    by_cases hb : byteIndex cfg x.toNat y.toNat = byteIndex cfg px py
    · rw [if_pos hb, getLsbD_paint _ _ _ (bitIndex_lt _) (bitIndex_lt _)]
      by_cases hi : bitIndex px = bitIndex x.toNat
      · have := pixel_place_inj hw (by omega) hx hb hi.symm
        rw [if_pos hi, if_pos (by omega)]
      · rw [if_neg hi, if_neg, hb]
        rintro ⟨h1, _⟩
        exact hi (by rw [← h1]; rfl)
    · rw [if_neg hb, if_neg]
      rintro ⟨h1, h2⟩
      exact hb (by rw [← h1, ← h2]; rfl)
  · rw [if_neg hp, if_neg]
    rintro ⟨h1, h2⟩
    exact hp (by omega)

/-- SetPix leaves the bytes past the panel's. -/
theorem read_setPix_past {cfg : Config} (hw : cfg.width % 8 = 0) (buf : Memory) (x y : Int) (c : Colour) {i : Nat}
    (hi : cfg.size ≤ i) : (setPix cfg buf x y c).read i = Memory.read buf i :=
  read_setPix_of_ne (fun hp => by have := byteIndex_lt hw (x := x.toNat) (y := y.toNat) (by omega) (by omega); omega) _ _

/-! ### Runs and rectangles (R70 to R73) -/

theorem wf_hLine {buf : Memory} (h : Memory.wf buf) (cfg : Config) (x y : Int) (n : Nat) (c : Colour) :
    Memory.wf (hLine cfg buf x y n c) := by
  induction n generalizing buf x with
  | zero => exact h
  | succ k ih => exact ih (wf_setPix h ..) _

theorem wf_vLine {buf : Memory} (h : Memory.wf buf) (cfg : Config) (x y : Int) (n : Nat) (c : Colour) :
    Memory.wf (vLine cfg buf x y n c) := by
  induction n generalizing buf y with
  | zero => exact h
  | succ k ih => exact ih (wf_setPix h ..) _

theorem wf_rect {buf : Memory} (h : Memory.wf buf) (cfg : Config) (x y : Int) (w n : Nat) (c : Colour) :
    Memory.wf (rect cfg buf x y w n c) :=
  wf_vLine (wf_vLine (wf_hLine (wf_hLine h ..) ..) ..) ..

theorem wf_fillRect {buf : Memory} (h : Memory.wf buf) (cfg : Config) (x y : Int) (w n : Nat) (c : Colour) :
    Memory.wf (fillRect cfg buf x y w n c) := by
  induction n generalizing buf y with
  | zero => exact h
  | succ k ih => exact ih (wf_hLine h ..) _

theorem within_hLine {cfg : Config} (hw : cfg.width % 8 = 0) {buf : Memory} (h : Memory.Within cfg.size buf) (x y : Int)
    (n : Nat) (c : Colour) : Memory.Within cfg.size (hLine cfg buf x y n c) := by
  induction n generalizing buf x with
  | zero => exact h
  | succ k ih => exact ih (within_setPix hw h _ _ _) _

theorem within_vLine {cfg : Config} (hw : cfg.width % 8 = 0) {buf : Memory} (h : Memory.Within cfg.size buf) (x y : Int)
    (n : Nat) (c : Colour) : Memory.Within cfg.size (vLine cfg buf x y n c) := by
  induction n generalizing buf y with
  | zero => exact h
  | succ k ih => exact ih (within_setPix hw h _ _ _) _

theorem within_rect {cfg : Config} (hw : cfg.width % 8 = 0) {buf : Memory} (h : Memory.Within cfg.size buf) (x y : Int)
    (w n : Nat) (c : Colour) : Memory.Within cfg.size (rect cfg buf x y w n c) :=
  within_vLine hw (within_vLine hw (within_hLine hw (within_hLine hw h _ _ _ _) _ _ _ _) _ _ _ _) _ _ _ _

theorem within_fillRect {cfg : Config} (hw : cfg.width % 8 = 0) {buf : Memory} (h : Memory.Within cfg.size buf) (x y : Int)
    (w n : Nat) (c : Colour) : Memory.Within cfg.size (fillRect cfg buf x y w n c) := by
  induction n generalizing buf y with
  | zero => exact h
  | succ k ih => exact ih (within_hLine hw h _ _ _ _) _

/-- R70: the pixels of a horizontal run. -/
theorem pixel_hLine {cfg : Config} (hw : cfg.width % 8 = 0) (buf : Memory) (x y : Int) (n : Nat) (c : Colour)
    {px py : Nat} (hx : px < cfg.width) (hy : py < cfg.height) :
    pixel cfg (hLine cfg buf x y n c) px py =
      if x ≤ px ∧ (px : Int) < x + n ∧ (py : Int) = y then storedBit c else pixel cfg buf px py := by
  induction n generalizing buf x with
  | zero => rw [hLine, if_neg (by omega)]
  | succ k ih =>
    rw [hLine, ih, pixel_setPix hw _ _ _ _ hx hy]
    push_cast
    grind

/-- R71: the pixels of a vertical run. -/
theorem pixel_vLine {cfg : Config} (hw : cfg.width % 8 = 0) (buf : Memory) (x y : Int) (n : Nat) (c : Colour)
    {px py : Nat} (hx : px < cfg.width) (hy : py < cfg.height) :
    pixel cfg (vLine cfg buf x y n c) px py =
      if (px : Int) = x ∧ y ≤ py ∧ (py : Int) < y + n then storedBit c else pixel cfg buf px py := by
  induction n generalizing buf y with
  | zero => rw [vLine, if_neg (by omega)]
  | succ k ih =>
    rw [vLine, ih, pixel_setPix hw _ _ _ _ hx hy]
    push_cast
    grind

/-- R73: the pixels of a filled rectangle. -/
theorem pixel_fillRect {cfg : Config} (hw : cfg.width % 8 = 0) (buf : Memory) (x y : Int) (w n : Nat) (c : Colour)
    {px py : Nat} (hx : px < cfg.width) (hy : py < cfg.height) :
    pixel cfg (fillRect cfg buf x y w n c) px py =
      if x ≤ px ∧ (px : Int) < x + w ∧ y ≤ py ∧ (py : Int) < y + n then storedBit c else pixel cfg buf px py := by
  induction n generalizing buf y with
  | zero => rw [fillRect, if_neg (by omega)]
  | succ k ih =>
    rw [fillRect, ih, pixel_hLine hw _ _ _ _ _ hx hy]
    push_cast
    grind

theorem read_hLine_past {cfg : Config} (hw : cfg.width % 8 = 0) (buf : Memory) (x y : Int) (n : Nat) (c : Colour) {i : Nat}
    (hi : cfg.size ≤ i) : (hLine cfg buf x y n c).read i = Memory.read buf i := by
  induction n generalizing buf x with
  | zero => rfl
  | succ k ih => rw [hLine, ih, read_setPix_past hw _ _ _ _ hi]

theorem read_vLine_past {cfg : Config} (hw : cfg.width % 8 = 0) (buf : Memory) (x y : Int) (n : Nat) (c : Colour) {i : Nat}
    (hi : cfg.size ≤ i) : (vLine cfg buf x y n c).read i = Memory.read buf i := by
  induction n generalizing buf y with
  | zero => rfl
  | succ k ih => rw [vLine, ih, read_setPix_past hw _ _ _ _ hi]

theorem read_rect_past {cfg : Config} (hw : cfg.width % 8 = 0) (buf : Memory) (x y : Int) (w n : Nat) (c : Colour) {i : Nat}
    (hi : cfg.size ≤ i) : (rect cfg buf x y w n c).read i = Memory.read buf i := by
  simp only [rect, read_vLine_past hw _ _ _ _ _ hi, read_hLine_past hw _ _ _ _ _ hi]

theorem read_fillRect_past {cfg : Config} (hw : cfg.width % 8 = 0) (buf : Memory) (x y : Int) (w n : Nat) (c : Colour)
    {i : Nat} (hi : cfg.size ≤ i) : (fillRect cfg buf x y w n c).read i = Memory.read buf i := by
  induction n generalizing buf y with
  | zero => rfl
  | succ k ih => rw [fillRect, ih, read_hLine_past hw _ _ _ _ _ hi]

/-! ### Scale and center (R81, R82) -/

/-- R81: the factor (N, D) is a positive fraction at most 1, at most W/sw and at most H/sh, and equal to one of the three. -/
theorem scaleFactor_spec {cfg : Config} (hW : 0 < cfg.width) (hH : 0 < cfg.height) {sw sh : Nat} (hsw : 0 < sw)
    (hsh : 0 < sh) :
    let nd := scaleFactor cfg sw sh
    0 < nd.1 ∧ 0 < nd.2 ∧ nd.1 ≤ nd.2 ∧ nd.1 * sw ≤ cfg.width * nd.2 ∧ nd.1 * sh ≤ cfg.height * nd.2 ∧
      (nd = (1, 1) ∨ nd = (cfg.width, sw) ∨ nd = (cfg.height, sh)) := by
  simp only [scaleFactor]
  split
  · rename_i h1
    simp only [Nat.mul_one, Nat.one_mul] at h1
    simp only
    split
    · rename_i h2
      refine ⟨hH, hsh, ?_, by nlinarith, le_refl _, by simp⟩
      nlinarith
    · rename_i h2
      exact ⟨hW, hsw, h1.le, le_refl _, by nlinarith, by simp⟩
  · rename_i h1
    simp only [Nat.mul_one, Nat.one_mul, not_lt] at h1
    simp only
    split
    · rename_i h2
      simp only [Nat.mul_one, Nat.one_mul] at h2
      exact ⟨hH, hsh, h2.le, by nlinarith, le_refl _, by simp⟩
    · rename_i h2
      simp only [Nat.mul_one, Nat.one_mul, not_lt] at h2
      exact ⟨one_pos, one_pos, le_refl _, by omega, by omega, by simp⟩

/-- R81: TW ≤ W and TH ≤ H, and the image is never upscaled. -/
theorem scaleToFit_le {cfg : Config} (hW : 0 < cfg.width) (hH : 0 < cfg.height) (sw sh : Nat) :
    (scaleToFit cfg sw sh).1 ≤ cfg.width ∧ (scaleToFit cfg sw sh).2 ≤ cfg.height ∧
      (scaleToFit cfg sw sh).1 ≤ sw ∧ (scaleToFit cfg sw sh).2 ≤ sh := by
  unfold scaleToFit
  split
  · simp
  · rename_i h
    obtain ⟨h1, h2, h3, h4, h5, _⟩ := scaleFactor_spec hW hH (sw := sw) (sh := sh) (by omega) (by omega)
    refine ⟨?_, ?_, ?_, ?_⟩
    · exact Nat.div_le_of_le_mul (by rw [Nat.mul_comm sw, Nat.mul_comm _ cfg.width]; exact h4)
    · exact Nat.div_le_of_le_mul (by rw [Nat.mul_comm sh, Nat.mul_comm _ cfg.height]; exact h5)
    · exact Nat.div_le_of_le_mul (by rw [Nat.mul_comm sw]; exact Nat.mul_le_mul_right _ h3)
    · exact Nat.div_le_of_le_mul (by rw [Nat.mul_comm sh]; exact Nat.mul_le_mul_right _ h3)

/-- R82: the margins of a centred side differ by at most one. -/
theorem centerOffset_margin {side target : Nat} (h : target ≤ side) :
    centerOffset side target + target ≤ side ∧ side - target - 2 * centerOffset side target ≤ 1 := by
  unfold centerOffset; omega

/-- R83: 127 is black, 128 is white. -/
theorem isBlack_iff (g : Byte) : isBlack g = true ↔ g.toNat < 128 := decide_eq_true_iff

end Sys2Proof.Machine
end

