-- ==== Sys2Proof/Laws/Step.lean ====
section
/-! SUPPORT. Laws/Step.lean: what a step does, by the next pending input and the sequencer's position; the bits of the
register words; what a host access leaves; RELEASED (R32). -/

namespace Sys2Proof.Machine

/-! ### Register words -/

theorem getLsbD_flagAt {k : Nat} (hk : k < 32) (b : Bool) (j : Nat) :
    (flagAt k b).getLsbD j = (b && decide (j = k)) := by
  cases b
  · simp [flagAt]
  · simp only [flagAt, if_true, BitVec.getLsbD_shiftLeft, BitVec.getLsbD_one]
    by_cases h : j = k
    · subst h; simp [hk]
    · simp [h]; omega

theorem toNat_halves (lo hi : Half) : (halves lo hi).toNat = lo.toNat + 65536 * hi.toNat := by
  have h := Nat.shiftLeft_add_eq_or_of_lt lo.isLt hi.toNat
  rw [halves, BitVec.toNat_append, ← h, Nat.shiftLeft_eq]
  omega

/-! ### The step -/

variable {s : State}

theorem step_of_wf (h : s.cfg.wf = true) : step s = controlStep s := by simp [step, h]

/-- With no input due, the sequencer runs. -/
theorem step_sequencer (h : s.cfg.wf = true) (hi : s.inbox = [] ∨ s.run = true ∧ ∃ rest, s.inbox = .waitIdle :: rest) :
    step s = sequencerRun s := by
  rw [step_of_wf h]
  rcases hi with hi | ⟨hr, rest, hi⟩ <;> simp [controlStep, *]

/-- An input that has arrived is taken. -/
theorem step_act (h : s.cfg.wf = true) {k : Nat} {a : HostAct} {rest : List HostEvent}
    (hi : s.inbox = .act k a :: rest) (hk : k = 0 ∨ s.run = false) :
    step s = .next (State.takeAct a { s with inbox := rest }) := by
  rw [step_of_wf h]
  cases k with
  | zero => simp [controlStep, hi]
  | succ n => simp [controlStep, hi, hk.resolve_left (by omega)]

/-- An input that arrives later lets the running command make one sequencer step. -/
theorem step_act_later (h : s.cfg.wf = true) {k : Nat} {a : HostAct} {rest : List HostEvent}
    (hi : s.inbox = .act (k + 1) a :: rest) (hr : s.run = true) :
    step s = .next (sequencerStep { s with inbox := .act k a :: rest }) := by
  rw [step_of_wf h]; simp [controlStep, hi, hr]

/-- Every command's meaning is the run of its rule's lines (R60). -/
theorem exec_eq_runLines (i : Instr) (s : State) : exec i s = .next (runLines (linesOf i s) s) := by
  cases i <;> rfl

/-- The sequencer left alone ends the running command. -/
theorem sequencerRun_eq (s : State) : sequencerRun s = .next s.finished := by
  unfold sequencerRun State.finished
  cases s.seq with
  | idle => rfl
  | accepted =>
    cases decode s.cur with
    | ok i => exact exec_eq_runLines i s
    | error e => rfl
  | running rest => rfl

/-- The cases of a step: the sequencer alone, the end of a WAITIDLE, an input taken, or one sequencer step before a later
input. -/
theorem step_cases {s t : State} (h : step s = .next t) :
    s.cfg.wf = true ∧
    (sequencerRun s = .next t ∨
     (s.run = false ∧ ∃ rest, s.inbox = .waitIdle :: rest ∧ t = State.endWait { s with inbox := rest }) ∨
     (∃ k a rest, s.inbox = .act k a :: rest ∧ (k = 0 ∨ s.run = false) ∧ t = State.takeAct a { s with inbox := rest }) ∨
     (s.run = true ∧ ∃ k a rest, s.inbox = .act (k + 1) a :: rest ∧ t = sequencerStep { s with inbox := .act k a :: rest })) := by
  unfold step at h
  split at h
  · rename_i hw
    refine ⟨hw, ?_⟩
    unfold controlStep at h
    split at h
    · exact .inl h
    · split at h
      · exact .inl h
      · rename_i rest hi hr
        simp only [Host.Outcome.next.injEq] at h
        exact .inr (.inl ⟨by simpa using hr, rest, hi, h.symm⟩)
    · rename_i a rest hi
      simp only [Host.Outcome.next.injEq] at h
      exact .inr (.inr (.inl ⟨0, a, rest, hi, .inl rfl, h.symm⟩))
    · rename_i k a rest hi
      split at h <;> simp only [Host.Outcome.next.injEq] at h
      · exact .inr (.inr (.inr ⟨‹_›, k, a, rest, hi, h.symm⟩))
      · exact .inr (.inr (.inl ⟨k + 1, a, rest, hi, .inr (by simp_all), h.symm⟩))
  · simp at h
/-! ### What no command touches, and where the sequencer rests -/

theorem State.finished_sameHost (s : State) :
    s.finished.cfg = s.cfg ∧ s.finished.args = s.args ∧ s.finished.inbox = s.inbox ∧ s.finished.replies = s.replies ∧
      s.finished.resetN = s.resetN ∧ s.finished.seq = .idle := by
  have run := fun lines : List Micro => runLines_sameHost lines s
  unfold State.finished
  split
  · exact ⟨rfl, rfl, rfl, rfl, rfl, ‹_›⟩
  · split
    · rename_i i _
      obtain ⟨c, t, e, h⟩ := run (linesOf i s)
      rw [e]; exact ⟨h.cfg, h.args, h.inbox, h.replies, h.resetN, rfl⟩
    · exact ⟨rfl, rfl, rfl, rfl, rfl, rfl⟩
  · rename_i rest _
    obtain ⟨c, t, e, h⟩ := run rest
    rw [e]; exact ⟨h.cfg, h.args, h.inbox, h.replies, h.resetN, rfl⟩

/-! ### RELEASED (R32) -/

/-- A line that leads to the one setting RELEASED is taken up again only from another such line. -/
theorem releases_again {op op' : Micro} {s t : State} (h : microStep op s = .again op' t) (hr : op'.releases = true) :
    op.releases = true := by
  cases op with
  | cutPower => rfl
  | endSession a => rfl
  | releaseHandles a => rfl
  | sendData bs =>
    cases bs with
    | nil => simp [microStep] at h
    | cons b rest =>
      simp only [microStep, dataStep, onAnswer] at h
      (repeat' split at h) <;> simp at h
      obtain ⟨rfl, -⟩ := h; simp [Micro.releases] at hr
  | _ =>
    simp only [microStep, guardLine, lineStep, commandStep, pollStep, onAnswer, closeStep] at h
    (try (repeat' split at h)) <;> simp at h <;> obtain ⟨rfl, -⟩ := h <;> simp [Micro.releases] at hr

/-- Of the rules, only PNL_CLEANUP's has a line that leads to setting RELEASED. -/
theorem linesOf_releases {i : Instr} {s : State} (h : (linesOf i s).any Micro.releases = true) : i = .pnlCleanup := by
  cases i with
  | pnlClear m =>
    simp only [linesOf, linesPnlClear, clearTransfers] at h
    cases hb : s.cfg.secondaryBankEn <;> rw [hb] at h <;> cases h
  | pnlDisplay m src => cases src <;> cases h
  | pnlCleanup => rfl
  | _ => cases h

/-- Only the lines that lead to setting RELEASED can change it. -/
theorem microStep_released {op : Micro} (h : op.releases = false) (s : State) :
    (microStep op s).state.released = s.released := by
  cases op with
  | releaseHandles a => cases h
  | sendData bs =>
    cases bs with
    | nil => rfl
    | cons b rest =>
      simp only [microStep, dataStep, onAnswer]
      (repeat' split) <;> simp [Flow.state]
  | _ =>
    simp only [microStep, guardLine, lineStep, commandStep, pollStep, onAnswer, State.stageByte, State.countByte,
      State.scale, State.center, State.packPixel, closeStep]
    (repeat' split) <;> simp [Flow.state]

/-- No line clears RELEASED. -/
theorem microStep_keeps_released (op : Micro) {s : State} (h : s.released = true) :
    (microStep op s).state.released = true := by
  cases hop : op.releases with
  | false => rw [microStep_released hop, h]
  | true => cases op <;> simp [Micro.releases] at hop <;> simp [microStep, Flow.state, State.setProtocol, h]

end Sys2Proof.Machine
end

