-- ==== Sys2Proof/Laws/Transfer.lean ====
section
/-! SUPPORT. Laws/Transfer.lean: what a run of the serializer's lines can do when any answer may fail (R91, R107): the events,
the line levels and the timeouts, where CS_N rests, the same run before other answers, and a bound on a measure of the events. -/

namespace Sys2Proof.Machine

/-! ### Events one after another -/

/-- How many of the events have a transport answer. -/
def answeredCount (events : List PanelEvent) : Nat := (events.filter PanelEvent.answered).length

theorem answeredCount_append (a b : List PanelEvent) : answeredCount (a ++ b) = answeredCount a + answeredCount b := by
  simp [answeredCount]

theorem linesAfter_append (ok : Bool) (a : List PanelEvent) :
    ∀ (b : List PanelEvent) (l : Lines), b ≠ [] → linesAfter ok (a ++ b) l = linesAfter ok b (linesAfter true a l) := by
  induction a with
  | nil => exact fun _ _ _ => rfl
  | cons e r ih =>
    intro b l hb
    cases r with
    | nil => cases b with
      | nil => exact absurd rfl hb
      | cons f b => rfl
    | cons f r => exact ih b (e.drive true l) hb

theorem sawTimeout_append (ok : Bool) (a : List PanelEvent) :
    ∀ b : List PanelEvent, b ≠ [] → b.head? ≠ some (.wait .poll) →
      sawTimeout ok (a ++ b) = (sawTimeout true a || sawTimeout ok b) := by
  induction a with
  | nil => exact fun _ _ _ => rfl
  | cons e r ih =>
    intro b hb hh
    cases r with
    | nil => cases b with
      | nil => exact absurd rfl hb
      | cons f b =>
        have hf : (f != PanelEvent.wait .poll) = true := by simpa using hh
        show ((e == _ && f != .wait .poll) || _) = ((true && e == _) || _)
        rw [hf]; simp
    | cons f r =>
      show ((e == _ && f != .wait .poll) || sawTimeout ok ((f :: r) ++ b)) =
        (((e == _ && f != .wait .poll) || sawTimeout true (f :: r)) || _)
      rw [ih b hb hh, Bool.or_assoc]

@[simp] theorem PanelEvent.wait_beq_sample (t : WaitName) (v : Bool) : (PanelEvent.wait t == .sample v) = false := by simp
@[simp] theorem PanelEvent.line_beq_sample (l : Line) (a v : Bool) : (PanelEvent.line l a == .sample v) = false := by simp
@[simp] theorem PanelEvent.cmd_beq_sample (b : Byte) (v : Bool) : (PanelEvent.cmd b == .sample v) = false := by simp
@[simp] theorem PanelEvent.data_beq_sample (b : Byte) (v : Bool) : (PanelEvent.data b == .sample v) = false := by simp
@[simp] theorem PanelEvent.sample_beq_sample (u v : Bool) : (PanelEvent.sample u == .sample v) = (u == v) := by
  cases u <;> cases v <;> rfl

/-- `t` is `s` after these events, all answered ok but perhaps the last, which was answered `ok`: the levels and the timeouts
follow from the events, and no buffer or flag of the other units has changed. -/
structure Transferred (s t : State) (events : List PanelEvent) (ok : Bool) : Prop where
  trace : t.trace = s.trace ++ events
  opbto : t.opbto = (s.opbto || sawTimeout ok events)
  sticky : t.sticky = { s.sticky with bto := s.sticky.bto || sawTimeout ok events }
  /-- CS_N is left out: see `runLines_csN` -/
  lines : ∀ c, { t.lines with csN := c } = linesAfter ok events { s.lines with csN := c }
  head : events.head? ≠ some (.wait .poll)
  fb : t.fb = s.fb
  pb : t.pb = s.pb
  stage : t.stage = s.stage
  pbValid : t.pbValid = s.pbValid
  loadAct : t.loadAct = s.loadAct
  loadCnt : t.loadCnt = s.loadCnt
  image : t.image = s.image
  pipeAct : t.pipeAct = s.pipeAct
  released : t.released = s.released

theorem Transferred.refl (s : State) : Transferred s s [] true :=
  ⟨by simp, by simp [sawTimeout], by simp [sawTimeout], fun _ => rfl, by simp, rfl, rfl, rfl, rfl, rfl, rfl, rfl, rfl, rfl⟩

theorem Transferred.complete {s t : State} {events : List PanelEvent} {ok : Bool} (h : Transferred s t events ok)
    (code : ResultCode) : Transferred s (t.complete code) events ok :=
  ⟨h.trace, h.opbto, h.sticky, h.lines, h.head, h.fb, h.pb, h.stage, h.pbValid, h.loadAct, h.loadCnt, h.image, h.pipeAct,
    h.released⟩

theorem Transferred.trans {s t u : State} {a b : List PanelEvent} {ok : Bool} (h : Transferred s t a true)
    (k : Transferred t u b ok) (hok : b = [] → ok = true) : Transferred s u (a ++ b) ok := by
  have rest : u.fb = s.fb ∧ u.pb = s.pb ∧ u.stage = s.stage ∧ u.pbValid = s.pbValid ∧ u.loadAct = s.loadAct ∧
      u.loadCnt = s.loadCnt ∧ u.image = s.image ∧ u.pipeAct = s.pipeAct ∧ u.released = s.released :=
    ⟨k.fb.trans h.fb, k.pb.trans h.pb, k.stage.trans h.stage, k.pbValid.trans h.pbValid, k.loadAct.trans h.loadAct,
      k.loadCnt.trans h.loadCnt, k.image.trans h.image, k.pipeAct.trans h.pipeAct, k.released.trans h.released⟩
  obtain ⟨r1, r2, r3, r4, r5, r6, r7, r8, r9⟩ := rest
  by_cases hb : b = []
  · obtain rfl := hok hb
    subst hb
    refine ⟨?_, ?_, ?_, ?_, ?_, r1, r2, r3, r4, r5, r6, r7, r8, r9⟩
    · rw [k.trace, h.trace]; simp
    · rw [k.opbto, h.opbto]; simp [sawTimeout]
    · rw [k.sticky, h.sticky]; simp [sawTimeout]
    · intro c; rw [k.lines, linesAfter, List.append_nil]; exact h.lines c
    · rw [List.append_nil]; exact h.head
  · have hs := sawTimeout_append ok a b hb k.head
    refine ⟨?_, ?_, ?_, ?_, ?_, r1, r2, r3, r4, r5, r6, r7, r8, r9⟩
    · rw [k.trace, h.trace]; simp
    · rw [k.opbto, h.opbto, hs, Bool.or_assoc]
    · rw [k.sticky, h.sticky, hs]; simp [Bool.or_assoc]
    · intro c; rw [linesAfter_append ok a b _ hb, ← h.lines, ← k.lines]
    · cases a with
      | nil => exact k.head
      | cons e r => exact h.head

/-! ### One line of a transfer -/

/-- A line of the serializer: of the part of a panel command after its checks. No rule delays by T_POLL on a line of its own. -/
def Micro.isTransfer : Micro → Bool
  | .delay t => t != .poll
  | .protocol _ _ | .setLine _ _ | .sendCommand _ | .sendData _ | .busyWait | .poll => true
  | _ => false

/-- A line that sends a command byte. -/
def Micro.sends : Micro → Bool
  | .sendCommand _ => true
  | _ => false

theorem answersOk_zero {s : State} {events : List PanelEvent} (h : answeredCount events = 0) :
    s.AnswersOk (answeredCount events) := fun j hj => absurd hj (by omega)

theorem answersOk_one {s : State} {e : PanelEvent} {rest : List PanelEvent} (h : answeredCount (e :: rest) = 1)
    (hn : s.nextAnswer = true) : s.AnswersOk (answeredCount (e :: rest)) := by
  intro j hj; obtain rfl : j = 0 := by omega
  exact hn

/-- A line that leaves the trace, the timeouts, the levels and the other units alone. -/
theorem Transferred.quiet {s t : State} (h : t.trace = s.trace ∧ t.opbto = s.opbto ∧ t.sticky = s.sticky ∧ t.lines = s.lines)
    (k : t.fb = s.fb ∧ t.pb = s.pb ∧ t.stage = s.stage ∧ t.pbValid = s.pbValid ∧ t.loadAct = s.loadAct ∧
      t.loadCnt = s.loadCnt ∧ t.image = s.image ∧ t.pipeAct = s.pipeAct ∧ t.released = s.released) :
    Transferred s t [] true := by
  obtain ⟨h1, h2, h3, h4⟩ := h
  obtain ⟨r1, r2, r3, r4, r5, r6, r7, r8, r9⟩ := k
  exact ⟨by simp [h1], by simp [h2, sawTimeout], by simp [h3, sawTimeout], fun c => by simp [h4, linesAfter], by simp,
    r1, r2, r3, r4, r5, r6, r7, r8, r9⟩

/-- All a transfer line can do: it goes on, to the next line or to what is left of itself, its answers taken and ok; or its one
event fails and R107 ends the command. -/
theorem microStep_transfer (op : Micro) (s : State) (h : op.isTransfer = true) :
    (∃ events t, Transferred s t events true ∧
      (microStep op s = .go t ∨ ∃ op', microStep op s = .again op' t ∧ op'.isTransfer = true) ∧
      (∃ b, Env.Taken s.env t.env (answeredCount events) b) ∧ s.AnswersOk (answeredCount events) ∧
      (op.sends = true → 0 < answeredCount events)) ∨
    (∃ e t, Transferred s t [e] false ∧ microStep op s = .stop .transportError t ∧ e.answered = true ∧
      s.env.answerAt 0 = false ∧ t.init = false ∧ t.pstate = .unpowered) := by
  have taken : ∀ t : State, t.env = s.env.afterAnswer → ∃ b, Env.Taken s.env t.env 1 b :=
    fun t e => ⟨0, by rw [e]; exact s.env.taken_answer⟩
  have none : ∃ b, Env.Taken s.env s.env 0 b := ⟨0, Env.Taken.refl _⟩
  cases op with
  | protocol p b =>
    exact .inl ⟨[], s.setProtocol p b, .quiet (by simp) (by simp), .inl rfl, none, answersOk_zero rfl, by simp [Micro.sends]⟩
  | busyWait =>
    exact .inl ⟨[], { s with busyCnt := 0 }, .quiet (by simp) (by simp), .inr ⟨_, rfl, rfl⟩, none, answersOk_zero rfl,
      by simp [Micro.sends]⟩
  | delay t =>
    have ht : t ≠ .poll := by simpa [Micro.isTransfer] using h
    refine .inl ⟨[.wait t], s.record (.wait t), ?_, .inl rfl, none, answersOk_zero rfl,
      by simp [Micro.sends]⟩
    constructor <;> simp [State.record, sawTimeout, linesAfter, PanelEvent.drive, ht]
  | setLine l v =>
    cases hn : s.nextAnswer with
    | true =>
      refine .inl ⟨[.line l v], _, ?_, .inl (by simp only [microStep, lineStep]; exact onAnswer_ok hn), taken _ (by simp),
        answersOk_one rfl hn, by simp [Micro.sends]⟩
      cases l <;> constructor <;> simp [State.setLevel, State.emit, sawTimeout, linesAfter, PanelEvent.drive]
    | false =>
      refine .inr ⟨.line l v, _, ?_, by simp only [microStep, lineStep]; exact onAnswer_fail hn, rfl, hn, by simp, by simp⟩
      cases l <;> cases hm : s.cfg.csMode <;> constructor <;>
        simp [State.abort, State.setProtocol, State.driveCs, hm, State.emit, sawTimeout, linesAfter, PanelEvent.drive]
  | sendCommand b =>
    cases hn : s.nextAnswer with
    | true =>
      refine .inl ⟨[.cmd b], _, ?_, .inl (by simp only [microStep, commandStep]; exact onAnswer_ok hn), taken _ (by simp),
        answersOk_one rfl hn, by simp [answeredCount, PanelEvent.answered]⟩
      cases hm : s.cfg.csMode <;> constructor <;>
        simp [State.setDc, State.driveCs, hm, State.emit, sawTimeout, linesAfter, PanelEvent.drive]
    | false =>
      refine .inr ⟨.cmd b, _, ?_, by simp only [microStep, commandStep]; exact onAnswer_fail hn, rfl, hn, by simp, by simp⟩
      cases hm : s.cfg.csMode <;> constructor <;> simp [State.abort, State.setProtocol, State.setDc, State.driveCs, hm,
        State.emit, sawTimeout, linesAfter, PanelEvent.drive]
  | sendData bs =>
    cases bs with
    | nil => exact .inl ⟨[], s, .refl s, .inl rfl, none, answersOk_zero rfl, by simp [Micro.sends]⟩
    | cons b rest =>
      cases hn : s.nextAnswer with
      | true =>
        by_cases hr : rest = []
        · refine .inl ⟨[.data b], _, ?_, .inl (by simp only [microStep, dataStep, if_pos hr]; exact onAnswer_ok hn),
            taken _ (by simp), answersOk_one rfl hn, by simp [Micro.sends]⟩
          cases hm : s.cfg.csMode <;> constructor <;>
            simp [State.setDc, State.driveCs, hm, State.emit, sawTimeout, linesAfter, PanelEvent.drive]
        · refine .inl ⟨[.data b], _, ?_,
            .inr ⟨_, by simp only [microStep, dataStep, if_neg hr]; exact onAnswer_ok hn, rfl⟩, taken _ (by simp),
            answersOk_one rfl hn, by simp [Micro.sends]⟩
          cases hm : s.cfg.csMode <;> constructor <;>
            simp [State.setDc, State.driveCs, hm, State.emit, sawTimeout, linesAfter, PanelEvent.drive]
      | false =>
        refine .inr ⟨.data b, _, ?_, by simp only [microStep, dataStep]; exact onAnswer_fail hn, rfl, hn, by simp, by simp⟩
        cases hm : s.cfg.csMode <;> constructor <;> simp [State.abort, State.setProtocol, State.setDc, State.driveCs, hm,
          State.emit, sawTimeout, linesAfter, PanelEvent.drive]
  | poll =>
    have poll_ok := fun hn : s.nextAnswer = true => show microStep .poll s = _ by
      simp only [microStep, pollStep]; exact onAnswer_ok hn
    cases hn : s.nextAnswer with
    | true =>
      by_cases hb : s.nextBusy ≠ Config.busyActive
      · refine .inl ⟨[.sample s.nextBusy], _, ?_, .inl ((poll_ok hn).trans (if_pos hb)), ⟨1, s.env.taken_sample⟩,
          answersOk_one rfl hn, by simp [Micro.sends]⟩
        constructor <;> simp [State.sample, State.emit, sawTimeout, linesAfter, PanelEvent.drive, beq_false_of_ne hb]
      · have hb' : s.nextBusy = Config.busyActive := by simpa using hb
        by_cases hc : s.cfg.busyPollCap ≤ s.busyCnt + 1
        · refine .inl ⟨[.sample s.nextBusy], _, ?_, .inl ((poll_ok hn).trans ((if_neg hb).trans (if_pos hc))),
            ⟨1, s.env.taken_sample⟩, answersOk_one rfl hn, by simp [Micro.sends]⟩
          constructor <;> simp [State.noteTimeout, State.sample, State.emit, sawTimeout, linesAfter, PanelEvent.drive, hb']
        · refine .inl ⟨[.sample s.nextBusy, .wait .poll], _, ?_,
            .inr ⟨_, (poll_ok hn).trans ((if_neg hb).trans (if_neg hc)), rfl⟩, ⟨1, s.env.taken_sample⟩, answersOk_one rfl hn,
            by simp [Micro.sends]⟩
          constructor <;> simp [State.record, State.sample, State.emit, sawTimeout, linesAfter, PanelEvent.drive]
    | false =>
      refine .inr ⟨.sample s.nextBusy, _, ?_, by simp only [microStep, pollStep]; exact onAnswer_fail hn, rfl, hn, by simp,
        by simp⟩
      cases hm : s.cfg.csMode <;> constructor <;> simp [State.abort, State.setProtocol, State.driveCs, hm, State.sample,
        State.emit, sawTimeout, linesAfter, PanelEvent.drive]
  | _ => simp [Micro.isTransfer] at h

theorem isTransfer_again {op op' : Micro} {s t : State} (h : op.isTransfer = true) (hk : microStep op s = .again op' t) :
    op'.isTransfer = true := by
  obtain (⟨_, u, -, (hu | ⟨o, hu, ho⟩), -⟩ | ⟨_, u, -, hu, -⟩) := microStep_transfer op s h <;> rw [hk] at hu <;> cases hu
  exact ho

/-! ### A run of transfer lines -/

/-- How a run of transfer lines ends: with every answer ok, or at the first that fails (R107). -/
structure RunEnds (s u : State) (events : List PanelEvent) (ok : Bool) : Prop where
  moved : Transferred s u events ok
  before : ∀ j, j + 1 < answeredCount events → s.env.answerAt j = true
  ending : (ok = true ∧ s.AnswersOk (answeredCount events) ∧ u.result.code = .ok) ∨
    (ok = false ∧ 0 < answeredCount events ∧ s.env.answerAt (answeredCount events - 1) = false ∧
      u.result.code = .transportError ∧ u.init = false ∧ u.pstate = .unpowered ∧
      (events.getLast?.map PanelEvent.answered) = some true)

theorem RunEnds.prepend {s t u : State} {a b : List PanelEvent} {ok : Bool} {n : Nat} (h : Transferred s t a true)
    (ht : Env.Taken s.env t.env (answeredCount a) n) (ha : s.AnswersOk (answeredCount a)) (g : RunEnds t u b ok) :
    RunEnds s u (a ++ b) ok := by
  obtain ⟨gm, g2, g3⟩ := g
  have hc := answeredCount_append a b
  have later : ∀ j, answeredCount a ≤ j → s.env.answerAt j = t.env.answerAt (j - answeredCount a) := fun j hj => by
    rw [ht.answers, Nat.sub_add_cancel hj]
  refine ⟨h.trans gm ?_, ?_, ?_⟩
  · rintro rfl
    rcases g3 with ⟨hok, -⟩ | ⟨-, hpos, -⟩
    · exact hok
    · simp [answeredCount] at hpos
  · intro j hj
    by_cases hlt : j < answeredCount a
    · exact ha j hlt
    · rw [later j (by omega)]; exact g2 _ (by omega)
  · rcases g3 with ⟨hok, hall, hcode⟩ | ⟨hok, hpos, hfail, hcode, hi, hp, hl⟩
    · refine .inl ⟨hok, fun j hj => ?_, hcode⟩
      by_cases hlt : j < answeredCount a
      · exact ha j hlt
      · rw [later j (by omega)]; exact hall _ (by omega)
    · refine .inr ⟨hok, by omega, ?_, hcode, hi, hp, ?_⟩
      · rw [later _ (by omega), ← hfail]; congr 1; omega
      · rw [List.getLast?_append]
        cases hb : b.getLast? with
        | none => rw [hb] at hl; cases hl
        | some x => rw [hb] at hl; exact hl

/-- R91, R107: a run of transfer lines. -/
theorem runLines_transfer (lines : List Micro) (s : State) : lines.all Micro.isTransfer = true →
    ∃ events ok, RunEnds s (runLines lines s) events ok ∧
      ((∃ op ∈ lines, op.sends = true) → 0 < answeredCount events) := by
  induction lines, s using runLines_induct with
  | nil s =>
    exact fun _ => ⟨[], true, ⟨(Transferred.refl s).complete .ok, by simp [answeredCount],
      .inl ⟨rfl, answersOk_zero rfl, rfl⟩⟩, by simp⟩
  | cons op rest s ihg iha =>
    intro h
    simp only [List.all_cons, Bool.and_eq_true] at h
    obtain (⟨events, t, h1, ht, ⟨b, hb⟩, hok, hpos⟩ | ⟨e, t, h1, ht, he, hf, hi, hp⟩) := microStep_transfer op s h.1
    · have join : ∀ lines u, runLines (op :: rest) s = runLines lines u → u = t → (∀ o ∈ rest, o ∈ lines) →
          (∃ events ok, RunEnds u (runLines lines u) events ok ∧
            ((∃ op ∈ lines, op.sends = true) → 0 < answeredCount events)) →
          ∃ events ok, RunEnds s (runLines (op :: rest) s) events ok ∧
            ((∃ o ∈ op :: rest, o.sends = true) → 0 < answeredCount events) := by
        rintro lines u e rfl hsub ⟨more, ok, g, gp⟩
        refine ⟨events ++ more, ok, by rw [e]; exact .prepend h1 hb hok g, ?_⟩
        rintro ⟨o, ho, hs⟩
        rw [answeredCount_append]
        rcases List.mem_cons.1 ho with rfl | ho
        · have := hpos hs; omega
        · have := gp ⟨o, hsub o ho, hs⟩; omega
      rcases ht with ht | ⟨op', ht, hop⟩
      · exact join rest t (runLines_go ht rest) rfl (fun _ => id) (ihg t ht h.2)
      · exact join (op' :: rest) t (runLines_again ht rest) rfl (fun _ => .tail _) (iha op' t ht (by simp [hop, h.2]))
    · refine ⟨[e], false, ?_, fun _ => by simp [answeredCount, he]⟩
      rw [runLines_stop ht]
      exact ⟨h1.complete _, by simp [answeredCount, he],
        .inr ⟨rfl, by simp [answeredCount, he], by simpa [answeredCount, he] using hf, rfl, hi, hp, by simp [he]⟩⟩

/-! ### Where CS_N rests (R33, R95) -/

/-- Where the block frames no transaction, CS_N keeps its level. -/
theorem runLines_csN_none (lines : List Micro) (s : State) : lines.all Micro.isTransfer = true → s.cfg.csMode = .none →
    (runLines lines s).lines.csN = s.lines.csN := by
  induction lines, s using runLines_induct with
  | nil s => exact fun _ _ => rfl
  | cons op rest s ihg iha =>
    intro h hm
    simp only [List.all_cons, Bool.and_eq_true] at h
    have hc := (microStep_sameHost op s).cfg
    have key : (microStep op s).state.lines.csN = s.lines.csN := by
      cases op with
      | sendData bs =>
        cases bs with
        | nil => rfl
        | cons b r =>
          simp only [microStep, dataStep, onAnswer]
          (repeat' split) <;> simp [Flow.state, State.driveCs, State.abort, State.setProtocol, State.setDc, State.emit, hm]
      | setLine l v =>
        cases l <;> simp only [microStep, lineStep, onAnswer] <;> split <;>
          simp [Flow.state, State.driveCs, State.abort, State.setProtocol, State.emit, State.setLevel, hm]
      | sendCommand b =>
        simp only [microStep, commandStep, onAnswer]
        split <;> simp [Flow.state, State.driveCs, State.abort, State.setProtocol, State.emit, State.setDc, hm]
      | poll =>
        simp only [microStep, pollStep, onAnswer]
        (repeat' split) <;> simp [Flow.state, State.driveCs, State.abort, State.setProtocol, State.emit, State.sample,
          State.record, State.noteTimeout, hm]
      | protocol p b => rfl
      | busyWait => rfl
      | delay t => rfl
      | _ => simp [Micro.isTransfer] at h
    cases hk : microStep op s with
    | go t =>
      rw [hk] at key hc
      rw [runLines_go hk, ihg t hk h.2 (by rw [show t.cfg = s.cfg from hc]; exact hm)]; exact key
    | again op' t =>
      rw [hk] at key hc
      rw [runLines_again hk, iha op' t hk (by simp [isTransfer_again h.1 hk, h.2])
        (by rw [show t.cfg = s.cfg from hc]; exact hm)]; exact key
    | stop c t => rw [hk] at key; rw [runLines_stop hk]; exact key

/-- Where the block frames its transactions, CS_N is 1 after a run that sends a command byte, or that starts with CS_N at 1, or
that starts inside a data transaction. -/
theorem runLines_csN_framed (lines : List Micro) (s : State) : lines.all Micro.isTransfer = true →
    s.cfg.csMode = .perTransaction →
    (s.lines.csN = true ∨ lines.any Micro.sends = true ∨ ∃ b bs rest, lines = .sendData (b :: bs) :: rest) →
    (runLines lines s).lines.csN = true := by
  induction lines, s using runLines_induct with
  | nil s => intro _ _ h; simp at h; exact h
  | cons op rest s ihg iha =>
    intro h hm hp
    simp only [List.all_cons, Bool.and_eq_true] at h
    have aborted : ∀ t : State, t.cfg = s.cfg → t.abort.lines.csN = true := fun t ht => by
      simp [State.abort, State.driveCs, State.setProtocol, ht, hm]
    have still : (∀ b bs, op ≠ .sendData (b :: bs)) → op.sends = false → s.lines.csN = true ∨ rest.any Micro.sends = true := by
      intro h1 h2
      rcases hp with a | a | ⟨b, bs, r, e⟩
      · exact .inl a
      · exact .inr (by simpa [h2] using a)
      · cases e; exact absurd rfl (h1 _ _)
    have on : ∀ {t : State}, t.lines.csN = s.lines.csN → (s.lines.csN = true ∨ rest.any Micro.sends = true) →
        t.lines.csN = true ∨ rest.any Micro.sends = true ∨ ∃ b bs r, rest = .sendData (b :: bs) :: r :=
      fun ht k => k.imp ht.trans .inl
    have onAgain : ∀ {t : State} {op'}, t.lines.csN = s.lines.csN → (s.lines.csN = true ∨ rest.any Micro.sends = true) →
        t.lines.csN = true ∨ (op' :: rest).any Micro.sends = true ∨ ∃ b bs r, (op' :: rest) = .sendData (b :: bs) :: r :=
      fun ht k => k.imp ht.trans fun k => .inl (by simp at k ⊢; exact .inr k)
    cases op with
    | sendData bs =>
      cases bs with
      | nil => rw [runLines_go (t := s) rfl]; exact ihg s rfl h.2 hm (on rfl (still (by simp) rfl))
      | cons b r =>
        let t := ((s.setDc true).driveCs false).emit (.data b)
        have ht : t.cfg = s.cfg := by simp [t]
        cases hn : s.nextAnswer with
        | false =>
          rw [runLines_stop (t := t.abort) (by simp only [microStep, dataStep]; exact onAnswer_fail hn)]
          exact aborted _ ht
        | true =>
          by_cases hr : r = []
          · have e : microStep (.sendData (b :: r)) s = .go (t.driveCs true) := by
              simp only [microStep, dataStep, if_pos hr]; exact onAnswer_ok hn
            rw [runLines_go e]
            exact ihg _ e h.2 (by simpa using ht ▸ hm) (.inl (by simp [t, State.driveCs, State.setDc, State.emit, hm]))
          · have e : microStep (.sendData (b :: r)) s = .again (.sendData r) t := by
              simp only [microStep, dataStep, if_neg hr]; exact onAnswer_ok hn
            rw [runLines_again e]
            obtain ⟨c, r', rfl⟩ := List.exists_cons_of_ne_nil hr
            exact iha _ _ e (by simp [Micro.isTransfer, h.2]) (ht ▸ hm) (.inr (.inr ⟨c, r', rest, rfl⟩))
    | setLine l v =>
      cases hn : s.nextAnswer with
      | false =>
        rw [runLines_stop (t := (s.emit (.line l v)).abort) (by simp only [microStep, lineStep]; exact onAnswer_fail hn)]
        exact aborted _ (by simp)
      | true =>
        have e : microStep (.setLine l v) s = .go ((s.emit (.line l v)).setLevel l v) := by
          simp only [microStep, lineStep]; exact onAnswer_ok hn
        rw [runLines_go e]
        exact ihg _ e h.2 (by simpa using hm) (on (by cases l <;> rfl) (still (by simp) rfl))
    | sendCommand b =>
      let t := (s.setDc false).emit (.cmd b)
      cases hn : s.nextAnswer with
      | false =>
        rw [runLines_stop (t := t.abort) (by simp only [microStep, commandStep]; exact onAnswer_fail hn)]
        exact aborted _ (by simp [t])
      | true =>
        have e : microStep (.sendCommand b) s = .go (t.driveCs true) := by
          simp only [microStep, commandStep]; exact onAnswer_ok hn
        rw [runLines_go e]
        exact ihg _ e h.2 (by simpa [t] using hm) (.inl (by simp [t, State.driveCs, State.setDc, State.emit, hm]))
    | poll =>
      have key : (∃ t, microStep .poll s = .go t ∧ t.lines = s.lines ∧ t.cfg = s.cfg) ∨
          (∃ t, microStep .poll s = .again .poll t ∧ t.lines = s.lines ∧ t.cfg = s.cfg) ∨
          ∃ t, microStep .poll s = .stop .transportError (State.abort t) ∧ t.cfg = s.cfg := by
        simp only [microStep, pollStep, onAnswer]; (repeat' split) <;> simp
        exact ⟨_, rfl, by simp⟩
      rcases key with ⟨t, e, l, c⟩ | ⟨t, e, l, c⟩ | ⟨t, e, c⟩
      · rw [runLines_go e]; exact ihg _ e h.2 (by rw [c]; exact hm) (on (by rw [l]) (still (by simp) rfl))
      · rw [runLines_again e]
        exact iha _ _ e (by simp [Micro.isTransfer, h.2]) (by rw [c]; exact hm) (onAgain (by rw [l]) (still (by simp) rfl))
      · rw [runLines_stop e]; exact aborted t c
    | protocol p b => rw [runLines_go rfl]; exact ihg _ rfl h.2 hm (on rfl (still (by simp) rfl))
    | busyWait =>
      rw [runLines_again rfl]
      exact iha _ _ rfl (by simp [Micro.isTransfer, h.2]) hm (onAgain rfl (still (by simp) rfl))
    | delay t => rw [runLines_go rfl]; exact ihg _ rfl h.2 hm (on rfl (still (by simp) rfl))
    | _ => simp [Micro.isTransfer] at h

/-- CS_N rests where `State.csAtRest` says after a run that sends a command byte, whichever answer fails. -/
theorem runLines_csN {lines : List Micro} {s : State} (h : lines.all Micro.isTransfer = true)
    (hs : lines.any Micro.sends = true) : (runLines lines s).lines.csN = s.csAtRest := by
  unfold State.csAtRest
  cases hm : s.cfg.csMode with
  | none => exact runLines_csN_none lines s h hm
  | perTransaction => exact runLines_csN_framed lines s h hm (.inr (.inl hs))

/-! ### The same run before other answers -/

/-- A transfer line at the same state before other answers, the BUSY levels the same: both go on alike, or the first run's event
fails, which the second emits too, or the second's fails. -/
theorem microStep_lockstep (op : Micro) (h : op.isTransfer = true) (s : State) (e : Env)
    (hb : ∀ j, e.busyAt j = s.env.busyAt j) :
    (∃ t e', microStep op s = .go t ∧ microStep op { s with env := e } = .go { t with env := e' } ∧
      ∀ j, e'.busyAt j = t.env.busyAt j) ∨
    (∃ op' t e', microStep op s = .again op' t ∧ microStep op { s with env := e } = .again op' { t with env := e' } ∧
      ∀ j, e'.busyAt j = t.env.busyAt j) ∨
    (∃ t x, microStep op s = .stop .transportError t ∧ t.trace = s.trace ++ [x] ∧
      ∃ r, (microStep op { s with env := e }).state.trace = s.trace ++ x :: r) ∨
    (∃ t, microStep op { s with env := e } = .stop .transportError t) := by
  have busyA : ∀ j, e.afterAnswer.busyAt j = s.env.afterAnswer.busyAt j := fun j => by
    rw [e.taken_answer.busy j, hb, s.env.taken_answer.busy j]
  have busyB : ∀ j, e.afterBusy.afterAnswer.busyAt j = s.env.afterBusy.afterAnswer.busyAt j := fun j => by
    rw [e.taken_sample.busy j, hb, s.env.taken_sample.busy j]
  cases op with
  | protocol p b => exact .inl ⟨_, e, rfl, rfl, hb⟩
  | busyWait => exact .inr (.inl ⟨_, _, e, rfl, rfl, hb⟩)
  | delay t => exact .inl ⟨_, e, rfl, rfl, hb⟩
  | setLine l v =>
    cases hn' : ({ s with env := e } : State).nextAnswer with
    | false => exact .inr (.inr (.inr ⟨_, by simp only [microStep, lineStep]; exact onAnswer_fail hn'⟩))
    | true =>
      cases hn : s.nextAnswer with
      | false =>
        exact .inr (.inr (.inl ⟨_, .line l v, by simp only [microStep, lineStep]; exact onAnswer_fail hn, by simp, [],
          by simp only [microStep, lineStep]; rw [onAnswer_ok hn']; simp [Flow.state]⟩))
      | true =>
        exact .inl ⟨_, e.afterAnswer, by simp only [microStep, lineStep]; exact onAnswer_ok hn,
          by simp only [microStep, lineStep]; rw [onAnswer_ok hn']; cases l <;> rfl, by simpa using busyA⟩
  | sendCommand b =>
    cases hn' : ({ s with env := e } : State).nextAnswer with
    | false => exact .inr (.inr (.inr ⟨_, by simp only [microStep, commandStep]; exact onAnswer_fail hn'⟩))
    | true =>
      cases hn : s.nextAnswer with
      | false =>
        exact .inr (.inr (.inl ⟨_, .cmd b, by simp only [microStep, commandStep]; exact onAnswer_fail hn, by simp, [],
          by simp only [microStep, commandStep]; rw [onAnswer_ok hn']; simp [Flow.state]⟩))
      | true =>
        refine .inl ⟨_, e.afterAnswer, by simp only [microStep, commandStep]; exact onAnswer_ok hn, ?_, by simpa using busyA⟩
        simp only [microStep, commandStep]; rw [onAnswer_ok hn']
        cases hm : s.cfg.csMode <;> simp [State.driveCs, State.emit, State.setDc, hm]
  | sendData bs =>
    cases bs with
    | nil => exact .inl ⟨_, e, rfl, rfl, hb⟩
    | cons b r =>
      cases hn' : ({ s with env := e } : State).nextAnswer with
      | false => exact .inr (.inr (.inr ⟨_, by simp only [microStep, dataStep]; exact onAnswer_fail hn'⟩))
      | true =>
        cases hn : s.nextAnswer with
        | false =>
          exact .inr (.inr (.inl ⟨_, .data b, by simp only [microStep, dataStep]; exact onAnswer_fail hn, by simp, [],
            by simp only [microStep, dataStep]; rw [onAnswer_ok hn']; split <;> simp [Flow.state]⟩))
        | true =>
          by_cases hr : r = []
          · refine .inl ⟨_, e.afterAnswer, by simp only [microStep, dataStep, if_pos hr]; exact onAnswer_ok hn, ?_,
              by simpa using busyA⟩
            simp only [microStep, dataStep, if_pos hr]; rw [onAnswer_ok hn']
            cases hm : s.cfg.csMode <;> simp [State.driveCs, State.emit, State.setDc, hm]
          · refine .inr (.inl ⟨_, _, e.afterAnswer, by simp only [microStep, dataStep, if_neg hr]; exact onAnswer_ok hn, ?_,
              by simpa using busyA⟩)
            simp only [microStep, dataStep, if_neg hr]; rw [onAnswer_ok hn']
            cases hm : s.cfg.csMode <;> simp [State.driveCs, State.emit, State.setDc, hm]
  | poll =>
    have hz : ({ s with env := e } : State).nextBusy = s.nextBusy := hb 0
    have poll_ok := fun hn : s.nextAnswer = true => show microStep .poll s = _ by
      simp only [microStep, pollStep]; exact onAnswer_ok hn
    cases hn' : ({ s with env := e } : State).nextAnswer with
    | false => exact .inr (.inr (.inr ⟨_, by simp only [microStep, pollStep]; exact onAnswer_fail hn'⟩))
    | true =>
      cases hn : s.nextAnswer with
      | false =>
        refine .inr (.inr (.inl ⟨_, .sample s.nextBusy, by simp only [microStep, pollStep]; exact onAnswer_fail hn, by simp, ?_⟩))
        simp only [microStep, pollStep]; rw [onAnswer_ok hn', hz]; (repeat' split)
        · exact ⟨[], by simp [Flow.state, hz]⟩
        · exact ⟨[], by simp [Flow.state, hz]⟩
        · exact ⟨[.wait .poll], by simp [Flow.state, hz]⟩
      | true =>
        by_cases hbb : s.nextBusy ≠ Config.busyActive
        · refine .inl ⟨_, e.afterBusy.afterAnswer, (poll_ok hn).trans (if_pos hbb), ?_,
            by simpa [State.sample, State.emit] using busyB⟩
          simp only [microStep, pollStep]; rw [onAnswer_ok hn']; simp [hz, hbb, State.sample, State.emit]
        · by_cases hc : s.cfg.busyPollCap ≤ s.busyCnt + 1
          · refine .inl ⟨_, e.afterBusy.afterAnswer, (poll_ok hn).trans ((if_neg hbb).trans (if_pos hc)), ?_,
              by simpa [State.sample, State.emit, State.noteTimeout] using busyB⟩
            simp only [microStep, pollStep]; rw [onAnswer_ok hn']
            simp [hz, hbb, hc, State.sample, State.emit, State.noteTimeout]
          · refine .inr (.inl ⟨_, _, e.afterBusy.afterAnswer, (poll_ok hn).trans ((if_neg hbb).trans (if_neg hc)), ?_,
              by simpa [State.sample, State.emit, State.record] using busyB⟩)
            simp only [microStep, pollStep]; rw [onAnswer_ok hn']
            simp [hz, hbb, hc, State.sample, State.emit, State.record]
  | _ => simp [Micro.isTransfer] at h

/-- R107: the events of a run of transfer lines are a prefix of those the same run emits before answers with which it ends OK. -/
theorem runLines_lockstep (lines : List Micro) (s : State) : lines.all Micro.isTransfer = true →
    ∀ e : Env, (∀ j, e.busyAt j = s.env.busyAt j) → (runLines lines { s with env := e }).result.code = .ok →
    ∃ events full, (runLines lines s).trace = s.trace ++ events ∧
      (runLines lines { s with env := e }).trace = s.trace ++ full ∧ events <+: full ∧
      ((runLines lines s).result.code = .ok → events = full) := by
  induction lines, s using runLines_induct with
  | nil s => exact fun _ e _ _ => ⟨[], [], by simp, by simp, List.prefix_rfl, fun _ => rfl⟩
  | cons op rest s ihg iha =>
    intro h e hb hok
    simp only [List.all_cons, Bool.and_eq_true] at h
    have grown : ∀ t, (microStep op s = .go t ∨ ∃ op', microStep op s = .again op' t) → ∃ first, t.trace = s.trace ++ first := by
      intro t ht
      obtain (⟨first, u, hu, hk, -⟩ | ⟨_, u, -, hk, -⟩) := microStep_transfer op s h.1
      · refine ⟨first, ?_⟩
        rcases ht with ht | ⟨o, ht⟩ <;> rcases hk with hk | ⟨o', hk, -⟩ <;> rw [ht] at hk <;> cases hk <;> exact hu.trace
      · rcases ht with ht | ⟨o, ht⟩ <;> rw [ht] at hk <;> cases hk
    have join : ∀ (first : List PanelEvent) (t u v : State), t.trace = s.trace ++ first →
        (∃ events full, u.trace = t.trace ++ events ∧ v.trace = t.trace ++ full ∧ events <+: full ∧
          (u.result.code = .ok → events = full)) →
        ∃ events full, u.trace = s.trace ++ events ∧ v.trace = s.trace ++ full ∧ events <+: full ∧
          (u.result.code = .ok → events = full) := by
      rintro first t u v ht ⟨events, full, a, b, c, d⟩
      exact ⟨first ++ events, first ++ full, by rw [a, ht, List.append_assoc], by rw [b, ht, List.append_assoc],
        (List.prefix_append_right_inj _).2 c, fun k => by rw [d k]⟩
    rcases microStep_lockstep op h.1 s e hb with ⟨t, e', k1, k2, kb⟩ | ⟨op', t, e', k1, k2, kb⟩ | ⟨t, x, k1, k2, r, k3⟩ | ⟨t, k⟩
    · rw [runLines_go k2] at hok ⊢
      rw [runLines_go k1]
      obtain ⟨first, hf⟩ := grown t (.inl k1)
      exact join first t _ _ hf (ihg t k1 h.2 e' kb hok)
    · rw [runLines_again k2] at hok ⊢
      rw [runLines_again k1]
      obtain ⟨first, hf⟩ := grown t (.inr ⟨_, k1⟩)
      exact join first t _ _ hf (iha op' t k1 (by simp [isTransfer_again h.1 k1, h.2]) e' kb hok)
    · rw [runLines_stop k1]
      have more : ∃ more, (runLines (op :: rest) { s with env := e }).trace = s.trace ++ x :: (r ++ more) := by
        cases hk : microStep op { s with env := e } with
        | go u =>
          rw [hk] at k3; rw [runLines_go hk]
          obtain ⟨more, ok, g, -⟩ := runLines_transfer rest u h.2
          exact ⟨more, by rw [g.moved.trace, show u.trace = _ from k3]; simp⟩
        | again op' u =>
          rw [hk] at k3; rw [runLines_again hk]
          obtain ⟨more, ok, g, -⟩ := runLines_transfer (op' :: rest) u (by simp [isTransfer_again h.1 hk, h.2])
          exact ⟨more, by rw [g.moved.trace, show u.trace = _ from k3]; simp⟩
        | stop c u => rw [hk] at k3; rw [runLines_stop hk]; exact ⟨[], by rw [List.append_nil]; exact k3⟩
      obtain ⟨more, hmore⟩ := more
      exact ⟨[x], x :: (r ++ more), k2, hmore, by simp, fun h => by cases h⟩
    · rw [runLines_stop k] at hok; cases hok

/-! ### A measure of the events -/

/-- A measure of the events of a run: where every line's events measure at most its bound, and a line taken up again has what is
left of its bound, the run's measure at most the sum of the lines' bounds. The bound of a line of the rule may read the
configuration only. -/
theorem runLines_measured {measure : List PanelEvent → Nat} {bound : Micro → State → Nat} {Q : Config → Prop}
    (hnil : measure [] = 0) (happend : ∀ a b, measure (a ++ b) = measure a + measure b)
    (hstep : ∀ op s, Q s.cfg → ∃ events, (microStep op s).state.trace = s.trace ++ events ∧ measure events ≤ bound op s ∧
      ∀ op' t, microStep op s = .again op' t → measure events + bound op' t ≤ bound op s)
    (lines : List Micro) (hcongr : ∀ op ∈ lines, ∀ s t : State, t.cfg = s.cfg → bound op t = bound op s) (s : State)
    (hs : Q s.cfg) :
    ∃ events, (runLines lines s).trace = s.trace ++ events ∧ measure events ≤ (lines.map fun op => bound op s).sum := by
  have total : ∀ rest : List Micro, (∀ op ∈ rest, ∀ s t : State, t.cfg = s.cfg → bound op t = bound op s) →
      ∀ op s, Q s.cfg → ∃ events, (runLines (op :: rest) s).trace = s.trace ++ events ∧
        measure events ≤ bound op s + (rest.map fun o => bound o s).sum := by
    intro rest hc
    suffices ∀ lines s, (∃ op r, lines = op :: r ∧ (∀ o ∈ r, ∀ s t : State, t.cfg = s.cfg → bound o t = bound o s)) →
        Q s.cfg → ∀ op r, lines = op :: r → ∃ events, (runLines lines s).trace = s.trace ++ events ∧
          measure events ≤ bound op s + (r.map fun o => bound o s).sum from
      fun op s hq => this (op :: rest) s ⟨op, rest, rfl, hc⟩ hq op rest rfl
    intro lines s
    induction lines, s using runLines_induct with
    | nil s => rintro ⟨_, _, e, -⟩; cases e
    | cons op rest s ihg iha =>
      rintro ⟨_, _, e, hc⟩ hq _ _ e'
      cases e; cases e'
      obtain ⟨events, h1, h2, h3⟩ := hstep op s hq
      have hcfg := (microStep_sameHost op s).cfg
      have sums : ∀ t : State, t.cfg = s.cfg → (rest.map fun o => bound o t).sum = (rest.map fun o => bound o s).sum :=
        fun t ht => congrArg _ (List.map_congr_left fun o ho => hc o ho s t ht)
      cases hm : microStep op s with
      | go t =>
        rw [hm] at h1 hcfg
        have ht : t.cfg = s.cfg := hcfg
        rw [runLines_go hm]
        have : ∃ more, (runLines rest t).trace = t.trace ++ more ∧ measure more ≤ (rest.map fun o => bound o t).sum := by
          cases rest with
          | nil => exact ⟨[], by simp, by simp [hnil]⟩
          | cons o r =>
            obtain ⟨more, m1, m2⟩ := ihg t hm ⟨o, r, rfl, fun x hx => hc x (.tail _ hx)⟩ (by rw [ht]; exact hq) o r rfl
            exact ⟨more, m1, by simpa using m2⟩
        obtain ⟨more, m1, m2⟩ := this
        rw [sums t ht] at m2
        exact ⟨events ++ more, by rw [m1, show t.trace = _ from h1, List.append_assoc], by rw [happend]; omega⟩
      | again op' t =>
        rw [hm] at h1 hcfg
        have ht : t.cfg = s.cfg := hcfg
        obtain ⟨more, m1, m2⟩ := iha op' t hm ⟨op', rest, rfl, hc⟩ (by rw [ht]; exact hq) op' rest rfl
        rw [sums t ht] at m2
        have := h3 op' t hm
        rw [runLines_again hm]
        exact ⟨events ++ more, by rw [m1, show t.trace = _ from h1, List.append_assoc], by rw [happend]; omega⟩
      | stop c t =>
        rw [hm] at h1
        exact ⟨events, by rw [runLines_stop hm]; exact h1, by omega⟩
  cases lines with
  | nil => exact ⟨[], by simp, by simp [hnil]⟩
  | cons op rest =>
    obtain ⟨events, h1, h2⟩ := total rest (fun o ho => hcongr o (.tail _ ho)) op s hs
    exact ⟨events, h1, by simpa using h2⟩

end Sys2Proof.Machine
end

