-- ==== Sys2Proof/Tests/Slice0.lean ====
section
/-! SUPPORT. Tests/Slice0.lean: tests whose expected values are the spec's own examples (95_test_vectors.md, cited E, V or P,
and the rules' examples), the smoke tests of WellFormed, and for each obligation a state and operands that meet its
hypotheses (`test_hyp_<its name>`). -/

namespace Sys2Proof.Tests

open Sys2Proof.Machine

/-! ### The small panel of 95_test_vectors.md -/

/-- The panel test instance of 95_test_vectors.md. -/
def testProgram : PanelProgram where
  cmdTemp := 0x18
  dataTemp := [0x80]
  cmdSoftstart := 0x0C
  dataSoftstart := [0xAA]
  drvoutTail := [0x00]
  cmdBorder := 0x3C
  dataBorder := [0xBB]
  dataEntry := 0x03
  xUnit := .pixel
  cmdRam2 := 0x26
  dataSleep := 0x01
  refreshFull := 0xF7
  refreshFast := 0xCC

/-- The small panel: W = 16, H = 8, BUSY_POLL_CAP = 3. -/
def small : Config := ⟨16, 8, 3, false, .perTransaction, testProgram, ⟨0, 0, 0, 0, 0⟩⟩

/-- The default panel's geometry with the test instance. -/
def large : Config := { small with width := 800, height := 480 }

/-- The block of the small panel out of reset. -/
def fresh : State := State.ofConfig small

/-- The block of the default panel out of reset. -/
def freshLarge : State := State.ofConfig large

/-- The argument registers set. -/
def withArgs (a0 a1 a2 a3 : Half) (s : State) : State := { s with args := ⟨a0, a1, a2, a3⟩ }

/-- The environment's next answers and BUSY levels listed. -/
def withDraws (answers busy : List Bool) (s : State) : State := { s with env := ⟨answers, busy, 0, 0, 0, 0⟩ }

/-- 48 answers ok. -/
def allOk : List Bool := List.replicate 48 true

/-- Out of reset with the session open (after V5.1). -/
def inSession : State := { fresh with pstate := .idle, init := true, lines := ⟨true, true, true, true⟩ }

/-- One command issued and completed (R60). -/
def after (i : Instr) (s : State) : State := afterCommands [i] s

/-- One pending host access. -/
def withAct (a : HostAct) (s : State) : State := { s with inbox := [.act 0 a] }

/-- The state after one step. -/
def stepped (s : State) : State :=
  match step s with
  | .next t => t
  | .fault _ => s
  | .refused _ => s

/-- A command word accepted, nothing of it executed. -/
def accepted (w : Word) (s : State) : State := s.accept w

/-! ### Decoding (V1, R56, R61) -/

theorem test_decode_setPixel : decode 0x00000110 = .ok (.fbSetPixel .black) := by decide
theorem test_decode_hLine : decode 0x00000011 = .ok (.fbHLine .white) := by decide
theorem test_decode_vLine : decode 0x00000112 = .ok (.fbVLine .black) := by decide
theorem test_decode_rect : decode 0x00000113 = .ok (.fbRect .black) := by decide
theorem test_decode_fillRect : decode 0x00000014 = .ok (.fbFillRect .white) := by decide
theorem test_decode_clear : decode 0x00000015 = .ok .fbClear := by decide
theorem test_decode_fill : decode 0x00000116 = .ok (.fbFill .black) := by decide
theorem test_decode_loadBegin : decode 0x00000018 = .ok .fbLoadBegin := by decide
theorem test_decode_loadByte : decode 0x00AB0019 = .ok (.fbLoadByte 0xAB) := by decide
theorem test_decode_loadCommit : decode 0x0000001A = .ok .fbLoadCommit := by decide
theorem test_decode_loadPb : decode 0x0000001B = .ok .fbLoadPb := by decide
theorem test_decode_pipeBegin : decode 0x00000020 = .ok .pipeBegin := by decide
theorem test_decode_pipePix : decode 0x007F0021 = .ok (.pipePix 127) := by decide
theorem test_decode_pipeAbort : decode 0x00000022 = .ok .pipeAbort := by decide
theorem test_decode_pnlInit : decode 0x00000030 = .ok .pnlInit := by decide
theorem test_decode_pnlClear : decode 0x00000231 = .ok (.pnlClear .fast) := by decide
theorem test_decode_pnlDisplay : decode 0x00000432 = .ok (.pnlDisplay .full .pb) := by decide
theorem test_decode_pnlDisplay_fast : decode 0x00000232 = .ok (.pnlDisplay .fast .fb) := by decide
theorem test_decode_pnlSleep : decode 0x00000033 = .ok .pnlSleep := by decide
theorem test_decode_pnlCleanup : decode 0x00000034 = .ok .pnlCleanup := by decide

/-- V1.3, V1.4, V1.5, V1.6, V1.7, V1.12, V1.14, V1.15, V1.16. -/
theorem test_decode_illegal :
    decode 0x00000115 = .error .unusedField ∧ decode 0x00000017 = .error .unassignedOp ∧
    decode 0x00000810 = .error .reservedBits ∧ decode 0x01000010 = .error .reservedBits ∧
    decode 0x00010010 = .error .unusedField ∧ decode 0x00000431 = .error .unusedField ∧
    decode 0x00000230 = .error .unusedField ∧ decode 0x00000000 = .error .unassignedOp ∧
    decode 0xFFFFFFFF = .error .reservedBits := by decide

theorem test_decodeTableWord :
    decodeTableWord 32 0x00AB0019 = some (.fbLoadByte 0xAB) ∧ decodeTableWord 16 0x0110 = some (.fbSetPixel .black) ∧
    decodeTableWord 32 0x17 = none := by decide

/-- The assembler spellings of V1. -/
theorem test_commandWord :
    commandWord { mnemonic := .FB_FILL, c := some .black } = 0x00000116 ∧
    commandWord { mnemonic := .PNL_DISPLAY, m := some .fast, s := some .pb } = 0x00000632 ∧
    commandWord { mnemonic := .FB_LOAD_BYTE, byte := some 0xAB } = 0x00AB0019 ∧
    commandWord { mnemonic := .PIPE_PIX, byte := some 127 } = 0x007F0021 := by decide

/-! ### Smoke tests of WellFormed: one ill-formed term for each check -/

theorem test_wf_config : small.wf = true ∧ large.wf = true := by decide
theorem test_wf_width_low : ({ small with width := 0 } : Config).wf = false := by decide
theorem test_wf_width_high : ({ small with width := 65536 } : Config).wf = false := by decide
theorem test_wf_width_eight : ({ small with width := 12 } : Config).wf = false := by decide
theorem test_wf_height_low : ({ small with height := 0 } : Config).wf = false := by decide
theorem test_wf_height_high : ({ small with height := 65536 } : Config).wf = false := by decide
theorem test_wf_height_eight : ({ small with height := 9 } : Config).wf = false := by decide
theorem test_wf_size : ({ small with width := 65528, height := 136 } : Config).wf = false := by decide
theorem test_wf_cap : ({ small with busyPollCap := 0 } : Config).wf = false := by decide
theorem test_wf_byteUnit :
    ({ small with width := 2056, program := { testProgram with xUnit := .byte } } : Config).wf = false := by decide
theorem test_wf_line_colour : ({ mnemonic := .FB_CLEAR, c := some .white } : CommandLine).wf = false := by decide
theorem test_wf_line_mode : ({ mnemonic := .PNL_INIT, m := some .full } : CommandLine).wf = false := by decide
theorem test_wf_line_source : ({ mnemonic := .PNL_CLEAR, s := some .fb } : CommandLine).wf = false := by decide
theorem test_wf_line_byte : ({ mnemonic := .FB_FILL, byte := some 0 } : CommandLine).wf = false := by decide
theorem test_wf_line_byteRange : ({ mnemonic := .PIPE_PIX, byte := some 256 } : CommandLine).wf = false := by decide
theorem test_wf_asm_signed :
    (AsmLine.setPixel 32768 0 .black).wf = false ∧ (AsmLine.setPixel 0 (-32769) .black).wf = false ∧
    (AsmLine.args (some (-32768)) (some 32767) none none).wf = true := by decide
theorem test_wf_asm_unsigned :
    (AsmLine.hLine 0 0 65536 .black).wf = false ∧ (AsmLine.vLine 0 0 65536 .black).wf = false ∧
    (AsmLine.rect 0 0 0 65536 .black).wf = false ∧ (AsmLine.fillRect 0 0 65536 0 .black).wf = false ∧
    (AsmLine.loadImage 65536 1 []).wf = false ∧ (AsmLine.loadImageFailed 1 65536 []).wf = false ∧
    (AsmLine.args none none (some 65536) none).wf = false := by decide
theorem test_wf_asm_window : (AsmLine.rdb .fb 1048576).wf = false ∧ (AsmLine.rdb .pb 1048575).wf = true := by decide
theorem test_wf_asm_command : (AsmLine.command { mnemonic := .FB_CLEAR, c := some .black }).wf = false := by decide

/-- The machine refuses a geometry outside the limits (U16). -/
theorem test_refuses_geometry :
    step (State.ofConfig { small with width := 12 }) = .refused .geometryOutsideModel := by rfl

/-! ### Framebuffer commands (E1 to E4, V2, V3) -/

/-- E1.1. -/
theorem test_setPixel :
    (after (.fbSetPixel .black) (withArgs 3 1 0 0 freshLarge)).fb = [(100, 0xEF)] := by decide

/-- E1.8, E1.9: out of bounds. -/
theorem test_setPixel_outside :
    (after (.fbSetPixel .black) (withArgs 0xFFFF 5 0 0 freshLarge)).fb = [] ∧
    (after (.fbSetPixel .black) (withArgs 0 480 0 0 freshLarge)).result.word = 0x00100000 := by decide

/-- V2.1. -/
theorem test_hLine : (after (.fbHLine .black) (withArgs 0xFFFE 0 5 0 freshLarge)).fb = [(0, 0x1F)] := by decide

/-- V2.4: no wrap to row 1. -/
theorem test_hLine_rightEdge :
    (after (.fbHLine .black) (withArgs 798 0 5 0 freshLarge)).fb = [(99, 0xFC)] := by decide

/-- V2.8. -/
theorem test_vLine :
    (after (.fbVLine .black) (withArgs 799 478 5 0 freshLarge)).fb = [(47899, 0xFE), (47999, 0xFE)] := by decide

/-- V2.9. -/
theorem test_rect :
    (after (.fbRect .black) (withArgs 8 0 3 2 freshLarge)).fb = [(1, 0x1F), (101, 0x1F)] := by decide

/-- V2.12: width 0. -/
theorem test_rect_zeroWidth :
    (after (.fbRect .black) (withArgs 10 10 0 3 freshLarge)).fb = [(1001, 0x9F), (1101, 0x9F), (1201, 0x9F)] := by decide

/-- E4.2. -/
theorem test_fillRect :
    (after (.fbFillRect .black) (withArgs 0xFFFC 0xFFFF 8 3 freshLarge)).fb = [(0, 0x0F), (100, 0x0F)] := by decide

/-- E4.4 (w = 0), and E4.3's first row in white. -/
theorem test_fillRect_white :
    (after (.fbFillRect .black) (withArgs 10 10 0 5 freshLarge)).fb = [] ∧
    (after (.fbFillRect .white) (withArgs 4 0 8 1 { freshLarge with fb := [(0, 0), (1, 0)] })).fb =
      [(0, 0x0F), (1, 0xF0)] := by decide

/-- E2.1. -/
theorem test_clear :
    Memory.bytes 16 (after .fbClear { fresh with fb := [(0, 0x12), (15, 0)] }).fb = List.replicate 16 0xFF := by decide

/-- E2.2. -/
theorem test_fill_black : Memory.bytes 16 (after (.fbFill .black) fresh).fb = List.replicate 16 0x00 := by decide

/-- E2.3. -/
theorem test_fill_white :
    Memory.bytes 16 (after (.fbFill .white) { fresh with fb := [(3, 0x12)] }).fb = List.replicate 16 0xFF := by decide

/-- V3.1. -/
theorem test_loadBegin :
    (after .fbLoadBegin fresh).statusWord = 0x00000008 ∧ (after .fbLoadBegin fresh).result.word = 0x00180000 := by decide

/-- V3.2. -/
theorem test_loadByte :
    (after (.fbLoadByte 0xAB) { fresh with loadAct := true }).stage = [(0, 0xAB)] ∧
    (after (.fbLoadByte 0xAB) { fresh with loadAct := true }).loadCnt = 1 := by decide

/-- V3.4, V3.8. -/
theorem test_loadByte_edges :
    (after (.fbLoadByte 0xAB) fresh).result.word = 0x00190007 ∧
    (after (.fbLoadByte 0) { fresh with loadAct := true, loadCnt := 17 }).loadCnt = 17 := by decide

/-- STAGE full with the bytes 00 to 0F. -/
def staged : State :=
  { fresh with loadAct := true, loadCnt := 16, stage := (List.range 16).map fun i => (i, BitVec.ofNat 8 i) }

/-- E3.1, V3.6. -/
theorem test_loadCommit :
    (after .fbLoadCommit staged).readValue 0x100000 .four = 0x03020100 ∧
    (after .fbLoadCommit staged).readValue 0x10000C .four = 0x0F0E0D0C ∧
    (after .fbLoadCommit staged).result.word = 0x001A0000 := by decide

/-- E3.2, V3.5. -/
theorem test_loadCommit_refused :
    (after .fbLoadCommit { staged with loadCnt := 15 }).result.word = 0x001A0002 ∧
    (after .fbLoadCommit fresh).result.word = 0x001A0007 := by decide

/-- PB as V4.17 leaves it. -/
def imageBytes : Memory := [(6, 0xFD), (7, 0x7F), (8, 0xFE), (9, 0xBF)]

/-- V3.10. -/
theorem test_loadPb : (after .fbLoadPb { fresh with pbValid := true, pb := imageBytes }).fb = imageBytes := by decide

/-- V3.9. -/
theorem test_loadPb_refused : (after .fbLoadPb fresh).result.word = 0x001B0008 := by decide

/-! ### Image unit (E5, V4) -/

/-- E5.1, E5.4, E5.7, E5.8, V4.8, V4.9. -/
theorem test_scale :
    scaleToFit large 1600 960 = (800, 480) ∧ scaleToFit large 801 481 = (799, 480) ∧
    scaleToFit large 65535 65535 = (480, 480) ∧ scaleToFit large 1078 480 = (800, 356) ∧
    scaleToFit large 1 10000 = (0, 480) ∧ scaleToFit large 0 5 = (0, 0) := by decide

/-- V4.11. -/
theorem test_pipeBegin :
    let t := after .pipeBegin (withArgs 0 0 4 2 { fresh with pb := [(0, 0)] })
    t.image.dimWord = 0x00020004 ∧ t.image.offWord = 0x00030006 ∧ t.pipeAct = true ∧ t.pb = [] := by decide

/-- V4.15: EmptyImage. -/
theorem test_pipeBegin_empty :
    let t := after .pipeBegin (withArgs 0 0 17 1 { fresh with pb := [(0, 0)], pbValid := true })
    t.image.dimWord = 0x00000010 ∧ t.image.offWord = 0x00040000 ∧ t.result.word = 0x00200004 ∧ t.pb = [(0, 0)] ∧
    t.pbValid = false := by decide

/-- An image of 4 by 2 being streamed, with `n` pixels come (V4.11). -/
def streaming (n : Word) : State := { fresh with pipeAct := true, image := ⟨4, 2, 6, 3, n⟩ }

/-- V4.18, V4.19. -/
theorem test_pipePix :
    (after (.pipePix 0x7F) (streaming 0)).pb = [(6, 0xFD)] ∧ (after (.pipePix 0x80) (streaming 0)).pb = [] ∧
    (after (.pipePix 0x7F) (streaming 0)).image.cnt = 1 := by decide

/-- V4.17's last pixel, (9, 4); V4.20. -/
theorem test_pipePix_last :
    let t := after (.pipePix 0x00) (streaming 7)
    t.pb = [(9, 0xBF)] ∧ t.pbValid = true ∧ t.pipeAct = false ∧ (after (.pipePix 0) t).result.word = 0x00210007 := by
  decide

/-- V4.21. -/
theorem test_pipeAbort :
    let t := after .pipeAbort { streaming 3 with pb := [(6, 0xFC)] }
    t.result.word = 0x00220003 ∧ t.pipeAct = false ∧ t.pbValid = false ∧ t.pb = [(6, 0xFC)] := by decide

/-! ### Panel commands (E7, E8, V5, V6, V7) -/

/-- HR of 95_test_vectors.md. -/
def resetPulse : List PanelEvent :=
  [ .line .rstN true, .wait .rstPre, .line .rstN false, .wait .rstLow, .line .rstN true, .wait .rstPost ]

/-- IP of 95_test_vectors.md, the 28 events. -/
def registerEvents : List PanelEvent :=
  [ .cmd 0x18, .data 0x80, .cmd 0x0C, .data 0xAA, .cmd 0x01, .data 0x07, .data 0x00, .data 0x00, .cmd 0x3C, .data 0xBB,
    .cmd 0x11, .data 0x03, .cmd 0x44, .data 0x00, .data 0x00, .data 0x0F, .data 0x00 ] ++
  [ .cmd 0x45, .data 0x00, .data 0x00, .data 0x07, .data 0x00, .cmd 0x4E, .data 0x00, .data 0x00,
    .cmd 0x4F, .data 0x00, .data 0x00 ]

/-- V5.2. -/
theorem test_pnlInit :
    let t := after .pnlInit (withDraws allOk [true, false, false] fresh)
    t.trace = [.line .pwrEn true] ++ resetPulse ++
      [.cmd 0x12, .sample true, .wait .poll, .sample false] ++ registerEvents ++ [.sample false] ∧
    t.result.word = 0x00300000 ∧ t.statusWord = 0x00000402 ∧ t.lines = ⟨true, true, true, true⟩ := by decide

/-- V7.4: a timeout, then a failed answer. -/
theorem test_pnlInit_fails :
    let t := after .pnlInit (withDraws (List.replicate 8 true ++ [false]) [true, true, true] fresh)
    t.trace.getLast? = some (.cmd 0x18) ∧ t.result.word = 0x00300101 ∧ t.statusWord = 0x00010000 := by decide

/-- V5.5. -/
theorem test_pnlClear :
    let t := after (.pnlClear .fast) (withDraws allOk [false] { inSession with fb := [(0, 0)] })
    t.trace = [.cmd 0x24] ++ List.replicate 16 (.data 0xFF) ++ [.cmd 0x22, .data 0xCC, .cmd 0x20, .sample false] ∧
    t.fb = [] ∧ t.result.word = 0x00310000 := by decide

/-- V7.5. -/
theorem test_pnlClear_fails :
    let t := after (.pnlClear .full) (withDraws (List.replicate 19 true ++ [false]) [] { inSession with fb := [(0, 0)] })
    t.trace.getLast? = some (.cmd 0x20) ∧ t.result.word = 0x00310001 ∧ t.fb = [] ∧ t.init = false := by decide

/-- V5.6. -/
theorem test_pnlDisplay :
    let t := after (.pnlDisplay .fast .fb) (withDraws allOk [true, false] { inSession with fb := [(0, 0x0F)] })
    t.trace = [.cmd 0x24, .data 0x0F] ++ List.replicate 15 (.data 0xFF) ++
      [.cmd 0x22, .data 0xCC, .cmd 0x20, .sample true, .wait .poll, .sample false] ∧ t.result.word = 0x00320000 := by decide

/-- E8.2: BUSY stuck high. -/
theorem test_pnlDisplay_timeout :
    let t := after (.pnlDisplay .full .fb) (withDraws allOk [true, true, true] inSession)
    t.result.word = 0x00320100 ∧ t.statusWord = 0x00010402 ∧
    t.trace.drop 20 = [.sample true, .wait .poll, .sample true, .wait .poll, .sample true] := by decide

/-- V5.8. -/
theorem test_pnlSleep :
    let t := after .pnlSleep (withDraws allOk [] inSession)
    t.trace = [.cmd 0x10, .data 0x01, .wait .sleep] ∧ t.result.word = 0x00330000 ∧ t.statusWord = 0x00000700 := by decide

/-- V7.7. -/
theorem test_pnlSleep_fails :
    let t := after .pnlSleep (withDraws [true, false] [] inSession)
    t.trace = [.cmd 0x10, .data 0x01] ∧ t.result.word = 0x00330001 ∧ t.statusWord = 0 := by decide

/-- V5.12, V5.13. -/
theorem test_pnlCleanup :
    let t := after .pnlCleanup (withDraws [true] [] fresh)
    t.trace = [.line .pwrEn false] ∧ t.statusWord = 0x00000020 ∧
    (after .pnlCleanup t).trace = [.line .pwrEn false] ∧ (after .pnlCleanup t).result.word = 0x00340000 := by decide

/-- V7.8. -/
theorem test_pnlCleanup_fails :
    let t := after .pnlCleanup (withDraws [false] [] inSession)
    t.result.word = 0x00340001 ∧ t.statusWord = 0x00000020 ∧ t.lines.pwrEn = false := by decide

/-- V5.7, V5.14, V5.15, V5.16: the order of the checks. -/
theorem test_checkOrder :
    (after (.pnlDisplay .full .pb) inSession).result.word = 0x00320008 ∧
    (after .pnlInit { fresh with released := true }).result.word = 0x00300001 ∧
    (after (.pnlDisplay .full .fb) { fresh with released := true }).result.word = 0x00320001 ∧
    (after (.pnlClear .full) { fresh with fb := [(0, 0)] }).fb = [(0, 0)] := by decide

/-- V5's wire view of the first transaction of IP. -/
theorem test_wireView :
    wireView .perTransaction [.cmd 0x18, .data 0x80] =
      [.dc false, .csN false, .byte 0x18, .csN true, .dc true, .csN false, .byte 0x80, .csN true] := by decide

/-! ### Host accesses (V8, V9) and the step -/

/-- FB as P1 leaves it. -/
def drawn : State :=
  { fresh with fb := [ (0, 0x00), (1, 0x00), (2, 0x40), (3, 0x02), (4, 0x40), (5, 0x02), (6, 0x4F), (7, 0xF2), (8, 0x4F),
                       (9, 0xF2), (10, 0x40), (11, 0x02), (12, 0x7F), (13, 0xFE), (14, 0xE0), (15, 0x00) ] }

/-- V8.1, V8.2, V8.4, V8.5, V8.7. -/
theorem test_windowRead :
    drawn.readValue 0x100000 .four = 0x02400000 ∧ drawn.readValue 0x100004 .four = 0xF24F0240 ∧
    drawn.readValue 0x100006 .two = 0xF24F ∧ drawn.readValue 0x10000E .one = 0xE0 ∧
    drawn.readValue 0x100010 .four = 0 := by decide

/-- V8.6, V8.8, V8.11, V8.19. -/
theorem test_busError :
    (stepped (withAct (.read 0x100001 .two) drawn)).statusWord = 0x00040000 ∧
    (stepped (withAct (.write 0x100000 .one 0) drawn)).statusWord = 0x00040000 ∧
    (stepped (withAct (.read 0x000022 .two) drawn)).replies = [some 0] ∧
    (stepped (withAct (.read 0x300002 .four) drawn)).statusWord = 0x00040000 := by decide

/-- V8.9, V8.10, V8.12, V8.14, V8.18. -/
theorem test_registerRead :
    drawn.readValue 0x20 .four = 0x00080010 ∧ freshLarge.readValue 0x20 .four = 0x01E00320 ∧
    freshLarge.readValue 0x24 .four = 0x0000BB80 ∧ drawn.readValue 0x38 .four = 0 ∧ drawn.readValue 0 .four = 0 ∧
    (stepped (withAct (.read 0x300001 .one) drawn)).statusWord = 0 := by decide

/-- V8.13. -/
theorem test_argWrite :
    (stepped (withAct (.write 0x10 .four 0x1234FFFD) fresh)).readValue 0x10 .four = 0x0000FFFD := by decide

/-- V8.16. -/
theorem test_stickyClear :
    (stepped (withAct (.write 0x0C .four 0x00040000) { fresh with sticky := ⟨true, true, true⟩ })).sticky =
      ⟨true, true, false⟩ := by decide

/-- V8's dropped command. -/
theorem test_overrun :
    let t := stepped (withAct (.write 0 .four 0x15) (accepted 0x30 { fresh with fb := [(0, 0)] }))
    t.statusWord = 0x00020001 ∧ t.cur = 0x30 := by decide

/-- V1.3, V1.16: an illegal word leaves FB and keeps LASTOP. -/
theorem test_illegalWord :
    (stepped (accepted 0x00000115 { fresh with fb := [(0, 0)] })).result.word = 0x00150006 ∧
    (stepped (accepted 0xFFFFFFFF fresh)).result.word = 0x00FF0006 := by decide

/-- A CMD write, then the step that runs the command (E1.5). -/
theorem test_issue :
    let t := stepped (withAct (.write 0 .four 0x00000110) fresh)
    t.run = true ∧ (stepped t).fb = [(0, 0x7F)] ∧ (stepped t).run = false := by decide

/-- A word placed on the reset state runs in the very next step. -/
theorem test_withFetchWord :
    ∃ t, step (State.reset.withFetchWord 32 0x00000110) = .next t ∧ t.result.word = 0x00100000 := ⟨_, rfl, by decide⟩

/-- With nothing placed the block idles. -/
theorem test_idle : step State.reset = .next State.reset := by rfl

/-- P1's first line. -/
theorem test_assembler :
    expandLine (.fillRect 2 1 12 5 .black) =
      [ .act 0 (.write 0x10 .four 2), .act 0 (.write 0x14 .four 1), .act 0 (.write 0x18 .four 12),
        .act 0 (.write 0x1C .four 5), .act 0 (.write 0 .four 0x114), .waitIdle ] := by decide

/-- P1's last line writes x = −3 as FFFD. -/
theorem test_assembler_negative : (expandLine (.hLine (-3) 7 6 .white)).head? = some (.act 0 (.write 0x10 .four 0xFFFD)) := by
  decide

/-! ### States and operands that meet each obligation's hypotheses -/

theorem test_hyp_EncodeOfDecodeIsTheWord : decode 0x00AB0019 = .ok (.fbLoadByte 0xAB) := by decide

theorem test_hyp_IllegalWordsMatchNoRow :
    (∃ why, decode 0x00000017 = .error why) ∧ ¬ ∃ why, decode 0x00000016 = .error why :=
  ⟨⟨_, rfl⟩, fun ⟨why, h⟩ => by cases h⟩

/-- Every qualifier present, and an absent one. -/
theorem test_hyp_WellFormedLinesAssembleToLegalWords :
    let l : CommandLine := { mnemonic := .PNL_DISPLAY, m := some .fast, s := some .pb }
    (l.wf = true ∧ lineCommand l = .pnlDisplay .fast .pb) ∧
    ({ mnemonic := .FB_LOAD_BYTE, byte := some 255 } : CommandLine).wf = true ∧
    ({ mnemonic := .PNL_DISPLAY } : CommandLine).wf = true ∧
    lineCommand { mnemonic := .PNL_DISPLAY } = .pnlDisplay .full .fb := by decide

/-- A command accepted, with the host waiting for it. -/
def waited (w : Word) (s : State) : State := { accepted w s with inbox := [.waitIdle] }

theorem test_hyp_StepRunsTheAcceptedCommand :
    (small.wf = true ∧ (accepted 0x110 fresh).seq = .accepted ∧
      decode (accepted 0x110 fresh).cur = .ok (.fbSetPixel .black) ∧ (accepted 0x110 fresh).inbox = []) ∧
    (waited 0x110 fresh).seq = .accepted ∧ decode (waited 0x110 fresh).cur = .ok (.fbSetPixel .black) ∧
      (waited 0x110 fresh).inbox = [.waitIdle] := by decide

theorem test_hyp_IllegalWordCompletesAtOnce :
    (accepted 0x115 fresh).cfg.wf = true ∧ (accepted 0x115 fresh).seq = .accepted ∧
    decode (accepted 0x115 fresh).cur = .error .unusedField ∧ (accepted 0x115 fresh).inbox = [] := by decide

theorem test_hyp_CmdWriteIsAcceptedWhenIdle :
    let s := withAct (.write 0 .four 0x15) fresh
    s.cfg.wf = true ∧ s.resetN = true ∧ s.seq = .idle ∧ s.inbox = [.act 0 (.write 0 .four 0x15)] := by decide

theorem test_hyp_CmdWriteIsDroppedWhileRunning :
    let s := withAct (.write 0 .four 0x15) (accepted 0x30 fresh)
    s.cfg.wf = true ∧ s.resetN = true ∧ s.run = true ∧ s.inbox = [.act 0 (.write 0 .four 0x15)] := by decide

theorem test_hyp_SequencerStepsReachTheCommandsEnd :
    (accepted 0x30 fresh).seq = .accepted ∧ decode (accepted 0x30 fresh).cur = .ok .pnlInit := by decide

theorem test_hyp_ArgWriteLeavesTheRunningCommand :
    (accepted 0x111 fresh).run = true ∧ ({ fresh with seq := .running [.drawHLine .black] } : State).run = true := by decide

theorem test_hyp_ResultIsWrittenOnlyAtCompletion :
    ∃ s t : State, step s = .next t ∧ t.result ≠ s.result := ⟨accepted 0x17 fresh, _, rfl, by decide⟩

theorem test_hyp_ResultIsWrittenOnlyAtCompletion_reset :
    ∃ s t : State, step s = .next t ∧ t.result ≠ s.result ∧ s.inbox = [.act 0 (.resetN false)] :=
  ⟨withAct (.resetN false) { fresh with result := ⟨.illegalCommand, false, 0x17⟩ }, _, rfl, by decide, by decide⟩

theorem test_hyp_BufferCommandsLeaveThePanel :
    isPanel .fbClear = false ∧ isPanel (.pipePix 0) = false ∧ isPanel (.fbLoadByte 0) = false := by decide

theorem test_hyp_PanelCommandsLeaveTheBuffers :
    isPanel .pnlInit = true ∧ isPanel (.pnlClear .full) = true ∧ isPanel (.pnlDisplay .full .pb) = true ∧
    isPanel .pnlSleep = true ∧ isPanel .pnlCleanup = true := by decide

theorem fresh_inv : fresh.Inv := by constructor <;> decide

theorem test_hyp_StepKeepsInv : ∃ s t : State, s.Inv ∧ step s = .next t ∧ t.seq ≠ s.seq :=
  ⟨withAct (.write 0 .four 0x15) fresh, _, by constructor <;> decide, rfl, by decide⟩

theorem test_hyp_StepKeepsInv_running :
    ∃ s t : State, s.Inv ∧ step s = .next t ∧ t.seq ≠ s.seq ∧ s.run = true :=
  ⟨accepted 0x30 (withDraws [false] [] inSession), _, by constructor <;> decide, rfl, by decide, by decide⟩

theorem test_hyp_ConfigurationNeverChanges : ∃ s t : State, step s = .next t ∧ t.cfg = small ∧ t.seq ≠ s.seq :=
  ⟨accepted 0x17 fresh, _, rfl, by decide, by decide⟩

theorem test_hyp_BlockResetGivesTheResetValues :
    (let s := withAct (.resetN false) (accepted 0x30 fresh)
     s.cfg.wf = true ∧ s.inbox = [.act 0 (.resetN false)]) ∧
    (let s := withAct (.resetN true) { fresh with resetN := false }
     s.cfg.wf = true ∧ s.resetN = false ∧ s.inbox = [.act 0 (.resetN true)]) := by decide

theorem test_hyp_NoAccessIsAnsweredInReset :
    (let s := withAct (.write 0 .four 0x15) { fresh with resetN := false }
     s.cfg.wf = true ∧ s.resetN = false ∧ s.seq = .idle ∧ s.inbox = [.act 0 (.write 0 .four 0x15)]) ∧
    (let s := withAct (.read 4 .four) { fresh with resetN := false }
     s.cfg.wf = true ∧ s.resetN = false ∧ s.seq = .idle ∧ s.inbox = [.act 0 (.read 4 .four)]) := by decide

/-- The drawing statements: on the panel at its last pixel, and off it on either side. -/
theorem test_hyp_SetPixelColoursOnePixel :
    small.wf = true ∧ OnPanel small (accepted 0x110 (withArgs 15 7 0 0 fresh)).opX 7 ∧
    ¬ OnPanel small (accepted 0x110 (withArgs 16 7 0 0 fresh)).opX 7 ∧
    ¬ OnPanel small (accepted 0x110 (withArgs 0xFFFF 7 0 0 fresh)).opX 7 := by decide

/-- A run's boundary pixels: −2 + 4 = 2 is its last, 3 is outside. -/
theorem test_hyp_HLineColoursTheRun :
    let t := after (.fbHLine .black) (withArgs 0xFFFE 7 5 0 fresh)
    small.wf = true ∧ pixel small t.fb 0 7 = false ∧ pixel small t.fb 2 7 = false ∧ pixel small t.fb 3 7 = true ∧
    pixel small t.fb 0 6 = true := by decide

theorem test_hyp_VLineColoursTheRun :
    let t := after (.fbVLine .black) (withArgs 15 0xFFFE 5 0 fresh)
    small.wf = true ∧ pixel small t.fb 15 0 = false ∧ pixel small t.fb 15 2 = false ∧ pixel small t.fb 15 3 = true ∧
    pixel small t.fb 14 0 = true := by decide

theorem test_hyp_RectColoursTheOutline :
    let t := after (.fbRect .black) (withArgs 14 6 2 2 fresh)
    small.wf = true ∧ pixel small t.fb 14 6 = false ∧ pixel small t.fb 15 7 = false ∧ pixel small t.fb 13 6 = true := by
  decide

theorem test_hyp_FillRectColoursTheRectangle :
    let t := after (.fbFillRect .black) (withArgs 14 6 3 1 fresh)
    small.wf = true ∧ pixel small t.fb 14 6 = false ∧ pixel small t.fb 15 6 = false ∧ pixel small t.fb 13 6 = true ∧
    pixel small t.fb 14 7 = true := by decide

/-- LOAD_CNT at SIZE − 1, SIZE and SIZE + 1, a load open, and none open. -/
theorem test_hyp_LoadByteStagesOneByte :
    small.wf = true ∧ fresh.loadAct = false ∧ ({ staged with loadCnt := 15 } : State).loadAct = true ∧
    (after (.fbLoadByte 7) { staged with loadCnt := 15 }).loadCnt = 16 ∧
    (after (.fbLoadByte 7) staged).loadCnt = 17 ∧ (after (.fbLoadByte 7) staged).stage = staged.stage ∧
    (after (.fbLoadByte 7) { staged with loadCnt := 17 }).loadCnt = 17 := by decide

theorem test_hyp_LoadCommitReplacesFramebuffer :
    fresh.loadAct = false ∧ staged.loadAct = true ∧ staged.loadCnt.toNat = staged.cfg.size ∧
    ({ staged with loadCnt := 17 } : State).loadCnt.toNat ≠ small.size := by decide

theorem test_hyp_LoadPbCopiesTheImage : fresh.pbValid = false ∧ ({ fresh with pbValid := true } : State).pbValid = true := by
  decide

theorem test_hyp_LoadSucceedsExactlyAtSize :
    small.wf = true ∧ (List.replicate 16 (0 : Byte)).length = small.size ∧
    (List.replicate 17 (0 : Byte)).length ≠ small.size ∧ ([] : List Byte).length ≠ small.size := by decide

theorem test_hyp_ScaleIsTheExactMinimum : small.wf = true ∧ large.wf = true ∧ 0 < 1 ∧ 0 < 65535 := by decide

/-- An empty target and a full one (V4.15, V4.12). -/
theorem test_hyp_PipeBeginOpensAnImage :
    small.wf = true ∧ scaleToFit small 17 1 = (16, 0) ∧ scaleToFit small 64 8 = (16, 2) ∧ scaleToFit small 0 0 = (0, 0) := by
  decide

theorem test_hyp_PipePixPacksOnePixel :
    small.wf = true ∧ fresh.pipeAct = false ∧ (streaming 0).pipeAct = true ∧ (streaming 7).pipeAct = true ∧
    ((streaming 7).image.cnt + 1).toNat = 4 * 2 ∧ ((streaming 6).image.cnt + 1).toNat ≠ 4 * 2 := by decide

theorem test_hyp_CommandsKeepTheImageInv : small.wf = true ∧ fresh.ImageInv :=
  ⟨by decide, by
    constructor
    · intro h; cases h
    · intro h; cases h
    · decide
    · rintro (h | h) <;> cases h
    · rintro (h | h) <;> cases h⟩

/-- An image as wide and high as the panel, its last pixel still to come. -/
def almostDone : State := { fresh with pipeAct := true, image := ⟨16, 8, 0, 0, 127⟩ }

theorem test_hyp_CommandsKeepTheImageInv_streaming : almostDone.ImageInv := by
  constructor
  · intro _; decide
  · intro h; cases h
  · decide
  · intro _; decide
  · intro _ x y hx hy hout
    have hx' : x < 16 := hx
    have hy' : y < 8 := hy
    exact absurd ⟨Nat.zero_le x, by show x < 0 + 16; omega, Nat.zero_le y, by show y < 0 + 8; omega⟩ hout

theorem test_hyp_StreamedImageIsThePicture :
    let s := withArgs 0 0 4 2 fresh
    let d := scaleToFit s.cfg s.args.a2.toNat s.args.a3.toNat
    s.cfg.wf = true ∧ 0 < d.1 ∧ 0 < d.2 ∧
    ([0x00, 0xFF, 0x7F, 0x80, 0xC8, 0x0A, 0x80, 0x00] : List Byte).length = d.1 * d.2 := by decide

theorem test_hyp_InitRunsTheSequence :
    let s := withDraws allOk [] fresh
    s.released = false ∧ 1 ≤ s.cfg.busyPollCap ∧ s.AnswersOk (14 + parameterBytes s.cfg + 2 * s.cfg.busyPollCap) := by decide

/-- With the secondary bank and without it. -/
theorem test_hyp_ClearWhitensAndRefreshes :
    (let s := withDraws allOk [] inSession
     s.released = false ∧ s.init = true ∧ 1 ≤ s.cfg.busyPollCap ∧
     s.AnswersOk ((1 + s.cfg.size) * (if s.cfg.secondaryBankEn then 2 else 1) + 3 + s.cfg.busyPollCap)) ∧
    (let s := withDraws allOk [] { inSession with cfg := { small with secondaryBankEn := true } }
     s.released = false ∧ s.init = true ∧ 1 ≤ s.cfg.busyPollCap ∧
     s.AnswersOk ((1 + s.cfg.size) * (if s.cfg.secondaryBankEn then 2 else 1) + 3 + s.cfg.busyPollCap)) := by decide

theorem test_hyp_DisplaySendsTheBuffer :
    let s := withDraws allOk [] { inSession with pbValid := true }
    s.released = false ∧ s.init = true ∧ s.pbValid = true ∧ 1 ≤ s.cfg.busyPollCap ∧
    s.AnswersOk (4 + s.cfg.size + s.cfg.busyPollCap) := by decide

theorem test_hyp_SleepEndsTheSession :
    let s := withDraws allOk [] inSession
    s.released = false ∧ s.init = true ∧ s.AnswersOk 2 := by decide

theorem test_hyp_CleanupReleasesOnce :
    fresh.released = false ∧ ({ fresh with released := true } : State).released = true ∧
    (withDraws [true] [] fresh).env.answerAt 0 = true ∧ (withDraws [false] [] fresh).env.answerAt 0 = false := by decide

/-- A step in which RELEASED rises, and one in which it falls. -/
theorem test_hyp_CleanupReleasesOnce_steps :
    (∃ s t : State, s.Inv ∧ step s = .next t ∧ s.released = false ∧ t.released = true) ∧
    ∃ s t : State, s.Inv ∧ step s = .next t ∧ s.released = true ∧ t.released = false :=
  ⟨⟨accepted 0x34 (withDraws [true] [] fresh), _, by constructor <;> decide, rfl, by decide, by decide⟩,
    withAct (.resetN false) { fresh with released := true }, _, by constructor <;> decide, rfl, by decide, by decide⟩

theorem test_hyp_RefusedPanelCommandsChangeNothing :
    ({ inSession with released := true } : State).released = true ∧ (fresh.released = false ∧ fresh.init = false) ∧
    inSession.released = false ∧ inSession.init = true ∧ inSession.pbValid = false := by decide

theorem test_hyp_FirstFailedAnswerEndsTheSession :
    fresh.MayTransfer .pnlInit ∧ inSession.MayTransfer (.pnlClear .full) ∧ inSession.MayTransfer (.pnlDisplay .full .fb) ∧
    ({ inSession with pbValid := true } : State).MayTransfer (.pnlDisplay .full .pb) ∧ inSession.MayTransfer .pnlSleep ∧
    1 ≤ small.busyPollCap ∧ traceBound small .pnlInit ≤ 51 :=
  ⟨rfl, ⟨rfl, rfl⟩, ⟨rfl, rfl, by decide⟩, ⟨rfl, rfl, by decide⟩, ⟨rfl, rfl⟩, by decide, by decide⟩

/-- The tail of V7.4: the timeout is seen though a later event fails; a failed third sample is none. V7.7: DC is high after the
failed data byte. -/
theorem test_sawTimeout :
    sawTimeout false [.sample true, .wait .poll, .sample true, .wait .poll, .sample true, .cmd 0x18] = true ∧
    sawTimeout false [.sample true, .wait .poll, .sample true, .wait .poll, .sample true] = false ∧
    (linesAfter false [.cmd 0x10, .data 0x01] ⟨true, false, true, true⟩).dc = true := by decide

/-- A display of either buffer, a clear (with the secondary bank and without it) and an init. -/
theorem test_hyp_StuckBusyStillCompletes :
    let s := withDraws allOk (List.replicate 6 true) { inSession with pbValid := true }
    (s.released = false ∧ 1 ≤ s.cfg.busyPollCap ∧ (∀ j, j < 2 * s.cfg.busyPollCap → s.env.busyAt j = true) ∧
      s.init = true ∧ s.pbValid = true) ∧
    s.AnswersOk (4 + s.cfg.size + s.cfg.busyPollCap) ∧
    s.AnswersOk ((1 + s.cfg.size) * (if s.cfg.secondaryBankEn then 2 else 1) + 3 + s.cfg.busyPollCap) ∧
    s.AnswersOk (14 + parameterBytes s.cfg + 2 * s.cfg.busyPollCap) := by decide

theorem test_hyp_EveryTraceIsBounded : 1 ≤ fresh.cfg.busyPollCap := by decide

theorem test_hyp_BusyWaitTimeIsBounded : 1 ≤ (withDraws allOk [true, true, true] fresh).cfg.busyPollCap := by decide

/-- Ready at once, ready at the last sample, and timed out (V6.1, V6.3, V6.4). -/
theorem test_busyLevels :
    BusyLevels small.busyPollCap [false] ∧ BusyLevels small.busyPollCap [true, true, false] ∧
    BusyLevels small.busyPollCap [true, true, true] := by unfold BusyLevels; decide

/-- A command byte with no data (R95). -/
theorem test_wireView_command : wireView .perTransaction [.cmd 0x20] = [.dc false, .csN false, .byte 0x20, .csN true] := by
  decide

/-- The first bytes of FB, the last byte of PB, the first byte past SIZE and the last byte of the window. -/
theorem test_hyp_WindowReadIsLittleEndian :
    (fresh.cfg.wf = true ∧ fresh.resetN = true ∧ fresh.seq = .idle) ∧
    (0 % AccessSize.four.bytes = 0 ∧ (0x100000 : HostAddr).toNat = 0x100000 + 0) ∧
    (15 % AccessSize.one.bytes = 0 ∧ (0x20000F : HostAddr).toNat = 0x200000 + 15) ∧
    (16 % AccessSize.two.bytes = 0 ∧ (0x100010 : HostAddr).toNat = 0x100000 + 16) ∧
    (0xFFFFF < 0x100000 ∧ 0xFFFFF % AccessSize.one.bytes = 0 ∧ (0x1FFFFF : HostAddr).toNat = 0x100000 + 0xFFFFF) ∧
    (withAct (.read 0x100000 .four) fresh).inbox = [.act 0 (.read 0x100000 .four)] := by decide

/-- FB while an image is opened, PB while FB is drawn, and an illegal word accepted; 1, 2 and 4 bytes, the last byte of the
buffer among them. -/
theorem test_hyp_SettledWindowByteIsExact :
    (let s := withAct (.read 0x10000C .four) (accepted 0x20 fresh)
     s.cfg.wf = true ∧ s.resetN = true ∧ s.run = true ∧ decode s.cur = .ok .pipeBegin ∧
     Instr.pipeBegin.opcode ∉ [0x10, 0x11, 0x12, 0x13, 0x14, 0x15, 0x16, 0x1A, 0x1B, 0x31] ∧
     12 % AccessSize.four.bytes = 0 ∧ (0x10000C : HostAddr).toNat = 0x100000 + 12 ∧
     s.inbox = [.act 0 (.read 0x10000C .four)]) ∧
    (let s := withAct (.read 0x20000F .one) (accepted 0x15 fresh)
     s.run = true ∧ decode s.cur = .ok .fbClear ∧ Instr.fbClear.opcode ∉ [0x20, 0x21] ∧
     15 % AccessSize.one.bytes = 0 ∧ (0x20000F : HostAddr).toNat = 0x200000 + 15) ∧
    (let s := withAct (.read 0x100000 .two) (accepted 0x115 fresh)
     s.run = true ∧ decode s.cur = .error .unusedField ∧ 0 % AccessSize.two.bytes = 0) := by decide

/-- A bad register access, a misaligned one at the first and last windows and past them, and a window write. -/
theorem test_hyp_IllegalAccessSetsBerr :
    ((0x0FFFFE : HostAddr).toNat < 0x100000 ∧ ¬ (AccessSize.two = .four ∧ (0x0FFFFE : HostAddr).toNat % 4 = 0)) ∧
    (0x100000 ≤ (0x100001 : HostAddr).toNat ∧ (0x100001 : HostAddr).toNat % AccessSize.two.bytes ≠ 0) ∧
    (0x100000 ≤ (0x3FFFFF : HostAddr).toNat ∧ (0x3FFFFF : HostAddr).toNat % AccessSize.four.bytes ≠ 0) ∧
    (0x100000 ≤ (0x2FFFFF : HostAddr).toNat ∧ (0x2FFFFF : HostAddr).toNat < 0x300000) ∧
    (fresh.cfg.wf = true ∧ fresh.resetN = true) ∧
    (withAct (.read 0x100001 .two) fresh).inbox = [.act 0 (.read 0x100001 .two)] ∧
    (withAct (.write 0x2FFFFF .one 0) fresh).inbox = [.act 0 (.write 0x2FFFFF .one 0)] := by decide

theorem test_hyp_ReadOnlyWritesAreIgnored :
    (0x34 : HostAddr).toNat ∈ [0x04, 0x08, 0x20, 0x24, 0x28, 0x2C, 0x30, 0x34] ∧
    (0x38 ≤ (0x38 : HostAddr).toNat ∧ (0x38 : HostAddr).toNat < 0x100000 ∧ (0x38 : HostAddr).toNat % 4 = 0) ∧
    (0x38 ≤ (0x0FFFFC : HostAddr).toNat ∧ (0x0FFFFC : HostAddr).toNat < 0x100000 ∧ (0x0FFFFC : HostAddr).toNat % 4 = 0) ∧
    (0x300000 ≤ (0x300000 : HostAddr).toNat ∧ (0x300000 : HostAddr).toNat % AccessSize.four.bytes = 0) ∧
    (withAct (.write 0x34 .four 1) (accepted 0x30 fresh)).inbox = [.act 0 (.write 0x34 .four 1)] := by decide

/-- With no command running and with one. -/
theorem test_hyp_RegisterReadHasNoSideEffect :
    (let s := withAct (.read 0x34 .four) fresh
     s.cfg.wf = true ∧ s.resetN = true ∧ s.run = false ∧ (0x34 : HostAddr).toNat < 0x100000 ∧
     (0x34 : HostAddr).toNat % 4 = 0 ∧ (0x38 : HostAddr).toNat % 4 = 0 ∧ (0x0FFFFC : HostAddr).toNat < 0x100000 ∧
     s.inbox = [.act 0 (.read 0x34 .four)]) ∧
    (let s := withAct (.read 4 .four) (accepted 0x30 fresh)
     s.cfg.wf = true ∧ s.resetN = true ∧ s.run = true ∧ s.inbox = [.act 0 (.read 4 .four)]) := by decide

/-- R132: STATUS read while a command runs has RUN = 1, and RESULT is the previous command's. -/
theorem test_readWhileRunning :
    (stepped (withAct (.read 4 .four) (accepted 0x30 fresh))).replies = [some 1] ∧
    (stepped (withAct (.read 8 .four) (accepted 0x30 { fresh with result := ⟨.sequenceError, false, 0x19⟩ }))).replies =
      [some 0x00190007] := by decide

theorem test_hyp_CounterReadIsOldOrNew :
    (accepted 0x20 fresh).run = true ∧ ({ fresh with seq := .running [.clearLoadCnt] } : State).run = true := by decide

theorem test_hyp_StickyClearIsWriteOneToClear :
    let s := withAct (.write 0x0C .four 0x00070000) { fresh with sticky := ⟨true, true, true⟩ }
    s.cfg.wf = true ∧ s.resetN = true ∧ s.inbox = [.act 0 (.write 0x0C .four 0x00070000)] := by decide

theorem test_hyp_ArgWriteKeepsTheLowHalf :
    let s := withAct (.write 0x1C .four 0x00018000) fresh
    s.cfg.wf = true ∧ s.resetN = true ∧ s.inbox = [.act 0 (.write 0x1C .four 0x00018000)] ∧
    (stepped s).args.a3 = 0x8000 := by decide

end Sys2Proof.Tests
end

/-! PROOFS. What a step can do to the block, and the invariant of every step (R15, R18, R20, R25, R28, R31,
R32, R38, R129). -/

namespace Sys2Proof.Machine

/-! ### What a host input can do -/

/-- R42, R43, R60, R129: all that an input does to the block. It resets it; or it is a CMD write accepted with no command
running; or it writes an argument register; or it touches only the sticky bits, the draws and the replies. -/
theorem State.takeAct_cases (a : HostAct) (s : State) :
    (∃ level, a = .resetN level ∧ s.takeAct a = s.blockReset level) ∨
    (∃ w, s.resetN = true ∧ s.seq = .idle ∧ s.takeAct a = s.accept w) ∨
    (∃ k v, s.takeAct a = s.writeArg k v) ∨
    (∃ env sticky replies, s.takeAct a = { s with env := env, sticky := sticky, replies := replies }) := by
  cases a with
  | resetN level =>
    simp only [State.takeAct]
    split
    · exact .inr (.inr (.inr ⟨s.env, s.sticky, s.replies, rfl⟩))
    · exact .inl ⟨level, rfl, rfl⟩
  | read addr n =>
    simp only [State.takeAct]
    split
    · rw [State.afterRead_eq]
      exact .inr (.inr (.inr ⟨_, _, _, rfl⟩))
    · exact .inr (.inr (.inr ⟨s.env, s.sticky, _, rfl⟩))
  | write addr n v =>
    simp only [State.takeAct]
    split
    case isFalse => exact .inr (.inr (.inr ⟨s.env, s.sticky, s.replies, rfl⟩))
    case isTrue hr =>
      cases hl : legalWrite addr.toNat n with
      | false =>
        rw [State.afterWrite_illegal hl]
        exact .inr (.inr (.inr ⟨s.env, _, s.replies, rfl⟩))
      | true =>
        rcases State.afterWrite_legal (s := s) hl v with ⟨-, h⟩ | ⟨-, h⟩ | ⟨k, -, h⟩ | h <;> rw [h]
        · cases hrun : s.run with
          | false => exact .inr (.inl ⟨v, hr, s.run_eq_false.1 hrun, by simp [State.issue, hrun]⟩)
          | true => exact .inr (.inr (.inr ⟨s.env, _, s.replies, by simp [State.issue, hrun]; rfl⟩))
        · exact .inr (.inr (.inr ⟨s.env, _, s.replies, rfl⟩))
        · exact .inr (.inr (.inl ⟨k, v, rfl⟩))
        · exact .inr (.inr (.inr ⟨s.env, s.sticky, s.replies, rfl⟩))

/-- R63: the read that ends a WAITIDLE touches only the sticky bits, the draws and the replies. -/
theorem State.endWait_cases (s : State) :
    ∃ env sticky replies, s.endWait = { s with env := env, sticky := sticky, replies := replies } := by
  unfold State.endWait State.takeAct
  dsimp only
  split
  · rw [State.afterRead_eq]; exact ⟨_, _, _, rfl⟩
  · exact ⟨s.env, s.sticky, _, rfl⟩

/-- R21: what a write to an argument register leaves. -/
theorem State.writeArg_eq (k : Fin 4) (v : Word) (s : State) : s.writeArg k v = s.relabel (s.writeArg k v).args s.seq := by
  fin_cases k <;> rfl

/-! ### Where the running command ends, by the sequencer's position -/

section Finished

variable {s : State}

theorem State.finished_of_idle (hq : s.seq = .idle) : s.finished = s := by
  simp only [State.finished, hq]

theorem State.finished_of_accepted {i : Instr} (hq : s.seq = .accepted) (hd : decode s.cur = .ok i) :
    s.finished = runLines (linesOf i s) s := by
  simp only [State.finished, hq, hd]

theorem State.finished_of_illegal {why : IllegalWord} (hq : s.seq = .accepted) (hd : decode s.cur = .error why) :
    s.finished = s.completeIllegal := by
  simp only [State.finished, hq, hd]

theorem State.finished_of_running {rest : List Micro} (hq : s.seq = .running rest) : s.finished = runLines rest s := by
  simp only [State.finished, hq]

end Finished

/-- R34: one sequencer step ends the command (or finds none running), decodes the accepted word, or makes one line go on to
the next or be taken up again. -/
theorem sequencerStep_cases (s : State) :
    sequencerStep s = s.finished ∨
    (∃ i, s.seq = .accepted ∧ decode s.cur = .ok i ∧ sequencerStep s = { s with seq := .running (linesOf i s) }) ∨
    (∃ op rest t, s.seq = .running (op :: rest) ∧ microStep op s = .go t ∧
      sequencerStep s = { t with seq := .running rest }) ∨
    (∃ op op' rest t, s.seq = .running (op :: rest) ∧ microStep op s = .again op' t ∧
      sequencerStep s = { t with seq := .running (op' :: rest) }) := by
  cases hs : s.seq with
  | idle => exact .inl (by rw [State.finished_of_idle hs]; simp only [sequencerStep, hs])
  | accepted =>
    cases hd : decode s.cur with
    | ok i => exact .inr (.inl ⟨i, rfl, rfl, by simp only [sequencerStep, hs, hd]⟩)
    | error why => exact .inl (by rw [State.finished_of_illegal hs hd]; simp only [sequencerStep, hs, hd])
  | running lines =>
    cases lines with
    | nil => exact .inl (by rw [State.finished_of_running hs]; simp only [sequencerStep, hs, runLines_nil])
    | cons op rest =>
      cases hm : microStep op s with
      | go t => exact .inr (.inr (.inl ⟨op, rest, t, rfl, hm, by simp only [sequencerStep, hs, hm]⟩))
      | again op' t => exact .inr (.inr (.inr ⟨op, op', rest, t, rfl, hm, by simp only [sequencerStep, hs, hm]⟩))
      | stop code t =>
        exact .inl (by rw [State.finished_of_running hs, runLines_stop hm]; simp only [sequencerStep, hs, hm])

/-! ### The buffers and counters (R15, R18, R20, R28) -/

/-- The part of `State.Inv` about the configuration, the buffers and the counters. -/
structure State.BufferInv (s : State) : Prop where
  config : s.cfg.wf = true
  fbForm : Memory.wf s.fb
  fbWithin : Memory.Within s.cfg.size s.fb
  pbForm : Memory.wf s.pb
  pbWithin : Memory.Within s.cfg.size s.pb
  stageForm : Cells.Rising s.stage
  stageWithin : Memory.Within s.cfg.size s.stage
  loadCount : s.loadCnt.toNat ≤ s.cfg.size + 1
  targetWidth : s.image.tw.toNat ≤ s.cfg.width
  targetHeight : s.image.th.toNat ≤ s.cfg.height

theorem State.Inv.buffers {s : State} (h : s.Inv) : s.BufferInv :=
  ⟨h.config, h.fbForm, h.fbWithin, h.pbForm, h.pbWithin, h.stageForm, h.stageWithin, h.loadCount, h.targetWidth,
    h.targetHeight⟩

/-- The same configuration, buffers, load counter and target size. -/
structure SameBuffers (s t : State) : Prop where
  cfg : t.cfg = s.cfg
  fb : t.fb = s.fb
  pb : t.pb = s.pb
  stage : t.stage = s.stage
  loadCnt : t.loadCnt = s.loadCnt
  tw : t.image.tw = s.image.tw
  th : t.image.th = s.image.th

theorem State.BufferInv.congr {s t : State} (h : s.BufferInv) (k : SameBuffers s t) : t.BufferInv := by
  obtain ⟨hcfg, hfb, hpb, hstage, hcnt, htw, hth⟩ := k
  constructor <;> simp only [hcfg, hfb, hpb, hstage, hcnt, htw, hth]
  exacts [h.config, h.fbForm, h.fbWithin, h.pbForm, h.pbWithin, h.stageForm, h.stageWithin, h.loadCount, h.targetWidth,
    h.targetHeight]

/-- The buffer invariant with another framebuffer. -/
theorem State.BufferInv.withFb {s : State} (h : s.BufferInv) {m : Memory} (hf : Memory.wf m)
    (hw : Memory.Within s.cfg.size m) : State.BufferInv { s with fb := m } :=
  { h with fbForm := hf, fbWithin := hw }

/-- The buffer invariant with another pipeline buffer. -/
theorem State.BufferInv.withPb {s : State} (h : s.BufferInv) {m : Memory} (hf : Memory.wf m)
    (hw : Memory.Within s.cfg.size m) : State.BufferInv { s with pb := m } :=
  { h with pbForm := hf, pbWithin := hw }

/-- R86: the target size fits the panel (R81). -/
theorem State.scale_target {s : State} (h : s.cfg.wf = true) :
    s.scale.image.tw.toNat = (scaleToFit s.cfg s.opW s.opH).1 ∧ s.scale.image.th.toNat = (scaleToFit s.cfg s.opW s.opH).2 ∧
      s.scale.image.tw.toNat ≤ s.cfg.width ∧ s.scale.image.th.toNat ≤ s.cfg.height := by
  obtain ⟨hW, hW', -, hH, hH', -⟩ := (Config.wf_iff s.cfg).1 h
  obtain ⟨h1, h2, -⟩ := scaleToFit_le (cfg := s.cfg) (by omega) (by omega) s.opW s.opH
  have e1 : s.scale.image.tw.toNat = (scaleToFit s.cfg s.opW s.opH).1 := by
    simp only [State.scale, BitVec.toNat_ofNat]; omega
  have e2 : s.scale.image.th.toNat = (scaleToFit s.cfg s.opW s.opH).2 := by
    simp only [State.scale, BitVec.toNat_ofNat]; omega
  exact ⟨e1, e2, e1 ▸ h1, e2 ▸ h2⟩

/-- A line that writes a buffer, LOAD_CNT or the target size. -/
def Micro.writesBuffers : Micro → Bool
  | .drawPixel _ | .drawHLine _ | .drawVLine _ | .drawRect _ | .drawFillRect _ | .fillFb _ | .copyStage | .copyPb => true
  | .clearLoadCnt | .stageByte _ | .countByte => true
  | .scale | .whitenPb | .packPixel _ => true
  | _ => false

theorem microStep_sameBuffers {op : Micro} (h : op.writesBuffers = false) (s : State) :
    SameBuffers s (microStep op s).state := by
  cases op with
  | sendData bs =>
    cases bs with
    | nil => exact ⟨rfl, rfl, rfl, rfl, rfl, rfl, rfl⟩
    | cons b rest =>
      simp only [microStep, dataStep, onAnswer]
      (repeat' split) <;> constructor <;> simp [Flow.state]
  | _ =>
    -- `h` rules out the lines that write
    simp only [Micro.writesBuffers, reduceCtorEq] at h
    all_goals
      simp only [microStep, guardLine, lineStep, commandStep, pollStep, onAnswer, State.center, closeStep]
      (repeat' split) <;> constructor <;> simp [Flow.state]

/-- Every line of every rule keeps the buffers and counters in order. -/
theorem microStep_buffers (op : Micro) {s : State} (h : s.BufferInv) : (microStep op s).state.BufferInv := by
  have hw := Config.width_mod h.config
  cases hop : op.writesBuffers with
  | false => exact h.congr (microStep_sameBuffers hop s)
  | true =>
    cases op with
    | drawPixel c => exact h.withFb (wf_setPix h.fbForm ..) (within_setPix hw h.fbWithin _ _ _)
    | drawHLine c => exact h.withFb (wf_hLine h.fbForm ..) (within_hLine hw h.fbWithin _ _ _ _)
    | drawVLine c => exact h.withFb (wf_vLine h.fbForm ..) (within_vLine hw h.fbWithin _ _ _ _)
    | drawRect c => exact h.withFb (wf_rect h.fbForm ..) (within_rect hw h.fbWithin _ _ _ _ _)
    | drawFillRect c => exact h.withFb (wf_fillRect h.fbForm ..) (within_fillRect hw h.fbWithin _ _ _ _ _)
    | fillFb v => exact h.withFb (Memory.wf_tabulate ..) (Memory.within_tabulate _ _)
    | copyStage => exact h.withFb (Memory.wf_tabulate ..) (Memory.within_tabulate _ _)
    | copyPb => exact h.withFb (Memory.wf_tabulate ..) (Memory.within_tabulate _ _)
    | whitenPb => exact h.withPb (Memory.wf_tabulate ..) (Memory.within_tabulate _ _)
    | clearLoadCnt => exact { h with loadCount := Nat.zero_le _ }
    | stageByte imm =>
      simp only [microStep, Flow.state, State.stageByte]
      split
      case isTrue hlt =>
        exact { h with
          stageForm := Cells.rising_put h.stageForm _ _
          stageWithin := Memory.within_put h.stageWithin hlt _ }
      case isFalse => exact h
    | countByte =>
      simp only [microStep, Flow.state, State.countByte]
      split
      case isTrue hle =>
        obtain ⟨-, -, -, -, -, -, hsize, -⟩ := (Config.wf_iff s.cfg).1 h.config
        have hcnt : (s.loadCnt + 1).toNat ≤ s.cfg.size + 1 := by bv_omega
        exact { h with loadCount := hcnt }
      case isFalse => exact h
    | scale =>
      obtain ⟨-, -, hW, hH⟩ := State.scale_target h.config
      exact { h with targetWidth := hW, targetHeight := hH }
    | packPixel g =>
      simp only [microStep, Flow.state, State.packPixel]
      split
      · exact h.withPb (wf_setPix h.pbForm ..) (within_setPix hw h.pbWithin _ _ _)
      · exact h
    | _ => cases hop

/-! ### INIT and PSTATE (R31) -/

/-- A line taken up again is no line that sets PSTATE by itself. -/
theorem keepsInit_again {op op' : Micro} {s t : State} (h : microStep op s = .again op' t) : op'.keepsInit = true := by
  cases op with
  | sendData bs =>
    cases bs with
    | nil => cases h
    | cons b rest =>
      simp only [microStep, dataStep, onAnswer] at h
      (repeat' split at h) <;> cases h
      rfl
  | _ =>
    simp only [microStep, guardLine, lineStep, commandStep, pollStep, onAnswer, closeStep] at h
    (repeat' split at h) <;> cases h <;> rfl

/-- R31: a line of a rule keeps INIT tied to PSTATE, R107's abort included. -/
theorem microStep_initTied {op : Micro} (hop : op.keepsInit = true) {s : State} (h : s.init = s.pstate.inSession) :
    (microStep op s).state.init = (microStep op s).state.pstate.inSession := by
  cases op with
  | protocol p b => exact eq_of_beq hop
  | sendData bs =>
    cases bs with
    | nil => exact h
    | cons b rest =>
      simp only [microStep, dataStep, onAnswer]
      (repeat' split) <;> simp [Flow.state, h, PState.inSession]
  | _ =>
    simp only [microStep, guardLine, lineStep, commandStep, pollStep, onAnswer, State.stageByte, State.countByte,
      State.scale, State.center, State.packPixel, closeStep]
    (repeat' split) <;> simp [Flow.state, h, PState.inSession]

/-- R102, R104, R108 to R112: every command's rule sets INIT with PSTATE. -/
theorem linesOf_keepsInit (i : Instr) (s : State) : (linesOf i s).all Micro.keepsInit = true := by
  cases i with
  | pnlClear m =>
    simp only [linesOf, linesPnlClear, clearTransfers]
    cases s.cfg.secondaryBankEn <;> rfl
  | pnlDisplay m src => cases src <;> rfl
  | _ => rfl

/-! ### The invariant of a step -/

/-- The invariant reads the buffers, the protocol state, the position, CUR and RESET_N. -/
theorem State.Inv.congr {s t : State} (h : s.Inv) (hb : SameBuffers s t) (hi : t.init = s.init) (hp : t.pstate = s.pstate)
    (hq : t.seq = s.seq) (hc : t.cur = s.cur) (hr : t.resetN = s.resetN) : t.Inv :=
  { h.buffers.congr hb with
    initTied := by rw [hi, hp]; exact h.initTied
    linesTied := by rw [hq]; exact h.linesTied
    releaseTied := by rw [hq, hc]; exact h.releaseTied
    resetIdle := by rw [hq, hr]; exact h.resetIdle }

/-- With no command running the invariant is that of the buffers and R31. -/
theorem State.Inv.of_idle {s : State} (hb : s.BufferInv) (hi : s.init = s.pstate.inSession) (hq : s.seq = .idle) : s.Inv :=
  { hb with
    initTied := hi
    linesTied := by rw [hq]; rfl
    releaseTied := by rw [hq]; intro hr; cases hr
    resetIdle := fun _ => hq }

theorem State.Inv.resetN_of_run {s : State} (h : s.Inv) (hr : s.seq ≠ .idle) : s.resetN = true := by
  cases hn : s.resetN with
  | true => rfl
  | false => exact absurd (h.resetIdle hn) hr

theorem State.Inv.withInbox {s : State} (h : s.Inv) (inbox : List HostEvent) : State.Inv { s with inbox := inbox } :=
  h.congr ⟨rfl, rfl, rfl, rfl, rfl, rfl, rfl⟩ rfl rfl rfl rfl rfl

theorem State.Inv.withReplies {s : State} (h : s.Inv) (env : Env) (sticky : Sticky) (replies : List (Option Word)) :
    State.Inv { s with env := env, sticky := sticky, replies := replies } :=
  h.congr ⟨rfl, rfl, rfl, rfl, rfl, rfl, rfl⟩ rfl rfl rfl rfl rfl

/-- R60: acceptance keeps the invariant; nothing of the command has been decoded. -/
theorem State.Inv.accept {s : State} (h : s.Inv) (hr : s.resetN = true) (w : Word) : (s.accept w).Inv :=
  { h.buffers.congr (t := s.accept w) ⟨rfl, rfl, rfl, rfl, rfl, rfl, rfl⟩ with
    initTied := h.initTied
    linesTied := rfl
    releaseTied := fun hrel => by cases hrel
    resetIdle := fun hn => by rw [State.accept_resetN, hr] at hn; cases hn }

/-- R130: the reset values meet the invariant. -/
theorem State.Inv.blockReset {s : State} (h : s.cfg.wf = true) (level : Bool) : (s.blockReset level).Inv :=
  .of_idle
    { config := h, fbForm := Memory.wf_nil, fbWithin := by simp [State.blockReset, State.ofConfig, Memory.Within],
      pbForm := Memory.wf_nil, pbWithin := by simp [State.blockReset, State.ofConfig, Memory.Within],
      stageForm := .nil, stageWithin := by simp [State.blockReset, State.ofConfig, Memory.Within],
      loadCount := Nat.zero_le _, targetWidth := Nat.zero_le _, targetHeight := Nat.zero_le _ }
    rfl rfl

/-- Every input keeps the invariant. -/
theorem State.Inv.takeAct {s : State} (h : s.Inv) (a : HostAct) : (s.takeAct a).Inv := by
  rcases s.takeAct_cases a with ⟨level, -, e⟩ | ⟨w, hr, -, e⟩ | ⟨k, v, e⟩ | ⟨env, sticky, replies, e⟩ <;> rw [e]
  · exact .blockReset h.config level
  · exact h.accept hr w
  · rw [State.writeArg_eq]; exact h.congr ⟨rfl, rfl, rfl, rfl, rfl, rfl, rfl⟩ rfl rfl rfl rfl rfl
  · exact h.withReplies env sticky replies

/-- The running command's completion meets the invariant. -/
theorem State.Inv.finished {s : State} (h : s.Inv) : s.finished.Inv := by
  have run : ∀ lines : List Micro, lines.all Micro.keepsInit = true → (runLines lines s).Inv := by
    intro lines hl
    obtain ⟨code, t, e, hb, hi⟩ := runLines_preserves (P := fun op => op.keepsInit = true)
      (Q := fun t => t.BufferInv ∧ t.init = t.pstate.inSession)
      (fun op t hop ht => ⟨⟨microStep_buffers op ht.1, microStep_initTied hop ht.2⟩, fun _ _ ha => keepsInit_again ha⟩)
      (List.all_eq_true.1 hl) ⟨h.buffers, h.initTied⟩
    rw [e]
    exact .of_idle (hb.congr ⟨rfl, rfl, rfl, rfl, rfl, rfl, rfl⟩) hi rfl
  cases hq : s.seq with
  | idle => rwa [State.finished_of_idle hq]
  | accepted =>
    cases hd : decode s.cur with
    | ok i => rw [State.finished_of_accepted hq hd]; exact run _ (linesOf_keepsInit i s)
    | error why =>
      rw [State.finished_of_illegal hq hd]
      exact .of_idle (h.buffers.congr ⟨rfl, rfl, rfl, rfl, rfl, rfl, rfl⟩) h.initTied rfl
  | running rest =>
    have hl := h.linesTied
    rw [hq] at hl
    rw [State.finished_of_running hq]; exact run rest hl

/-- A line of the running command keeps the invariant, with the lines left that go on from it. -/
theorem State.Inv.line {s : State} (h : s.Inv) {op : Micro} {rest left : List Micro} (hq : s.seq = .running (op :: rest))
    (hk : left.all Micro.keepsInit = true)
    (hrel : left.any Micro.releases = true → (op :: rest).any Micro.releases = true) :
    State.Inv { (microStep op s).state with seq := .running left } := by
  have host := microStep_sameHost op s
  have tied := h.linesTied
  have rel := h.releaseTied
  rw [hq] at tied rel
  have hop : op.keepsInit = true := List.all_eq_true.1 tied op (.head _)
  exact
    { (microStep_buffers op h.buffers).congr
        (t := { (microStep op s).state with seq := .running left }) ⟨rfl, rfl, rfl, rfl, rfl, rfl, rfl⟩ with
      initTied := microStep_initTied hop h.initTied
      linesTied := hk
      releaseTied := fun hl => by rw [← rel (hrel hl), ← host.cur]
      resetIdle := fun hn => by
        have : s.resetN = true := h.resetN_of_run (by rw [hq]; simp)
        rw [host.resetN, this] at hn; cases hn }

/-- One sequencer step keeps the invariant. -/
theorem State.Inv.sequencerStep {s : State} (h : s.Inv) : (sequencerStep s).Inv := by
  have tied : ∀ {op rest}, s.seq = .running (op :: rest) → rest.all Micro.keepsInit = true := by
    intro op rest hq
    have := h.linesTied
    rw [hq] at this
    simp only [SeqPos.keepsInit, List.all_cons, Bool.and_eq_true] at this
    exact this.2
  rcases sequencerStep_cases s with e | ⟨i, hq, hd, e⟩ | ⟨op, rest, t, hq, hm, e⟩ | ⟨op, op', rest, t, hq, hm, e⟩ <;> rw [e]
  · exact h.finished
  · exact
      { h.buffers with
        initTied := h.initTied
        linesTied := linesOf_keepsInit i s
        releaseTied := fun hl => linesOf_releases hl ▸ hd
        resetIdle := fun hn => by
          rw [h.resetN_of_run (by rw [hq]; simp)] at hn; cases hn }
  · have := h.line hq (tied hq) (fun hr => by simp only [List.any_cons, hr, Bool.or_true])
    rwa [hm] at this
  · have := h.line (left := op' :: rest) hq
      (by simp only [List.all_cons, keepsInit_again hm, tied hq, Bool.and_self]) (by
        simp only [List.any_cons, Bool.or_eq_true]
        exact .imp (releases_again hm) id)
    rwa [hm] at this

/-- Settles O18: by the cases of a step, each of which keeps the invariant. -/
theorem stepKeepsInv : Obligations.StepKeepsInv := by
  unfold Obligations.StepKeepsInv
  intro s t h hstep
  obtain ⟨-, hrun | ⟨-, rest, -, rfl⟩ | ⟨k, a, rest, -, -, rfl⟩ | ⟨-, k, a, rest, -, rfl⟩⟩ := step_cases hstep
  · rw [sequencerRun_eq] at hrun
    cases hrun
    exact h.finished
  · obtain ⟨env, sticky, replies, e⟩ := State.endWait_cases { s with inbox := rest }
    rw [e]
    exact (h.withInbox rest).withReplies env sticky replies
  · exact (h.withInbox rest).takeAct a
  · exact (h.withInbox _).sequencerStep

end Sys2Proof.Machine


/-! PROOFS. The running command and the host: single steps and whole runs, argument writes, RESULT, the host
registers and the configuration (R21, R22, R25, R26, R34, R38, R49). -/

namespace Sys2Proof.Machine

/-! ### Single steps reach the command's end (R34, R49) -/

/-- A line's effect does not depend on the sequencer's position. -/
theorem microStep_withSeq (op : Micro) (q : SeqPos) (s : State) :
    microStep op { s with seq := q } = (microStep op s).map fun t => { t with seq := q } := by
  have hargs := (microStep_sameHost op s).args
  have h := microStep_relabel op s.args q s
  rw [State.relabel] at h
  refine h.trans ?_
  cases hm : microStep op s <;> rw [hm] at hargs <;> simp only [Flow.map, State.relabel] <;> rw [← hargs] <;> rfl

theorem sequencerStep_go {op : Micro} {s t : State} (h : microStep op s = .go t) (rest : List Micro) :
    sequencerStep { s with seq := .running (op :: rest) } = { t with seq := .running rest } := by
  simp only [sequencerStep, microStep_withSeq, h, Flow.map]

theorem sequencerStep_again {op op' : Micro} {s t : State} (h : microStep op s = .again op' t) (rest : List Micro) :
    sequencerStep { s with seq := .running (op :: rest) } = { t with seq := .running (op' :: rest) } := by
  simp only [sequencerStep, microStep_withSeq, h, Flow.map]

theorem sequencerStep_stop {op : Micro} {s t : State} {code : ResultCode} (h : microStep op s = .stop code t)
    (rest : List Micro) : sequencerStep { s with seq := .running (op :: rest) } = t.complete code := by
  simp only [sequencerStep, microStep_withSeq, h, Flow.map]; rfl

/-- R49: single steps bring a rule's lines to the end their run gives. -/
theorem sequencerSteps_running (lines : List Micro) (s : State) :
    ∃ n, sequencerSteps n { s with seq := .running lines } = runLines lines s := by
  induction lines, s using runLines_induct with
  | nil s => exact ⟨1, rfl⟩
  | cons op rest s ihg iha =>
    cases hm : microStep op s with
    | go t =>
      obtain ⟨n, hn⟩ := ihg t hm
      exact ⟨n + 1, by rw [sequencerSteps, sequencerStep_go hm, hn, runLines_go hm]⟩
    | again op' t =>
      obtain ⟨n, hn⟩ := iha op' t hm
      exact ⟨n + 1, by rw [sequencerSteps, sequencerStep_again hm, hn, runLines_again hm]⟩
    | stop code t => exact ⟨1, by rw [sequencerSteps, sequencerStep_stop hm, sequencerSteps, runLines_stop hm]⟩

/-- Settles O11: the first step decodes, and the lines' steps follow their run. -/
theorem sequencerStepsReachTheCommandsEnd : Obligations.SequencerStepsReachTheCommandsEnd := by
  unfold Obligations.SequencerStepsReachTheCommandsEnd
  intro s i hq hd
  obtain ⟨n, hn⟩ := sequencerSteps_running (linesOf i s) s
  have hsteps : sequencerSteps (n + 1) s = runLines (linesOf i s) s := by
    rw [sequencerSteps, ← hn]
    congr 1
    simp only [sequencerStep, hq, hd]
  refine ⟨n + 1, ?_, ?_⟩
  · rw [exec_eq_runLines, hsteps]
  · obtain ⟨code, t, e, -⟩ := runLines_sameHost (linesOf i s) s
    rw [hsteps, e, State.complete_seq]

/-! ### Argument writes (R21, R22) -/

/-- R22: the lines of a rule are chosen without the argument registers. -/
theorem linesOf_relabel (i : Instr) (a : Args) (q : SeqPos) (s : State) : linesOf i (s.relabel a q) = linesOf i s := by
  cases i <;> rfl

/-- R22: the command's end with other argument registers is the same end with those registers. -/
theorem State.finished_relabel (a : Args) (s : State) :
    (s.relabel a s.seq).finished = s.finished.relabel a s.finished.seq := by
  have run : ∀ lines q, runLines lines (s.relabel a q) = (runLines lines s).relabel a (runLines lines s).seq :=
    fun lines q => runLines_relabel lines a q s
  cases hq : s.seq with
  | idle => rw [State.finished_of_idle hq, State.finished_of_idle rfl, hq]
  | accepted =>
    cases hd : decode s.cur with
    | ok i =>
      rw [State.finished_of_accepted hq hd, State.finished_of_accepted (s := s.relabel a .accepted) rfl hd, linesOf_relabel,
        run]
    | error why => rw [State.finished_of_illegal hq hd, State.finished_of_illegal (s := s.relabel a .accepted) rfl hd]; rfl
  | running rest => rw [State.finished_of_running hq, State.finished_of_running rfl, run]

/-- R21: what an argument write makes of the registers depends on the registers alone. -/
theorem State.writeArg_args_congr (k : Fin 4) (v : Word) {s t : State} (h : s.args = t.args) :
    (s.writeArg k v).args = (t.writeArg k v).args := by
  fin_cases k <;> simp only [State.writeArg, h]

/-- Settles O12: no line of a rule reads the argument registers, and none writes them. -/
theorem argWriteLeavesTheRunningCommand : Obligations.ArgWriteLeavesTheRunningCommand := by
  unfold Obligations.ArgWriteLeavesTheRunningCommand
  intro s k v _
  obtain ⟨-, hargs, -⟩ := s.finished_sameHost
  refine ⟨s.finished, sequencerRun_eq s, ?_⟩
  rw [sequencerRun_eq, State.writeArg_eq k v s, State.finished_relabel, State.writeArg_eq k v s.finished,
    State.writeArg_args_congr k v hargs]

/-! ### RESULT and the configuration (R25, R38) -/

/-- R25, R38: an input that does not reset the block leaves RESULT; none changes the configuration. -/
theorem State.takeAct_result (a : HostAct) (s : State) :
    (s.takeAct a).cfg = s.cfg ∧ ((∃ level, a = .resetN level) ∨ (s.takeAct a).result = s.result) := by
  rcases s.takeAct_cases a with ⟨level, ha, e⟩ | ⟨w, -, -, e⟩ | ⟨k, v, e⟩ | ⟨env, sticky, replies, e⟩ <;> rw [e]
  · exact ⟨rfl, .inl ⟨level, ha⟩⟩
  · exact ⟨rfl, .inr rfl⟩
  · rw [State.writeArg_eq]; exact ⟨rfl, .inr rfl⟩
  · exact ⟨rfl, .inr rfl⟩

/-- R25, R38: a sequencer step leaves the configuration, and RESULT unless it completes the command. -/
theorem sequencerStep_result (s : State) :
    (sequencerStep s).cfg = s.cfg ∧ ((sequencerStep s).result = s.result ∨ (sequencerStep s).run = false) := by
  rcases sequencerStep_cases s with e | ⟨i, -, -, e⟩ | ⟨op, rest, t, -, hm, e⟩ | ⟨op, op', rest, t, -, hm, e⟩ <;> rw [e]
  · obtain ⟨hcfg, -, -, -, -, hseq⟩ := s.finished_sameHost
    exact ⟨hcfg, .inr (s.finished.run_eq_false.2 hseq)⟩
  · exact ⟨rfl, .inl rfl⟩
  · have host := microStep_sameHost op s
    rw [hm] at host
    exact ⟨host.cfg, .inl host.result⟩
  · have host := microStep_sameHost op s
    rw [hm] at host
    exact ⟨host.cfg, .inl host.result⟩

/-- Settles O14: by the cases of a step; the sequencer writes RESULT where it completes the command, an input only where it
resets the block. -/
theorem resultIsWrittenOnlyAtCompletion : Obligations.ResultIsWrittenOnlyAtCompletion := by
  unfold Obligations.ResultIsWrittenOnlyAtCompletion
  intro s t hstep hne
  obtain ⟨-, hrun | ⟨-, rest, -, rfl⟩ | ⟨k, a, rest, hin, hk, rfl⟩ | ⟨hr, k, a, rest, -, rfl⟩⟩ := step_cases hstep
  · rw [sequencerRun_eq] at hrun
    cases hrun
    obtain ⟨-, -, -, -, -, hseq⟩ := s.finished_sameHost
    refine .inl ⟨s.run_eq_true.2 fun hidle => hne ?_, s.finished.run_eq_false.2 hseq⟩
    rw [State.finished_of_idle hidle]
  · obtain ⟨env, sticky, replies, e⟩ := State.endWait_cases { s with inbox := rest }
    exact absurd (by rw [e]) hne
  · obtain ⟨level, rfl⟩ := (State.takeAct_result a { s with inbox := rest }).2.resolve_right hne
    exact .inr ⟨k, level, rest, hin, hk⟩
  · exact .inl ⟨hr, (sequencerStep_result _).2.resolve_left hne⟩

/-- Settles O20: by the cases of a step. -/
theorem configurationNeverChanges : Obligations.ConfigurationNeverChanges := by
  unfold Obligations.ConfigurationNeverChanges
  intro s t hstep
  obtain ⟨-, hrun | ⟨-, rest, -, rfl⟩ | ⟨k, a, rest, -, -, rfl⟩ | ⟨-, k, a, rest, -, rfl⟩⟩ := step_cases hstep
  · rw [sequencerRun_eq] at hrun
    cases hrun
    exact s.finished_sameHost.1
  · obtain ⟨env, sticky, replies, e⟩ := State.endWait_cases { s with inbox := rest }
    rw [e]
  · exact (State.takeAct_result a { s with inbox := rest }).1
  · exact (sequencerStep_result _).1

/-! ### The host registers (R21, R22, R26) -/

/-- R26, R98: of the sticky bits a line can set BTO only, and it clears none. -/
theorem microStep_sticky (op : Micro) (s : State) :
    (microStep op s).state.sticky = s.sticky ∨ (microStep op s).state.sticky = { s.sticky with bto := true } := by
  cases op with
  | sendData bs =>
    cases bs with
    | nil => exact .inl rfl
    | cons b rest =>
      simp only [microStep, dataStep, onAnswer]
      (repeat' split) <;> exact .inl (by simp [Flow.state])
  | poll =>
    simp only [microStep, pollStep, onAnswer]
    split
    · split
      · exact .inl rfl
      · split
        · exact .inr rfl
        · exact .inl rfl
    · exact .inl (by simp [Flow.state])
  | _ =>
    simp only [microStep, guardLine, lineStep, commandStep, onAnswer, State.stageByte, State.countByte, State.scale,
      State.center, State.packPixel, closeStep]
    (repeat' split) <;> exact .inl (by simp [Flow.state])

/-- R26: a rule's run leaves the host registers and the sticky bits but BTO. -/
theorem runLines_hostRegisters (lines : List Micro) (s : State) :
    ∃ code t, runLines lines s = t.complete code ∧ SameHost s t ∧ t.sticky.ovr = s.sticky.ovr ∧
      t.sticky.berr = s.sticky.berr := by
  refine runLines_preserves (P := fun _ => True)
    (Q := fun t => SameHost s t ∧ t.sticky.ovr = s.sticky.ovr ∧ t.sticky.berr = s.sticky.berr)
    (fun op t _ ⟨host, hovr, hberr⟩ => ⟨⟨host.trans (microStep_sameHost op t), ?_⟩, fun _ _ _ => trivial⟩)
    (fun _ _ => trivial) ⟨SameHost.refl s, rfl, rfl⟩
  rcases microStep_sticky op t with h | h <;> rw [h] <;> exact ⟨hovr, hberr⟩

/-- Settles O15: no line of any rule touches them, nor does the completion. -/
theorem commandsLeaveTheHostRegisters : Obligations.CommandsLeaveTheHostRegisters := by
  unfold Obligations.CommandsLeaveTheHostRegisters
  intro i s
  obtain ⟨code, t, e, host, hovr, hberr⟩ := runLines_hostRegisters (linesOf i s) s
  exact ⟨t.complete code, by rw [exec_eq_runLines, e], host.cfg, host.args, host.largs, host.cur, hovr, hberr, host.resetN,
    host.inbox, host.replies⟩

/-! ### Writes to STICKY_CLR and ARGn (R21, R26) -/

/-- R42, R43: an aligned 32-bit register write out of reset is the register's effect. -/
theorem State.takeAct_registerWrite {s : State} (hr : s.resetN = true) {addr : HostAddr} (ha : addr.toNat < 0x100000)
    (h4 : addr.toNat % 4 = 0) (v : Word) : s.takeAct (.write addr .four v) = s.registerWrite addr.toNat v := by
  simp [State.takeAct, State.afterWrite, legalWrite, regionOf_registers ha, hr, h4]

/-- The step that takes such a write. -/
theorem step_registerWrite {s : State} (hw : s.cfg.wf = true) (hr : s.resetN = true) {addr : HostAddr} {v : Word}
    {rest : List HostEvent} (hin : s.inbox = .act 0 (.write addr .four v) :: rest) (ha : addr.toNat < 0x100000)
    (h4 : addr.toNat % 4 = 0) : step s = .next (State.registerWrite addr.toNat v { s with inbox := rest }) := by
  rw [step_act hw hin (.inl rfl)]
  exact congrArg _ (State.takeAct_registerWrite (s := { s with inbox := rest }) hr ha h4 v)

/-- Settles O59: the write is `State.clearSticky`, which keeps a bit exactly where it is set and the word's bit is 0. -/
theorem stickyClearIsWriteOneToClear : Obligations.StickyClearIsWriteOneToClear := by
  unfold Obligations.StickyClearIsWriteOneToClear
  intro s w rest hw hr hin
  refine ⟨State.clearSticky w { s with inbox := rest }, step_registerWrite hw hr hin (by decide) (by decide), rfl, ?_⟩
  simp [State.clearSticky]

/-- Settles O60: at each of the four addresses the write is `State.writeArg`. -/
theorem argWriteKeepsTheLowHalf : Obligations.ArgWriteKeepsTheLowHalf := by
  unfold Obligations.ArgWriteKeepsTheLowHalf
  intro s addr w rest hw hr hin
  refine ⟨?_, ?_, ?_, ?_⟩ <;> rintro rfl <;> exact step_registerWrite hw hr hin (by decide) (by decide)

/-! ### The STATUS and RESULT words (R24, R25, R30, R114) -/

theorem PState.code_lt (p : PState) : p.code < 8 := by cases p <;> decide

theorem ResultCode.code_lt (c : ResultCode) : c.code < 256 := by cases c <;> decide

/-- R24: the PSTATE field in place. -/
theorem getLsbD_pstateField (p : PState) (k : Nat) :
    (BitVec.ofNat 32 p.code <<< 8).getLsbD k = (decide (8 ≤ k ∧ k ≤ 10) && p.code.testBit (k - 8)) := by
  have high : ∀ j, 3 ≤ j → p.code.testBit j = false := fun j hj =>
    Nat.testBit_lt_two_pow (p.code_lt.trans_le (Nat.pow_le_pow_right (n := 2) (by norm_num) hj))
  rw [BitVec.getLsbD_shiftLeft, BitVec.getLsbD_ofNat]
  by_cases h8 : 8 ≤ k
  · by_cases h10 : k ≤ 10
    · simp [h8, h10, show k < 32 by omega, show k - 8 < 32 by omega, show ¬ k < 8 by omega]
    · simp [h10, high (k - 8) (by omega)]
  · simp [h8, show k < 8 by omega]

/-- Settles O57: each flag is one bit of the word, and PSTATE's code three. -/
theorem statusWordHasItsFields : Obligations.StatusWordHasItsFields := by
  unfold Obligations.StatusWordHasItsFields
  refine ⟨fun s k => ?_, rfl, rfl, rfl, rfl, rfl, rfl, rfl, rfl⟩
  simp (disch := norm_num) only [State.statusWord, BitVec.getLsbD_or, getLsbD_pstateField, getLsbD_flagAt]
  by_cases hk : k ≤ 18
  · interval_cases k <;> simp
  · have none : ∀ n ≤ 18, k ≠ n := fun n hn => by omega
    simp [none, show ¬ k ≤ 10 by omega]

theorem toNat_flagAt_eight (b : Bool) : (flagAt 8 b).toNat = b.toNat <<< 8 := by cases b <;> rfl

/-- R25: the fields of RESULT do not overlap, so the word is their sum. -/
theorem Result.toNat_word (r : Result) : r.word.toNat = r.code.code + 256 * r.opbto.toNat + 65536 * r.lastop.toNat := by
  have hc := r.code.code_lt
  have hb := Bool.toNat_lt r.opbto
  have hl := r.lastop.isLt
  have hlast : (r.lastop.setWidth 32 <<< 16).toNat = r.lastop.toNat <<< 16 := by
    rw [BitVec.toNat_shiftLeft, BitVec.toNat_setWidth, Nat.mod_eq_of_lt (a := r.lastop.toNat) (by omega), Nat.shiftLeft_eq]
    exact Nat.mod_eq_of_lt (by omega)
  have low : r.code.code ||| r.opbto.toNat <<< 8 = r.opbto.toNat <<< 8 + r.code.code := by
    rw [Nat.or_comm]; exact (Nat.shiftLeft_add_eq_or_of_lt hc _).symm
  have hlow : r.opbto.toNat <<< 8 + r.code.code < 2 ^ 16 := by rw [Nat.shiftLeft_eq]; omega
  have high := Nat.shiftLeft_add_eq_or_of_lt hlow r.lastop.toNat
  rw [Result.word, BitVec.toNat_or, BitVec.toNat_or, toNat_flagAt_eight, hlast, BitVec.toNat_ofNat,
    Nat.mod_eq_of_lt (by omega), low, Nat.or_comm, ← high]
  simp only [Nat.shiftLeft_eq]
  omega

/-- Settles O58. -/
theorem resultWordHasItsFields : Obligations.ResultWordHasItsFields :=
  ⟨Result.toNat_word, rfl, rfl, rfl, rfl, rfl, rfl, rfl, rfl, rfl⟩

end Sys2Proof.Machine


/-! PROOFS. The image unit's invariant between commands (R19, R28, R82, R89). -/

namespace Sys2Proof.Machine

/-! ### Lines that leave the image unit alone -/

/-- A line that writes PB, an image register, PB_VALID or PIPE_ACT. -/
def Micro.writesImage : Micro → Bool
  | .scale | .center | .clearPipeCnt | .setPbValid _ | .setPipeAct _ | .whitenPb => true
  | .packPixel _ | .countPixel | .closeImage => true
  | _ => false

/-- The same configuration and image unit. -/
structure SameImage (s t : State) : Prop where
  cfg : t.cfg = s.cfg
  pb : t.pb = s.pb
  image : t.image = s.image
  pipeAct : t.pipeAct = s.pipeAct
  pbValid : t.pbValid = s.pbValid

theorem SameImage.trans {s t u : State} (h : SameImage s t) (k : SameImage t u) : SameImage s u :=
  ⟨k.cfg.trans h.cfg, k.pb.trans h.pb, k.image.trans h.image, k.pipeAct.trans h.pipeAct, k.pbValid.trans h.pbValid⟩

theorem State.ImageInv.congr {s t : State} (h : s.ImageInv) (k : SameImage s t) : t.ImageInv := by
  obtain ⟨hcfg, hpb, himage, hact, hvalid⟩ := k
  constructor <;> simp only [hcfg, hpb, himage, hact, hvalid]
  exacts [h.streaming, h.complete, h.counted, h.placed, h.margins]

theorem State.ImageInv.of_complete {s : State} (h : s.ImageInv) (code : ResultCode) : (s.complete code).ImageInv :=
  h.congr ⟨rfl, rfl, rfl, rfl, rfl⟩

theorem microStep_sameImage {op : Micro} (h : op.writesImage = false) (s : State) : SameImage s (microStep op s).state := by
  cases op with
  | sendData bs =>
    cases bs with
    | nil => exact ⟨rfl, rfl, rfl, rfl, rfl⟩
    | cons b rest =>
      simp only [microStep, dataStep, onAnswer]
      (repeat' split) <;> constructor <;> simp [Flow.state]
  | _ =>
    -- `h` rules out the lines that write
    simp only [Micro.writesImage, reduceCtorEq] at h
    all_goals
      simp only [microStep, guardLine, lineStep, commandStep, pollStep, onAnswer, State.stageByte, State.countByte]
      (repeat' split) <;> constructor <;> simp [Flow.state]

/-- Only R87's last line is taken up again as a line that writes the image unit. -/
theorem writesImage_again {op op' : Micro} {s t : State} (h : microStep op s = .again op' t)
    (hop : op.writesImage = false) : op'.writesImage = false := by
  cases op with
  | closeImage => cases hop
  | sendData bs =>
    cases bs with
    | nil => cases h
    | cons b rest =>
      simp only [microStep, dataStep, onAnswer] at h
      (repeat' split at h) <;> cases h
      rfl
  | _ =>
    simp only [microStep, guardLine, lineStep, commandStep, pollStep, onAnswer] at h
    (repeat' split at h) <;> cases h <;> rfl

/-- A rule without such a line leaves the image unit as it is. -/
theorem runLines_sameImage {lines : List Micro} (h : lines.all (fun op => !op.writesImage) = true) (s : State) :
    SameImage s (runLines lines s) := by
  obtain ⟨code, t, e, ht⟩ := runLines_preserves (P := fun op => op.writesImage = false) (Q := SameImage s)
    (fun op t hop ht => ⟨ht.trans (microStep_sameImage hop t), fun _ _ ha => writesImage_again ha hop⟩)
    (lines := lines) (s := s) (fun op hop => by simpa using List.all_eq_true.1 h op hop) ⟨rfl, rfl, rfl, rfl, rfl⟩
  rw [e]
  exact ⟨ht.cfg, ht.pb, ht.image, ht.pipeAct, ht.pbValid⟩

/-- Outside the pipeline family no rule has a line that writes the image unit. -/
theorem linesOf_writesImage {i : Instr} (hb : i ≠ .pipeBegin) (hp : ∀ g, i ≠ .pipePix g) (ha : i ≠ .pipeAbort) (s : State) :
    (linesOf i s).all (fun op => !op.writesImage) = true := by
  cases i with
  | pipeBegin => exact absurd rfl hb
  | pipePix g => exact absurd rfl (hp g)
  | pipeAbort => exact absurd rfl ha
  | pnlClear m =>
    simp only [linesOf, linesPnlClear, clearTransfers]
    cases s.cfg.secondaryBankEn <;> rfl
  | pnlDisplay m src => cases src <;> rfl
  | _ => rfl

/-! ### PIPE_BEGIN (R86) -/

/-- R86: the image registers written, nothing counted, no image open and PB invalid. -/
def State.sized (s : State) : State :=
  { s.scale.center with image := { s.scale.center.image with cnt := 0 }, pbValid := false, pipeAct := false }

/-- R86: the image opened on a white PB. -/
def State.opened (s : State) : State :=
  { s.sized with pb := Memory.tabulate s.cfg.size fun _ => 0xFF, pipeAct := true }

theorem runLines_pipeBegin (s : State) :
    runLines linesPipeBegin s =
      if s.sized.image.tw = 0 ∨ s.sized.image.th = 0 then s.sized.complete .emptyImage else s.opened.complete .ok := by
  rw [linesPipeBegin, runLines_go rfl, runLines_go rfl, runLines_go rfl, runLines_go rfl, runLines_go rfl]
  change runLines [.needPixels, .whitenPb, .setPipeAct true] s.sized = _
  split
  case isTrue h =>
    have hempty : (s.sized.image.tw == 0 || s.sized.image.th == 0) = true := by simpa using h
    exact runLines_stop (by simp only [microStep, guardLine, hempty, if_true]) _
  case isFalse h =>
    rw [runLines_go (t := s.sized) (by simpa [microStep, guardLine] using h), runLines_go rfl, runLines_go rfl]
    rfl

/-- R81, R82: the target fits the panel and is centred. -/
theorem State.sized_placed {s : State} (hw : s.cfg.wf = true) :
    s.sized.image.tw.toNat ≤ s.cfg.width ∧ s.sized.image.th.toNat ≤ s.cfg.height ∧
      s.sized.image.xoff.toNat = (s.cfg.width - s.sized.image.tw.toNat) / 2 ∧
      s.sized.image.yoff.toNat = (s.cfg.height - s.sized.image.th.toNat) / 2 := by
  obtain ⟨-, hW, -, -, hH, -⟩ := (Config.wf_iff s.cfg).1 hw
  obtain ⟨-, -, htw, hth⟩ := State.scale_target hw
  refine ⟨htw, hth, ?_, ?_⟩
  · exact (BitVec.toNat_ofNat ..).trans (Nat.mod_eq_of_lt (by simp only [centerOffset, State.scale]; omega))
  · exact (BitVec.toNat_ofNat ..).trans (Nat.mod_eq_of_lt (by simp only [centerOffset, State.scale]; omega))

/-- With no image open and PB invalid, the invariant is that of the count. -/
theorem State.ImageInv.of_closed {s : State} (hact : s.pipeAct = false) (hvalid : s.pbValid = false)
    (hcnt : s.image.cnt.toNat ≤ s.image.tw.toNat * s.image.th.toNat) : s.ImageInv := by
  constructor <;> simp [hact, hvalid, hcnt]

theorem State.sized_imageInv (s : State) : s.sized.ImageInv := .of_closed rfl rfl (Nat.zero_le _)

/-- Every pixel of a white buffer is white (R16, R86). -/
theorem pixel_white {cfg : Config} (hw : cfg.wf = true) {x y : Nat} (hx : x < cfg.width) (hy : y < cfg.height) :
    pixel cfg (Memory.tabulate cfg.size fun _ => 0xFF) x y = true := by
  have hbyte := byteIndex_lt (Config.width_mod hw) hx hy
  rw [pixel, Memory.read_tabulate, if_pos hbyte]
  have hbit := bitIndex_lt x
  interval_cases bitIndex x <;> rfl

theorem State.opened_imageInv {s : State} (hw : s.cfg.wf = true) (htw : s.sized.image.tw ≠ 0) (hth : s.sized.image.th ≠ 0) :
    s.opened.ImageInv := by
  have hpos : ∀ h : Half, h ≠ 0 → 0 < h.toNat := fun h hh => by bv_omega
  have hw0 := hpos _ htw
  have hh0 := hpos _ hth
  exact
    { streaming := fun _ => ⟨hw0, hh0, Nat.mul_pos hw0 hh0⟩
      complete := fun hv => by cases hv
      counted := Nat.zero_le _
      placed := fun _ => State.sized_placed hw
      margins := fun _ x y hx hy _ => pixel_white hw hx hy }

/-! ### PIPE_PIX (R87) -/

/-- R87: the pixel's byte written and the pixel counted. -/
def State.pixelTaken (g : Byte) (s : State) : State :=
  { s with pb := (s.packPixel g).pb, image := { s.image with cnt := s.image.cnt + 1 } }

/-- R87: the image closed and PB valid where the pixel was the last. -/
def State.closedIfFull (s : State) : State :=
  if s.image.cnt.toNat = s.image.tw.toNat * s.image.th.toNat then { s with pipeAct := false, pbValid := true } else s

theorem State.packPixel_eq (g : Byte) (s : State) : s.packPixel g = { s with pb := (s.packPixel g).pb } := by
  unfold State.packPixel; dsimp only; split <;> rfl

theorem runLines_pipePix (g : Byte) (s : State) :
    runLines (linesPipePix g) s =
      if s.pipeAct then (s.pixelTaken g).closedIfFull.complete .ok else s.complete .sequenceError := by
  rw [linesPipePix]
  split
  case isTrue h =>
    rw [runLines_go (t := s) (by simp [microStep, guardLine, h]), runLines_go rfl, State.packPixel_eq, runLines_go rfl,
      runLines_closeImage]
    rfl
  case isFalse h => exact runLines_stop (by simp [microStep, guardLine, h]) _

/-- R87: the pixel's own place is the only one a pixel can change. -/
theorem State.pixel_packPixel_of_ne {s : State} (hw : s.cfg.wf = true) (g : Byte) {x y : Nat} (hx : x < s.cfg.width)
    (hy : y < s.cfg.height) (hne : ¬ (x = s.image.pixelX s.image.cnt.toNat ∧ y = s.image.pixelY s.image.cnt.toNat)) :
    pixel s.cfg (s.packPixel g).pb x y = pixel s.cfg s.pb x y := by
  unfold State.packPixel
  dsimp only
  split
  · rw [pixel_setPix (Config.width_mod hw) _ _ _ _ hx hy, if_neg (by simpa only [Nat.cast_inj] using hne)]
  · rfl

/-- R84: pixel number k of an image lies in the image's region. -/
theorem ImageRegs.pixel_in_region {r : ImageRegs} {k : Nat} (hk : k < r.tw.toNat * r.th.toNat) :
    r.xoff.toNat ≤ r.pixelX k ∧ r.pixelX k < r.xoff.toNat + r.tw.toNat ∧
      r.yoff.toNat ≤ r.pixelY k ∧ r.pixelY k < r.yoff.toNat + r.th.toNat := by
  have htw : 0 < r.tw.toNat := Nat.pos_of_ne_zero fun h0 => by simp [h0] at hk
  have hcol := Nat.mod_lt k htw
  have hrow := Nat.div_lt_of_lt_mul hk
  unfold ImageRegs.pixelX ImageRegs.pixelY
  exact ⟨Nat.le_add_left .., by omega, Nat.le_add_left .., by omega⟩

/-- R87: a pixel taken while an image is open keeps the invariant, closed or not. -/
theorem State.ImageInv.pixelTaken {s : State} (hw : s.cfg.wf = true) (h : s.ImageInv) (hact : s.pipeAct = true) (g : Byte) :
    (s.pixelTaken g).closedIfFull.ImageInv := by
  obtain ⟨htw, hth, hlt⟩ := h.streaming hact
  have hinvalid : s.pbValid = false := by
    cases hv : s.pbValid with
    | false => rfl
    | true => rw [(h.complete hv).1] at hact; cases hact
  have hsmall : s.image.tw.toNat * s.image.th.toNat < 2 ^ 32 :=
    Nat.mul_lt_mul'' (c := 2 ^ 16) (d := 2 ^ 16) s.image.tw.isLt s.image.th.isLt
  have hcnt : (s.image.cnt + 1).toNat = s.image.cnt.toNat + 1 := by
    have : s.image.cnt.toNat + 1 < 2 ^ 32 := by omega
    bv_omega
  have margins : ∀ x y : Nat, x < s.cfg.width → y < s.cfg.height →
      ¬ (s.image.xoff.toNat ≤ x ∧ x < s.image.xoff.toNat + s.image.tw.toNat ∧
        s.image.yoff.toNat ≤ y ∧ y < s.image.yoff.toNat + s.image.th.toNat) →
      pixel s.cfg (s.packPixel g).pb x y = true := by
    intro x y hx hy hout
    rw [State.pixel_packPixel_of_ne hw g hx hy]
    · exact h.margins (.inl hact) x y hx hy hout
    · rintro ⟨rfl, rfl⟩
      exact hout (ImageRegs.pixel_in_region hlt)
  unfold State.closedIfFull
  split
  case isTrue hfull =>
    exact
      { streaming := fun ha => by cases ha
        complete := fun _ => ⟨rfl, hfull⟩
        counted := hfull.le
        placed := fun _ => h.placed (.inl hact)
        margins := fun _ => margins }
  case isFalse hmore =>
    have hle : (s.image.cnt + 1).toNat ≤ s.image.tw.toNat * s.image.th.toNat := by omega
    exact
      { streaming := fun _ => ⟨htw, hth, lt_of_le_of_ne hle hmore⟩
        complete := fun hv => by rw [State.pixelTaken, hinvalid] at hv; cases hv
        counted := hle
        placed := fun _ => h.placed (.inl hact)
        margins := fun _ => margins }

/-! ### Every command -/

/-- Settles O38: the three pipeline commands keep the invariant each in its way, the others leave the image unit alone. -/
theorem commandsKeepTheImageInv : Obligations.CommandsKeepTheImageInv := by
  unfold Obligations.CommandsKeepTheImageInv
  intro i s hw h
  refine ⟨_, exec_eq_runLines i s, ?_⟩
  by_cases hb : i = .pipeBegin
  · subst hb
    rw [linesOf, runLines_pipeBegin]
    split
    case isTrue => exact s.sized_imageInv.of_complete _
    case isFalse hne =>
      obtain ⟨htw, hth⟩ := not_or.1 hne
      exact (State.opened_imageInv hw htw hth).of_complete _
  by_cases hp : ∃ g, i = .pipePix g
  · obtain ⟨g, rfl⟩ := hp
    rw [linesOf, runLines_pipePix]
    split
    case isTrue hact => exact (h.pixelTaken hw hact g).of_complete _
    case isFalse => exact h.of_complete _
  by_cases ha : i = .pipeAbort
  · subst ha
    exact .of_closed rfl rfl h.counted
  · exact h.congr (runLines_sameImage (linesOf_writesImage hb (fun g hg => hp ⟨g, hg⟩) ha s) s)

end Sys2Proof.Machine


/-! PROOFS. Host accesses: the rules of each region, window reads, and register accesses (R40 to R45, R132). -/

namespace Sys2Proof.Machine

/-! ### The rules of each region (R42) -/

theorem legalRead_registers {a : Nat} (h : a < 0x100000) (n : AccessSize) :
    legalRead a n = true ↔ n = .four ∧ a % 4 = 0 := by
  simp [legalRead, regionOf_registers h]

/-- R42: windows and reserved addresses are read at multiples of the access size. -/
theorem legalRead_ne_registers {a : Nat} (h : 0x100000 ≤ a) (n : AccessSize) :
    legalRead a n = true ↔ a % n.bytes = 0 := by
  have hne := regionOf_ne_registers h
  cases hreg : regionOf a with
  | registers => exact absurd hreg hne
  | window buf => simp [legalRead, hreg]
  | reserved => simp [legalRead, hreg]

/-- R42: a legal write is what would be a legal read, outside the windows. -/
theorem legalWrite_iff (a : Nat) (n : AccessSize) :
    legalWrite a n = true ↔ legalRead a n = true ∧ ∀ buf, regionOf a ≠ .window buf := by
  cases hreg : regionOf a <;> simp [legalWrite, legalRead, hreg]

/-! ### The step that takes an access (R42, R43) -/

variable {s : State} {addr : HostAddr} {n : AccessSize} {k : Nat} {rest : List HostEvent}

/-- R42, R43: a legal read out of reset is answered, and touches the draws only. -/
theorem step_legalRead (hw : s.cfg.wf = true) (hr : s.resetN = true) (hk : k = 0 ∨ s.run = false)
    (hin : s.inbox = .act k (.read addr n) :: rest) (hl : legalRead addr.toNat n = true) :
    step s = .next
      { s with
        inbox := rest
        env := Env.afterRead addr.toNat n s
        replies := s.replies ++ [some (State.readValue addr.toNat n { s with inbox := rest })] } := by
  rw [step_act hw hin hk]
  simp only [State.takeAct, hr, if_true, State.afterRead, hl, State.reply]
  rfl

/-- R42: an illegal read out of reset is answered with 0, and sets BERR. -/
theorem step_illegalRead (hw : s.cfg.wf = true) (hr : s.resetN = true) (hk : k = 0 ∨ s.run = false)
    (hin : s.inbox = .act k (.read addr n) :: rest) (hl : ¬ legalRead addr.toNat n = true) :
    step s = .next
      { s with inbox := rest, replies := s.replies ++ [some 0], sticky := { s.sticky with berr := true } } := by
  rw [step_act hw hin hk]
  simp only [State.takeAct, hr, if_true, State.afterRead, State.readValue, if_neg hl, State.reply, State.noteBusError]

/-- R42, R43: a write out of reset does what its address and size say. -/
theorem step_write (hw : s.cfg.wf = true) (hr : s.resetN = true) (hk : k = 0 ∨ s.run = false) {v : Word}
    (hin : s.inbox = .act k (.write addr n v) :: rest) :
    step s = .next (State.afterWrite addr.toNat n v { s with inbox := rest }) := by
  rw [step_act hw hin hk]
  simp only [State.takeAct, hr, if_true]

/-- Settles O53: the two rules say exactly when an access is not legal. -/
theorem illegalAccessSetsBerr : Obligations.IllegalAccessSetsBerr := by
  unfold Obligations.IllegalAccessSetsBerr
  intro s addr n rest hw hr a badRegister misaligned window
  have notRead : badRegister ∨ misaligned → ¬ legalRead a n = true := by
    rintro (⟨ha, hbad⟩ | ⟨ha, hbad⟩)
    · rwa [legalRead_registers ha]
    · rwa [legalRead_ne_registers ha]
  have notWrite : badRegister ∨ misaligned ∨ window → ¬ legalWrite a n = true := by
    rw [← or_assoc, legalWrite_iff]
    rintro (hbad | ⟨h1, h2⟩) ⟨hread, hregion⟩
    · exact notRead hbad hread
    · obtain ⟨buf, hbuf⟩ := regionOf_window h1 h2
      exact hregion buf hbuf
  refine ⟨fun hbad hin => step_illegalRead hw hr (.inl rfl) hin (notRead hbad), fun hbad v hin => ?_⟩
  rw [step_write hw hr (.inl rfl) hin, State.afterWrite_illegal (by simpa using notWrite hbad)]
  rfl

/-! ### Writes that are ignored (R40, R42) -/

/-- R42: a legal write above the registers does nothing: the windows take none. -/
theorem State.afterWrite_ne_registers {a : Nat} (h : 0x100000 ≤ a) (hl : legalWrite a n = true) (v : Word) (s : State) :
    s.afterWrite a n v = s := by
  have hne := regionOf_ne_registers h
  simp only [State.afterWrite, hl, if_true]
  split
  · contradiction
  · rfl
  · rfl

/-- R40, R43: only CMD, STICKY_CLR and the argument registers take a write. -/
theorem State.registerWrite_ignored {a : Nat} (hcmd : a ≠ 0x00) (hclr : a ≠ 0x0C) (harg : ¬ (0x10 ≤ a ∧ a ≤ 0x1C)) (v : Word)
    (s : State) : s.registerWrite a v = s := by
  unfold State.registerWrite
  split
  case h_7 => rfl
  all_goals omega

/-- Settles O54. -/
theorem readOnlyWritesAreIgnored : Obligations.ReadOnlyWritesAreIgnored := by
  unfold Obligations.ReadOnlyWritesAreIgnored
  intro s addr n v rest hw hr hin hcase
  rcases hcase with ⟨rfl, hmem⟩ | ⟨rfl, hlo, hhi, halign⟩ | ⟨hlo, halign⟩
  · simp only [List.mem_cons, List.not_mem_nil, or_false] at hmem
    rw [step_registerWrite hw hr hin (by omega) (by omega),
      State.registerWrite_ignored (by omega) (by omega) (by omega)]
  · rw [step_registerWrite hw hr hin hhi halign, State.registerWrite_ignored (by omega) (by omega) (by omega)]
  · have hlegal : legalWrite addr.toNat n = true := by
      rw [legalWrite_iff, legalRead_ne_registers (by omega), regionOf_reserved hlo]
      exact ⟨halign, fun buf => by simp⟩
    rw [step_write hw hr (.inl rfl) hin, State.afterWrite_ne_registers (by omega) hlegal]

/-! ### Window reads (R41, R45) -/

theorem AccessSize.bytes_le_four (n : AccessSize) : n.bytes ≤ 4 := by cases n <;> decide

/-- R42: the windows begin at multiples of every access size. -/
theorem windowBase_add_mod (buf : Source) (n : AccessSize) (i : Nat) : (windowBase buf + i) % n.bytes = i % n.bytes := by
  have hbase : n.bytes ∣ windowBase buf := by cases buf <;> cases n <;> decide
  rw [Nat.add_mod, Nat.mod_eq_zero_of_dvd hbase, Nat.zero_add, Nat.mod_mod]

/-- R45: lane j of a window read holds byte j of the access, the lanes past it 0. -/
theorem State.windowValue_lane (buf : Source) (i : Nat) {m : Nat} (hm : m ≤ 4) (s : State) {j : Nat} (hj : j < 4) :
    (s.windowValue buf i m).extractLsb' (8 * j) 8 = if j < m then s.windowByte buf i j else 0 := by
  rw [State.windowValue, leWord_lane _ (by simpa using hm) j hj]
  by_cases hjm : j < m <;> simp [hjm]

/-- R41: the window of a buffer no running command may write gives the buffer's bytes, 0 past SIZE. -/
theorem State.windowByte_of_settled {buf : Source} (h : s.unsettled buf = false) (i j : Nat) :
    s.windowByte buf i j = if i + j < s.cfg.size then (s.windowBuffer buf).read (i + j) else 0 := by
  by_cases hsize : s.cfg.size ≤ i + j
  · rw [State.windowByte, if_pos hsize, if_neg (by omega)]
  · rw [State.windowByte, if_neg hsize, h, if_pos (Nat.lt_of_not_le hsize), if_neg (by decide)]

/-- R41, R45: an aligned read of such a window gives those bytes in little-endian lanes, and changes nothing. -/
theorem step_windowRead_of_settled (hw : s.cfg.wf = true) (hr : s.resetN = true) (hk : k = 0 ∨ s.run = false) {buf : Source}
    (hset : s.unsettled buf = false) {i : Nat} (hi : i < 0x100000) (halign : i % n.bytes = 0)
    (haddr : addr.toNat = windowBase buf + i) (hin : s.inbox = .act k (.read addr n) :: rest) :
    ∃ v : Word, step s = .next { s with inbox := rest, replies := s.replies ++ [some v] } ∧
      ∀ j, j < 4 → v.extractLsb' (8 * j) 8 =
        if j < n.bytes ∧ i + j < s.cfg.size then (s.windowBuffer buf).read (i + j) else 0 := by
  have hregion : regionOf addr.toNat = .window buf := haddr ▸ regionOf_windowBase buf hi
  have hlegal : legalRead addr.toNat n = true := by
    rw [legalRead_ne_registers (by rw [haddr]; cases buf <;> simp only [windowBase] <;> omega), haddr, windowBase_add_mod,
      halign]
  have henv : Env.afterRead addr.toNat n s = s.env := by simp [Env.afterRead, hregion, hset]
  have hvalue : State.readValue addr.toNat n { s with inbox := rest } =
      State.windowValue buf i n.bytes { s with inbox := rest } := by
    simp only [State.readValue, hlegal, if_true, hregion]
    rw [haddr, Nat.add_sub_cancel_left]
  refine ⟨_, step_legalRead hw hr hk hin hlegal |>.trans (by rw [henv, hvalue]), fun j hj => ?_⟩
  rw [State.windowValue_lane buf i n.bytes_le_four _ hj,
    State.windowByte_of_settled (s := { s with inbox := rest }) hset, ← ite_and]
  rfl

theorem State.unsettled_of_idle (hrun : s.run = false) (buf : Source) : s.unsettled buf = false := by
  unfold State.unsettled
  split <;> simp [hrun]

/-- Settles O51: with no command running every window is settled. -/
theorem windowReadIsLittleEndian : Obligations.WindowReadIsLittleEndian := by
  unfold Obligations.WindowReadIsLittleEndian
  intro s buf i n addr k rest hw hr hseq hi halign haddr hin
  have hrun : s.run = false := s.run_eq_false.2 hseq
  have h := State.unsettled_of_idle hrun buf
  cases buf <;> exact step_windowRead_of_settled hw hr (.inr hrun) h hi halign haddr hin

/-! ### Windows of buffers the running command does not write (R41, R132) -/

/-- R41: the commands that may write FB, by opcode. -/
theorem writesFb_iff_opcode (i : Instr) :
    writesFb i = true ↔ i.opcode ∈ [0x10, 0x11, 0x12, 0x13, 0x14, 0x15, 0x16, 0x1A, 0x1B, 0x31] := by
  cases i <;> simp only [writesFb, Instr.opcode] <;> decide

/-- R41: the commands that may write PB, by opcode. -/
theorem writesPb_iff_opcode (i : Instr) : writesPb i = true ↔ i.opcode ∈ [0x20, 0x21] := by
  cases i <;> simp only [writesPb, Instr.opcode] <;> decide

/-- R41, R132: a buffer is settled where the word in CUR decodes to no command that may write it. -/
theorem State.unsettled_of_not_mayWrite {buf : Source} (h : ∀ c, decode s.cur = .ok c → ¬ mayWrite c buf = true) :
    s.unsettled buf = false := by
  unfold State.unsettled
  split
  case h_1 c hd => simp [h c hd]
  case h_2 => rfl

/-- Settles O52: the opcodes R41 does not list are those of the commands that leave the buffer alone. -/
theorem settledWindowByteIsExact : Obligations.SettledWindowByteIsExact := by
  unfold Obligations.SettledWindowByteIsExact
  intro s buf i n addr rest hw hr _ hop hi halign haddr hin
  cases buf with
  | fb =>
    have h : s.unsettled .fb = false :=
      State.unsettled_of_not_mayWrite fun c hd => (writesFb_iff_opcode c).not.2 (hop c hd)
    exact step_windowRead_of_settled hw hr (.inl rfl) h hi halign haddr hin
  | pb =>
    have h : s.unsettled .pb = false :=
      State.unsettled_of_not_mayWrite fun c hd => (writesPb_iff_opcode c).not.2 (hop c hd)
    exact step_windowRead_of_settled hw hr (.inl rfl) h hi halign haddr hin

/-! ### Register reads (R40, R43, R132) -/

/-- R40: reserved register addresses read 0. -/
theorem State.registerValue_reserved {a : Nat} (h : 0x38 ≤ a) (s : State) : s.registerValue a = 0 := by
  unfold State.registerValue
  split
  case h_13 => rfl
  all_goals omega

/-- With no command running a counter register reads its value. -/
theorem State.counterValue_of_idle (h : s.run = false) (before : Word) (value : State → Word) :
    s.counterValue before value = value s := by
  simp [State.counterValue, h]

/-- R43: with no command running the counter registers read what the image unit and the load hold. -/
theorem State.registerValue_counters (h : s.run = false) :
    s.registerValue 0x28 = s.image.dimWord ∧ s.registerValue 0x2C = s.image.offWord ∧
      s.registerValue 0x30 = s.image.cnt ∧ s.registerValue 0x34 = s.loadCnt := by
  simp [State.registerValue, State.counterValue_of_idle h]

/-- R27: GEOM holds the panel's width and height. -/
theorem State.toNat_geomWord (hw : s.cfg.wf = true) : s.geomWord.toNat = s.cfg.width + 65536 * s.cfg.height := by
  obtain ⟨-, hwidth, -, -, hheight, -⟩ := (Config.wf_iff s.cfg).1 hw
  rw [State.geomWord, toNat_halves, BitVec.toNat_ofNat, BitVec.toNat_ofNat, Nat.mod_eq_of_lt (by omega),
    Nat.mod_eq_of_lt (by omega)]

/-- R27: FB_SIZE holds SIZE. -/
theorem State.toNat_sizeWord (hw : s.cfg.wf = true) : s.sizeWord.toNat = s.cfg.size := by
  obtain ⟨-, -, -, -, -, -, hsize, -⟩ := (Config.wf_iff s.cfg).1 hw
  rw [State.sizeWord, BitVec.toNat_ofNat, Nat.mod_eq_of_lt (by omega)]

/-- R24: bit 0 of STATUS is RUN. -/
theorem State.statusWord_run (s : State) : s.statusWord.getLsbD 0 = s.run := statusWordHasItsFields.1 s 0

/-- R132: a register read counts a free choice where a command runs. -/
theorem Env.afterRead_registers {a : Nat} (h : a < 0x100000) (n : AccessSize) (s : State) :
    Env.afterRead a n s =
      { s.env with choicesDrawn := if s.run then s.env.choicesDrawn + 1 else s.env.choicesDrawn } := by
  simp only [Env.afterRead, regionOf_registers h]
  split <;> rfl

/-- R43: a legal register read is answered with the register's value. -/
theorem step_registerRead (hw : s.cfg.wf = true) (hr : s.resetN = true) (hk : k = 0 ∨ s.run = false)
    (ha : addr.toNat < 0x100000) (h4 : addr.toNat % 4 = 0) (hin : s.inbox = .act k (.read addr .four) :: rest) :
    step s = .next
      { s with
        inbox := rest
        replies := s.replies ++ [some (State.registerValue addr.toNat { s with inbox := rest })]
        env := Env.afterRead addr.toNat .four s } := by
  have hlegal : legalRead addr.toNat .four = true := (legalRead_registers ha _).2 ⟨rfl, h4⟩
  rw [step_legalRead hw hr hk hin hlegal]
  simp only [State.readValue, hlegal, if_true, regionOf_registers ha]

/-- Settles O55: the answer is `State.registerValue`, which has one case a register. -/
theorem registerReadHasNoSideEffect : Obligations.RegisterReadHasNoSideEffect := by
  unfold Obligations.RegisterReadHasNoSideEffect
  intro s addr k rest hw hr hk ha h4 hin
  refine ⟨_, _, (step_registerRead hw hr hk ha h4 hin).trans (by rw [Env.afterRead_registers ha]), fun hrun => by simp [hrun],
    ?_, ?_, ?_, ?_, ?_, ?_, ?_, ?_, ?_, fun hrun => ?_⟩
  · rintro (rfl | rfl | hres)
    · rfl
    · rfl
    · exact State.registerValue_reserved hres _
  · rintro rfl; exact BitVec.toNat_setWidth_of_le (by decide)
  · rintro rfl; exact BitVec.toNat_setWidth_of_le (by decide)
  · rintro rfl; exact BitVec.toNat_setWidth_of_le (by decide)
  · rintro rfl; exact BitVec.toNat_setWidth_of_le (by decide)
  · rintro rfl; exact ⟨rfl, s.statusWord_run⟩
  · rintro rfl; rfl
  · rintro rfl; exact State.toNat_geomWord hw
  · rintro rfl; exact State.toNat_sizeWord hw
  · obtain ⟨hdim, hoff, hcnt, hload⟩ := State.registerValue_counters (s := { s with inbox := rest }) hrun
    refine ⟨?_, ?_, ?_, ?_⟩ <;> rintro rfl
    · exact (congrArg BitVec.toNat hdim).trans (toNat_halves s.image.tw s.image.th)
    · exact (congrArg BitVec.toNat hoff).trans (toNat_halves s.image.xoff s.image.yoff)
    · exact hcnt
    · exact hload

end Sys2Proof.Machine


/-! PROOFS. The opcode map and the words of the commands: the decoder against the printed map, encoding and decoding, and the
assembler's command lines (R53, R55 to R57, R61). -/

namespace Sys2Proof

open Machine

/-! ### The rows of the opcode map (R56) -/

/-- R56: two rows that ask for different values of a bit both masks cover have no word in common. -/
theorem not_matches_both {m p m' p' : Word} (h : p &&& m' ≠ p' &&& m) (w : Word) : ¬ (w &&& m = p ∧ w &&& m' = p') := by
  rintro ⟨rfl, rfl⟩
  exact h (by rw [BitVec.and_assoc, BitVec.and_assoc, BitVec.and_comm m m'])

/-- R56: any two rows of the table differ in such a bit. -/
theorem opcodeRows_clash : opcodeRows.Pairwise fun r r' => r.pattern &&& r'.mask ≠ r'.pattern &&& r.mask := by decide

/-- R56: the table the decoder searches is the printed map. -/
theorem opcodeRows_printed : opcodeRows.map (fun r => (r.pattern, r.mask)) = printedOpcodeMap := rfl

/-- Settles O3: any two rows clash in a bit both masks cover. -/
theorem noWordMatchesTwoRows : Obligations.NoWordMatchesTwoRows := by
  unfold Obligations.NoWordMatchesTwoRows
  exact ⟨opcodeRows_printed, opcodeRows_clash.imp fun hclash w => not_matches_both hclash w⟩

/-! ### What the decoder answers (R57) -/

theorem OpcodeRow.matchesWord_iff (r : OpcodeRow) (w : Word) : r.matchesWord w = true ↔ w &&& r.mask = r.pattern := by
  simp [OpcodeRow.matchesWord]

/-- R57: what decodes has matched a row, and is what that row reads of the word. -/
theorem exists_row_of_decode {w : Word} {i : Instr} (h : decode w = .ok i) :
    ∃ r ∈ opcodeRows, w &&& r.mask = r.pattern ∧ r.build w = i := by
  unfold decode at h
  split at h
  case h_1 r hfind =>
    have hm := List.find?_some hfind
    exact ⟨r, List.mem_of_find?_eq_some hfind, (r.matchesWord_iff w).1 hm, Except.ok.inj h⟩
  case h_2 => cases h

/-- R56: a word matches at most one row. -/
theorem row_unique {w : Word} {r r' : OpcodeRow} (hr : r ∈ opcodeRows) (hr' : r' ∈ opcodeRows)
    (hm : w &&& r.mask = r.pattern) (hm' : w &&& r'.mask = r'.pattern) : r = r' := by
  have hsymm : Std.Symm fun r r' : OpcodeRow => r.pattern &&& r'.mask ≠ r'.pattern &&& r.mask := ⟨fun _ _ h => h.symm⟩
  by_contra hne
  exact not_matches_both (opcodeRows_clash.forall hr hr' hne) w ⟨hm, hm'⟩

/-- R57: a word decodes to what the row it matches reads of it, since it matches no other row. -/
theorem decode_of_match {w : Word} {r : OpcodeRow} (hr : r ∈ opcodeRows) (hm : w &&& r.mask = r.pattern) :
    decode w = .ok (r.build w) := by
  unfold decode
  split
  case h_1 r' hfind =>
    have hm' := List.find?_some hfind
    rw [row_unique hr (List.mem_of_find?_eq_some hfind) hm ((r'.matchesWord_iff w).1 hm')]
  case h_2 hfind => exact absurd ((r.matchesWord_iff w).2 hm) (List.find?_eq_none.1 hfind r hr)

/-- Settles O4: the decoder's search fails exactly where no row of its table matches, and the table is the printed map. -/
theorem illegalWordsMatchNoRow : Obligations.IllegalWordsMatchNoRow := by
  unfold Obligations.IllegalWordsMatchNoRow
  intro w
  rw [← opcodeRows_printed, List.forall_mem_map]
  constructor
  · rintro ⟨why, herr⟩ r hr hm
    rw [decode_of_match hr hm] at herr
    cases herr
  · intro hno
    cases hd : decode w with
    | error why => exact ⟨why, rfl⟩
    | ok i =>
      obtain ⟨r, hr, hm, -⟩ := exists_row_of_decode hd
      exact absurd hm (hno r hr)

/-! ### The fields of a word (R53) -/

theorem colourBit_colourField (w : Word) : colourBit (colourField w) = w &&& 0x100#32 := by
  rw [show 0x100#32 = BitVec.twoPow 32 8 from rfl, BitVec.and_twoPow, colourField]
  split <;> rfl

theorem modeBit_modeField (w : Word) : modeBit (modeField w) = w &&& 0x200#32 := by
  rw [show 0x200#32 = BitVec.twoPow 32 9 from rfl, BitVec.and_twoPow, modeField]
  split <;> rfl

theorem sourceBit_sourceField (w : Word) : sourceBit (sourceField w) = w &&& 0x400#32 := by
  rw [show 0x400#32 = BitVec.twoPow 32 10 from rfl, BitVec.and_twoPow, sourceField]
  split <;> rfl

theorem immBits_immField (w : Word) : immBits (immField w) = w &&& 0x00FF0000#32 := by
  ext k hk
  interval_cases k <;> simp [immBits, immField]

/-- R53: IMM8 is read back from a word whose other bits are OP alone. -/
theorem immField_opcode_or_immBits (op imm : Byte) : immField (op.setWidth 32 ||| immBits imm) = imm := by
  ext k hk
  interval_cases k <;> simp [immField, immBits]

/-- R53: IMM8 lies outside the mask of the rows that have it. -/
theorem opcode_or_immBits_and_mask (op imm : Byte) :
    (op.setWidth 32 ||| immBits imm) &&& 0xFF00FFFF#32 = op.setWidth 32 := by
  ext k hk
  interval_cases k <;> simp [immBits]

/-! ### A word is the encoding of what it decodes to (R56) -/

/-- R56: a row gives a command of the row's own OP value. -/
theorem opcode_build (w : Word) : ∀ r ∈ opcodeRows, (r.build w).opcode.setWidth 32 = r.pattern := by
  simp only [opcodeRows, drawingRows, loadRows, pipelineRows, panelRows, List.forall_mem_append, List.forall_mem_cons]
  simp [Instr.opcode]

/-- R55, R56: the operands a row reads are all of the word that its mask leaves. -/
theorem fieldBits_build (w : Word) : ∀ r ∈ opcodeRows, (r.build w).fieldBits = w &&& ~~~r.mask := by
  simp only [opcodeRows, drawingRows, loadRows, pipelineRows, panelRows, List.forall_mem_append, List.forall_mem_cons]
  simp [Instr.fieldBits, colourBit_colourField, modeBit_modeField, sourceBit_sourceField, immBits_immField,
    ← BitVec.and_or_distrib_left]

/-- Settles O2: OP gives the masked bits of the word, and the operands the rest. -/
theorem encodeOfDecodeIsTheWord : Obligations.EncodeOfDecodeIsTheWord := by
  unfold Obligations.EncodeOfDecodeIsTheWord
  intro w i hd
  obtain ⟨r, hr, hm, rfl⟩ := exists_row_of_decode hd
  calc encode (r.build w) = w &&& r.mask ||| w &&& ~~~r.mask := by
        rw [encode, opcode_build w r hr, fieldBits_build w r hr, hm]
    _ = w := by rw [← BitVec.and_or_distrib_left, BitVec.or_not_self, BitVec.and_allOnes]

/-- R53, R56: a row with IMM8 reads the operand back from its OP and that operand. -/
theorem decode_of_immRow {op : Byte} {command : Byte → Instr}
    (hr : ⟨0xFF00FFFF, op.setWidth 32, fun w => command (immField w)⟩ ∈ opcodeRows) (imm : Byte) :
    decode (op.setWidth 32 ||| immBits imm) = .ok (command imm) := by
  rw [decode_of_match hr (opcode_or_immBits_and_mask op imm)]
  exact congrArg (fun b => Except.ok (command b)) (immField_opcode_or_immBits op imm)

/-- Settles O1: the words of the commands without a byte are finitely many and decode by evaluation; a word with a byte
matches its row whatever the byte, and the row reads the byte back. -/
theorem decodeOfEncodeIsTheCommand : Obligations.DecodeOfEncodeIsTheCommand := by
  unfold Obligations.DecodeOfEncodeIsTheCommand
  intro i
  cases i with
  | fbSetPixel c | fbHLine c | fbVLine c | fbRect c | fbFillRect c | fbFill c => cases c <;> rfl
  | fbLoadByte imm => exact decode_of_immRow (op := 0x19) (List.mem_of_getElem? (i := 8) rfl) imm
  | pipePix imm => exact decode_of_immRow (op := 0x21) (List.mem_of_getElem? (i := 12) rfl) imm
  | pnlClear m => cases m <;> rfl
  | pnlDisplay m s => cases m <;> cases s <;> rfl
  | fbClear | fbLoadBegin | fbLoadCommit | fbLoadPb | pipeBegin | pipeAbort | pnlInit | pnlSleep | pnlCleanup => rfl

/-- Settles O5: each of the words is the encoding of its command. -/
theorem writtenOutWordsDecode : Obligations.WrittenOutWordsDecode := by
  unfold Obligations.WrittenOutWordsDecode
  exact ⟨decodeOfEncodeIsTheCommand (.fbSetPixel .black), decodeOfEncodeIsTheCommand (.fbHLine .white),
    decodeOfEncodeIsTheCommand (.fbLoadByte 0xAB), decodeOfEncodeIsTheCommand (.pipePix 0x7F),
    decodeOfEncodeIsTheCommand (.pnlClear .fast), decodeOfEncodeIsTheCommand (.pnlDisplay .fast .pb),
    decodeOfEncodeIsTheCommand .pnlCleanup⟩

/-! ### Command lines (R61) -/

/-- R61: a well-formed line leaves out every qualifier its command does not use. -/
theorem CommandLine.unused_of_wf {l : CommandLine} (h : l.wf = true) :
    (l.mnemonic.usesColour = false → l.c = none) ∧ (l.mnemonic.usesMode = false → l.m = none) ∧
      (l.mnemonic.usesSource = false → l.s = none) ∧ (l.mnemonic.usesByte = false → l.byte = none) := by
  simp only [CommandLine.wf, Bool.and_eq_true, Bool.or_eq_true, Option.isNone_iff_eq_none] at h
  obtain ⟨⟨⟨⟨hc, hm⟩, hs⟩, hb⟩, -⟩ := h
  exact ⟨fun hu => hc.resolve_right (by simp [hu]), fun hu => hm.resolve_right (by simp [hu]),
    fun hu => hs.resolve_right (by simp [hu]), fun hu => hb.resolve_right (by simp [hu])⟩

theorem opcode_lineCommand (l : CommandLine) : (lineCommand l).opcode = mnemonicOp l.mnemonic := by
  unfold lineCommand
  cases l.mnemonic <;> rfl

@[simp] theorem colourBit_white : colourBit .white = 0#32 := rfl
@[simp] theorem modeBit_full : modeBit .full = 0#32 := rfl
@[simp] theorem sourceBit_fb : sourceBit .fb = 0#32 := rfl
@[simp] theorem immBits_zero : immBits 0#8 = 0#32 := rfl

/-- R61: the qualifiers a well-formed line's command does not use add nothing to its word. -/
theorem commandWord_eq_encode {l : CommandLine} (h : l.wf = true) : commandWord l = encode (lineCommand l) := by
  obtain ⟨hc, hm, hs, hb⟩ := CommandLine.unused_of_wf h
  rw [encode, opcode_lineCommand, commandWord]
  obtain ⟨mnemonic, c, m, s, byte⟩ := l
  dsimp only at hc hm hs hb
  cases mnemonic with
  | FB_SETPIXEL | FB_HLINE | FB_VLINE | FB_RECT | FB_FILLRECT | FB_FILL =>
    simp [hm rfl, hs rfl, hb rfl, lineCommand, Instr.fieldBits]
  | FB_LOAD_BYTE | PIPE_PIX => simp [hc rfl, hm rfl, hs rfl, lineCommand, Instr.fieldBits]
  | PNL_CLEAR => simp [hc rfl, hs rfl, hb rfl, lineCommand, Instr.fieldBits]
  | PNL_DISPLAY => simp [hc rfl, hb rfl, lineCommand, Instr.fieldBits, BitVec.or_assoc]
  | FB_CLEAR | FB_LOAD_BEGIN | FB_LOAD_COMMIT | FB_LOAD_PB | PIPE_BEGIN | PIPE_ABORT | PNL_INIT | PNL_SLEEP | PNL_CLEANUP =>
    simp [hc rfl, hm rfl, hs rfl, hb rfl, lineCommand, Instr.fieldBits]

/-- Settles O6: the line's word is the encoding of its command, which decodes to it. -/
theorem wellFormedLinesAssembleToLegalWords : Obligations.WellFormedLinesAssembleToLegalWords := by
  unfold Obligations.WellFormedLinesAssembleToLegalWords
  intro l hl
  rw [commandWord_eq_encode hl]
  exact ⟨decodeOfEncodeIsTheCommand _, opcode_lineCommand l⟩

end Sys2Proof


/-! PROOFS. Acceptance and completion of a command, and the load of a framebuffer (R22, R25, R57, R60, R65, R76 to R78,
R116). -/

namespace Sys2Proof.Machine

/-! ### The step at an accepted word (R57, R60) -/

/-- Settles O7: no access is due, so the sequencer runs the command to its completion. -/
theorem stepRunsTheAcceptedCommand : Obligations.StepRunsTheAcceptedCommand := by
  unfold Obligations.StepRunsTheAcceptedCommand
  intro s i hw hq hd hin
  have hrun : s.run = true := s.run_eq_true.2 (by simp [hq])
  rw [step_sequencer hw (hin.imp_right fun hwait => ⟨hrun, hwait⟩), sequencerRun_eq, State.finished_of_accepted hq hd,
    exec_eq_runLines]

/-- Settles O8: the sequencer's whole work on an illegal word is its completion. -/
theorem illegalWordCompletesAtOnce : Obligations.IllegalWordCompletesAtOnce := by
  unfold Obligations.IllegalWordCompletesAtOnce
  intro s why hw hq hd hin
  rw [step_sequencer hw (.inl hin), sequencerRun_eq, State.finished_of_illegal hq hd]
  rfl

/-- Settles O13: a command's meaning is the run of its lines, none of which touches CUR, and the run ends in a completion. -/
theorem everyCommandCompletes : Obligations.EveryCommandCompletes := by
  unfold Obligations.EveryCommandCompletes
  intro i s
  obtain ⟨code, t, e, host⟩ := runLines_sameHost (linesOf i s) s
  refine ⟨t.complete code, by rw [exec_eq_runLines, e], rfl, ?_, rfl⟩
  rw [State.complete_result, host.cur]

/-! ### Writes to CMD (R22, R60, R132) -/

theorem State.issue_of_idle {s : State} (h : s.run = false) (w : Word) : s.issue w = s.accept w := by
  simp [State.issue, h]

theorem State.issue_of_running {s : State} (h : s.run = true) (w : Word) : s.issue w = s.noteOverrun := by
  simp [State.issue, h]

/-- R60: the step that takes a write to CMD issues the word. -/
theorem step_cmdWrite {s : State} (hw : s.cfg.wf = true) (hr : s.resetN = true) {k : Nat} (hk : k = 0 ∨ s.run = false)
    {w : Word} {rest : List HostEvent} (hin : s.inbox = .act k (.write 0 .four w) :: rest) :
    step s = .next (State.issue w { s with inbox := rest }) := by
  rw [step_act hw hin hk]
  exact congrArg _ (State.takeAct_registerWrite (s := { s with inbox := rest }) hr (by decide) (by decide) w)

/-- Settles O9: with no command running, the word issued is accepted. -/
theorem cmdWriteIsAcceptedWhenIdle : Obligations.CmdWriteIsAcceptedWhenIdle := by
  unfold Obligations.CmdWriteIsAcceptedWhenIdle
  intro s k w rest hw hr hq hin
  have hidle : s.run = false := s.run_eq_false.2 hq
  rw [step_cmdWrite hw hr (.inr hidle) hin, State.issue_of_idle (s := { s with inbox := rest }) hidle]
  rfl

/-- Settles O10: while a command runs, issuing a word only notes the overrun. -/
theorem cmdWriteIsDroppedWhileRunning : Obligations.CmdWriteIsDroppedWhileRunning := by
  unfold Obligations.CmdWriteIsDroppedWhileRunning
  intro s w rest hw hr hrun hin
  rw [step_cmdWrite hw hr (.inl rfl) hin, State.issue_of_running (s := { s with inbox := rest }) hrun]
  rfl

/-! ### Commands issued one after another (R63) -/

theorem afterCommands_cons (i : Instr) (rest : List Instr) (s : State) :
    afterCommands (i :: rest) s =
      afterCommands rest (runLines (linesOf i (s.accept (encode i))) (s.accept (encode i))) := by
  rw [afterCommands, exec_eq_runLines]

theorem afterCommands_append (before later : List Instr) (s : State) :
    afterCommands (before ++ later) s = afterCommands later (afterCommands before s) := by
  induction before generalizing s with
  | nil => rfl
  | cons i rest ih => rw [List.cons_append, afterCommands_cons, afterCommands_cons, ih]

theorem afterCommands_singleton (i : Instr) (s : State) :
    afterCommands [i] s = runLines (linesOf i (s.accept (encode i))) (s.accept (encode i)) :=
  afterCommands_cons i [] s

/-! ### The load commands (R76 to R78) -/

theorem runLines_fbLoadBegin (s : State) :
    runLines linesFbLoadBegin s = State.complete .ok { s with loadAct := true, loadCnt := 0 } := rfl

theorem runLines_fbLoadByte {s : State} (h : s.loadAct = true) (imm : Byte) :
    runLines (linesFbLoadByte imm) s = (s.stageByte imm).countByte.complete .ok := by
  rw [linesFbLoadByte, runLines_go (t := s) (by simp [microStep, guardLine, h]), runLines_go rfl, runLines_go rfl,
    runLines_nil]

theorem runLines_fbLoadCommit_full {s : State} (h : s.loadAct = true) (hfull : s.loadCnt.toNat = s.cfg.size) :
    runLines linesFbLoadCommit s =
      State.complete .ok { s with loadAct := false, fb := Memory.tabulate s.cfg.size s.stage.stageRead } := by
  rw [linesFbLoadCommit, runLines_go (t := s) (by simp [microStep, guardLine, h]), runLines_go rfl,
    runLines_go (t := { s with loadAct := false }) (by simp [microStep, guardLine, hfull])]
  rfl

theorem runLines_fbLoadCommit_mismatch {s : State} (h : s.loadAct = true) (hne : s.loadCnt.toNat ≠ s.cfg.size) :
    runLines linesFbLoadCommit s = State.complete .sizeMismatch { s with loadAct := false } := by
  rw [linesFbLoadCommit, runLines_go (t := s) (by simp [microStep, guardLine, h]), runLines_go rfl]
  exact runLines_stop (by simp [microStep, guardLine, hne]) _

/-- R77: what a staged and counted byte leaves. -/
theorem State.stageByte_countByte (imm : Byte) (s : State) :
    (s.stageByte imm).countByte =
      { s with
        stage := if s.loadCnt.toNat < s.cfg.size then Cells.put s.stage s.loadCnt.toNat imm else s.stage
        loadCnt := if s.loadCnt.toNat ≤ s.cfg.size then s.loadCnt + 1 else s.loadCnt } := by
  unfold State.stageByte
  split <;> unfold State.countByte <;> split <;> simp_all

/-! ### A load under way (R65, R76, R77) -/

/-- `t` has opened a load from `s` and taken `bytes`: the first SIZE of them are staged, and they are counted up to
SIZE + 1. -/
structure Loading (s : State) (bytes : List Byte) (t : State) : Prop where
  config : t.cfg = s.cfg
  opened : t.loadAct = true
  counted : t.loadCnt.toNat = min bytes.length (s.cfg.size + 1)
  staged : ∀ (i : Nat) (h : i < bytes.length), i < s.cfg.size → t.stage.stageRead i = bytes[i]
  fb : t.fb = s.fb
  pb : t.pb = s.pb
  trace : t.trace = s.trace

theorem Loading.begin (s : State) : Loading s [] (afterCommands [.fbLoadBegin] s) := by
  rw [afterCommands_singleton, linesOf, runLines_fbLoadBegin]
  exact ⟨rfl, rfl, (Nat.zero_min _).symm, fun i h => absurd h (Nat.not_lt_zero i), rfl, rfl, rfl⟩

/-- R77: the next byte goes to the place its number gives, if SIZE has not been reached. -/
theorem Loading.byte {s t : State} {bytes : List Byte} (hw : s.cfg.wf = true) (h : Loading s bytes t) (b : Byte) :
    Loading s (bytes ++ [b]) (afterCommands [.fbLoadByte b] t) := by
  obtain ⟨-, -, -, -, -, -, hsize, -⟩ := (Config.wf_iff s.cfg).1 hw
  obtain ⟨hcfg, hact, hcnt, hstage, hfb, hpb, htrace⟩ := h
  rw [afterCommands_singleton, linesOf, runLines_fbLoadByte (s := t.accept _) hact, State.stageByte_countByte]
  refine ⟨hcfg, hact, ?_, fun i hi hi' => ?_, hfb, hpb, htrace⟩
  · simp only [State.complete_loadCnt, State.accept_loadCnt, State.accept_cfg, List.length_append,
      List.length_singleton, hcfg]
    split
    · rw [BitVec.toNat_add, hcnt, show (1 : Word).toNat = 1 from rfl]; omega
    · omega
  · simp only [State.complete_stage, State.accept_stage, State.accept_loadCnt, State.accept_cfg, hcfg]
    rw [List.length_append, List.length_singleton] at hi
    rcases Nat.lt_or_eq_of_le (Nat.le_of_lt_succ hi) with hlt | rfl
    · rw [List.getElem_append_left hlt, ← hstage i hlt hi']
      split
      · rw [Memory.stageRead_put, if_neg (by omega)]
      · rfl
    · rw [List.getElem_concat_length rfl, if_pos (by omega), Memory.stageRead_put, if_pos (by omega)]

theorem Loading.bytes {s : State} (hw : s.cfg.wf = true) (bytes : List Byte) :
    Loading s bytes (afterCommands (.fbLoadBegin :: bytes.map .fbLoadByte) s) := by
  induction bytes using List.reverseRecOn with
  | nil => exact Loading.begin s
  | append_singleton bytes b ih =>
    rw [List.map_append, ← List.cons_append, afterCommands_append]
    exact ih.byte hw b

/-- Settles O33: by induction over the bytes (`Loading.bytes`) the count is SIZE at the commit exactly where SIZE bytes were
given, and then STAGE holds them all. -/
theorem loadSucceedsExactlyAtSize : Obligations.LoadSucceedsExactlyAtSize := by
  unfold Obligations.LoadSucceedsExactlyAtSize
  intro s bytes hw
  dsimp only
  rw [afterCommands_append, afterCommands_singleton, linesOf]
  obtain ⟨hcfg, hact, hcnt, hstage, hfb, hpb, htrace⟩ := Loading.bytes hw bytes
  generalize afterCommands (.fbLoadBegin :: bytes.map .fbLoadByte) s = t at *
  by_cases hfull : bytes.length = s.cfg.size
  · rw [runLines_fbLoadCommit_full (s := t.accept _) hact
      (by rw [State.accept_loadCnt, State.accept_cfg, hcnt, hcfg]; omega)]
    refine ⟨fun _ => ⟨rfl, ?_⟩, fun hne => absurd hfull hne, rfl, hpb, htrace⟩
    refine List.ext_getElem (by rw [Memory.length_bytes, hfull]) fun i _ hi => ?_
    have hi' : i < s.cfg.size := hfull ▸ hi
    simp [Memory.bytes, Memory.read_tabulate, hcfg, hi', hstage i hi hi']
  · rw [runLines_fbLoadCommit_mismatch (s := t.accept _) hact
      (by rw [State.accept_loadCnt, State.accept_cfg, hcnt, hcfg]; omega)]
    exact ⟨fun h => absurd h hfull, fun _ => ⟨rfl, hfb⟩, rfl, hpb, htrace⟩

end Sys2Proof.Machine


/-! PROOFS. The framebuffer commands: the pixels a drawing command colours, whole-buffer writes and the load commands (R69 to
R79). -/

namespace Sys2Proof.Machine

/-! ### Drawing (R69 to R73) -/

/-- R60, R118: a rule of one line, taken in one step, completes with OK on the state the line leaves. -/
theorem exec_of_oneLine {i : Instr} {op : Micro} {s t : State} (hl : linesOf i s = [op]) (hm : microStep op s = .go t) :
    exec i s = .next (t.complete .ok) := by
  rw [exec_eq_runLines, hl, runLines_go hm, runLines_nil]

/-- R72: the pixels of an outline; a side of length 0 leaves its two runs empty. -/
theorem pixel_rect {cfg : Config} (hw : cfg.width % 8 = 0) (buf : Memory) (x y : Int) (w n : Nat) (c : Colour)
    {px py : Nat} (hx : px < cfg.width) (hy : py < cfg.height) :
    pixel cfg (rect cfg buf x y w n c) px py =
      if (x ≤ px ∧ (px : Int) < x + w ∧ ((py : Int) = y ∨ (py : Int) = y + n - 1)) ∨
         (y ≤ py ∧ (py : Int) < y + n ∧ ((px : Int) = x ∨ (px : Int) = x + w - 1))
      then storedBit c else pixel cfg buf px py := by
  rw [rect, pixel_vLine hw _ _ _ _ _ hx hy, pixel_vLine hw _ _ _ _ _ hx hy, pixel_hLine hw _ _ _ _ _ hx hy,
    pixel_hLine hw _ _ _ _ _ hx hy, ← ite_or, ← ite_or, ← ite_or]
  exact if_congr (by omega) rfl rfl

/-- Settles O23: the command is one SetPix, which changes one pixel and no byte but that pixel's. -/
theorem setPixelColoursOnePixel : Obligations.SetPixelColoursOnePixel := by
  unfold Obligations.SetPixelColoursOnePixel
  intro c s hw
  exact ⟨decodeOfEncodeIsTheCommand (.fbSetPixel c), _, exec_of_oneLine rfl rfl,
    fun _ _ hx hy => pixel_setPix (Config.width_mod hw) _ _ _ _ hx hy, fun _ hi => read_setPix_of_ne hi _ _⟩

/-- Settles O24: the command is one horizontal run. -/
theorem hLineColoursTheRun : Obligations.HLineColoursTheRun := by
  unfold Obligations.HLineColoursTheRun
  intro c s hw
  exact ⟨decodeOfEncodeIsTheCommand (.fbHLine c), _, exec_of_oneLine rfl rfl,
    fun _ _ hx hy => pixel_hLine (Config.width_mod hw) _ _ _ _ _ hx hy,
    fun _ hi => read_hLine_past (Config.width_mod hw) _ _ _ _ _ hi⟩

/-- Settles O25: the command is one vertical run. -/
theorem vLineColoursTheRun : Obligations.VLineColoursTheRun := by
  unfold Obligations.VLineColoursTheRun
  intro c s hw
  exact ⟨decodeOfEncodeIsTheCommand (.fbVLine c), _, exec_of_oneLine rfl rfl,
    fun _ _ hx hy => pixel_vLine (Config.width_mod hw) _ _ _ _ _ hx hy,
    fun _ hi => read_vLine_past (Config.width_mod hw) _ _ _ _ _ hi⟩

/-- Settles O26: the command is the outline's four runs, whose pixels together are `pixel_rect`'s. -/
theorem rectColoursTheOutline : Obligations.RectColoursTheOutline := by
  unfold Obligations.RectColoursTheOutline
  intro c s hw
  exact ⟨decodeOfEncodeIsTheCommand (.fbRect c), _, exec_of_oneLine rfl rfl,
    fun _ _ hx hy => pixel_rect (Config.width_mod hw) _ _ _ _ _ _ hx hy,
    fun _ hi => read_rect_past (Config.width_mod hw) _ _ _ _ _ _ hi⟩

/-- Settles O27: the command is the rectangle's horizontal runs. -/
theorem fillRectColoursTheRectangle : Obligations.FillRectColoursTheRectangle := by
  unfold Obligations.FillRectColoursTheRectangle
  intro c s hw
  exact ⟨decodeOfEncodeIsTheCommand (.fbFillRect c), _, exec_of_oneLine rfl rfl,
    fun _ _ hx hy => pixel_fillRect (Config.width_mod hw) _ _ _ _ _ _ hx hy,
    fun _ hi => read_fillRect_past (Config.width_mod hw) _ _ _ _ _ _ hi⟩

/-! ### Whole-buffer writes (R74, R75, R78, R79) -/

theorem Memory.read_tabulate_of_lt {n i : Nat} (h : i < n) (f : Nat → Byte) : (Memory.tabulate n f).read i = f i := by
  rw [Memory.read_tabulate, if_pos h]

/-- Settles O28: each command is one loop that writes its colour's byte at every index. -/
theorem clearAndFillWriteEveryByte : Obligations.ClearAndFillWriteEveryByte := by
  unfold Obligations.ClearAndFillWriteEveryByte
  intro s
  refine ⟨⟨_, exec_of_oneLine rfl rfl, fun _ hi => Memory.read_tabulate_of_lt hi _⟩,
    fun c => ⟨_, exec_of_oneLine rfl rfl, fun _ hi => ?_⟩,
    decodeOfEncodeIsTheCommand .fbClear, fun c => decodeOfEncodeIsTheCommand (.fbFill c)⟩
  rw [Memory.read_tabulate_of_lt hi]
  cases c <;> rfl

/-! ### The load commands (R76 to R79) -/

/-- R77, R78: with no load open, a rule that needs one is a SequenceError and does nothing. -/
theorem runLines_needLoad_closed {s : State} (h : s.loadAct = false) (rest : List Micro) :
    runLines (.needLoad :: rest) s = s.complete .sequenceError :=
  runLines_stop (by simp [microStep, guardLine, h]) rest

/-- R20: within R6's limits the count of staged bytes does not wrap. -/
theorem toNat_loadCnt_add_one {s : State} (hw : s.cfg.wf = true) (h : s.loadCnt.toNat ≤ s.cfg.size) :
    (s.loadCnt + 1).toNat = s.loadCnt.toNat + 1 := by
  obtain ⟨-, -, -, -, -, -, hsize, -⟩ := (Config.wf_iff s.cfg).1 hw
  exact BitVec.toNat_add_of_lt (show s.loadCnt.toNat + 1 < 2 ^ 32 by omega)

/-- Settles O29: the rule is two assignments. -/
theorem loadBeginOpensALoad : Obligations.LoadBeginOpensALoad := by
  unfold Obligations.LoadBeginOpensALoad
  intro s
  refine ⟨decodeOfEncodeIsTheCommand .fbLoadBegin, ?_⟩
  rw [exec_eq_runLines, linesOf, runLines_fbLoadBegin]

/-- Settles O30: the byte is staged below SIZE only, and counted up to SIZE only. -/
theorem loadByteStagesOneByte : Obligations.LoadByteStagesOneByte := by
  unfold Obligations.LoadByteStagesOneByte
  intro imm s hw
  refine ⟨decodeOfEncodeIsTheCommand (.fbLoadByte imm), fun hclosed => ?_, fun hopen => ?_⟩
  · rw [exec_eq_runLines, linesOf, linesFbLoadByte, runLines_needLoad_closed hclosed]
  · refine ⟨_, _, by rw [exec_eq_runLines, linesOf, runLines_fbLoadByte hopen, State.stageByte_countByte], fun i => ?_, ?_⟩
    · by_cases hroom : s.loadCnt.toNat < s.cfg.size
      · simp [hroom, Memory.stageRead_put, eq_comm]
      · simp [hroom]
    · split
      case isTrue hle => exact toNat_loadCnt_add_one hw hle
      case isFalse => rfl

/-- Settles O31: the load is open or not, and the count is SIZE or not. -/
theorem loadCommitReplacesFramebuffer : Obligations.LoadCommitReplacesFramebuffer := by
  unfold Obligations.LoadCommitReplacesFramebuffer
  intro s
  refine ⟨decodeOfEncodeIsTheCommand .fbLoadCommit, fun hclosed => ?_, fun hopen hne => ?_, fun hopen hfull => ?_⟩
  · rw [exec_eq_runLines, linesOf, linesFbLoadCommit, runLines_needLoad_closed hclosed]
  · rw [exec_eq_runLines, linesOf, runLines_fbLoadCommit_mismatch hopen hne]
  · exact ⟨_, by rw [exec_eq_runLines, linesOf, runLines_fbLoadCommit_full hopen hfull],
      fun _ hi => Memory.read_tabulate_of_lt hi _⟩

/-- Settles O32: the guard stops a command without an image, and the loop copies PB's bytes. -/
theorem loadPbCopiesTheImage : Obligations.LoadPbCopiesTheImage := by
  unfold Obligations.LoadPbCopiesTheImage
  intro s
  refine ⟨decodeOfEncodeIsTheCommand .fbLoadPb, fun hno => ?_,
    fun himage => ⟨_, ?_, fun _ hi => Memory.read_tabulate_of_lt hi _⟩⟩
  · rw [exec_eq_runLines, linesOf, linesFbLoadPb,
      runLines_stop (t := s) (code := .imageNotReady) (by simp [microStep, guardLine, hno])]
  · rw [exec_eq_runLines, linesOf, linesFbLoadPb, runLines_go (t := s) (by simp [microStep, guardLine, himage]),
      runLines_go rfl, runLines_nil]

end Sys2Proof.Machine


/-! PROOFS. The image unit: the scaled size, the three pipeline commands, and a whole image streamed (R81 to R89). -/

namespace Sys2Proof.Machine

/-! ### Scale (R81) -/

/-- R81: the fraction `scaleFactor` gives is the rational minimum: it is at most each of the three bounds and equal to one. -/
theorem scaleFactor_eq_min {cfg : Config} (hW : 0 < cfg.width) (hH : 0 < cfg.height) {sw sh : Nat} (hsw : 0 < sw)
    (hsh : 0 < sh) :
    ((scaleFactor cfg sw sh).1 : ℚ) / (scaleFactor cfg sw sh).2 =
      min (min ((cfg.width : ℚ) / sw) ((cfg.height : ℚ) / sh)) 1 := by
  obtain ⟨-, hd, hone, hwidth, hheight, hcases⟩ := scaleFactor_spec hW hH hsw hsh
  have hd' : (0 : ℚ) < (scaleFactor cfg sw sh).2 := mod_cast hd
  refine le_antisymm (le_min (le_min ?_ ?_) ?_) ?_
  · rw [div_le_div_iff₀ hd' (mod_cast hsw)]; exact_mod_cast hwidth
  · rw [div_le_div_iff₀ hd' (mod_cast hsh)]; exact_mod_cast hheight
  · rw [div_le_one hd']; exact_mod_cast hone
  · rcases hcases with h | h | h <;> simp [h]

/-- The floor of a whole number times a fraction is the quotient of naturals. -/
theorem floor_mul_div (m n d : Nat) : ⌊(m : ℚ) * ((n : ℚ) / d)⌋ = ((m * n / d : Nat) : ℤ) := by
  rw [← mul_div_assoc, ← Nat.cast_mul, ← Int.natCast_floor_eq_floor (by positivity), Nat.floor_div_eq_div]

/-- Settles O34: the fraction is the minimum (`scaleFactor_eq_min`), and the quotient of naturals its floor. -/
theorem scaleIsTheExactMinimum : Obligations.ScaleIsTheExactMinimum := by
  unfold Obligations.ScaleIsTheExactMinimum
  intro cfg sw sh hw hsw hsh
  obtain ⟨hW, -, -, hH, -⟩ := (Config.wf_iff cfg).1 hw
  have hsize : scaleToFit cfg sw sh = (sw * (scaleFactor cfg sw sh).1 / (scaleFactor cfg sw sh).2,
      sh * (scaleFactor cfg sw sh).1 / (scaleFactor cfg sw sh).2) := if_neg (by omega)
  dsimp only
  rw [← scaleFactor_eq_min (by omega) (by omega) hsw hsh, floor_mul_div, floor_mul_div, hsize]
  exact ⟨rfl, rfl⟩

/-! ### The pipeline commands (R86 to R88) -/

/-- R86: the registers hold the scaled size. -/
theorem State.sized_target {s : State} (hw : s.cfg.wf = true) :
    (s.sized.image.tw.toNat, s.sized.image.th.toNat) = scaleToFit s.cfg s.opW s.opH := by
  obtain ⟨htw, hth, -⟩ := State.scale_target hw
  exact Prod.ext htw hth

/-- Settles O35: the registers written are those of `State.sized`, whether the image is opened or not. -/
theorem pipeBeginOpensAnImage : Obligations.PipeBeginOpensAnImage := by
  unfold Obligations.PipeBeginOpensAnImage
  intro s hw
  obtain ⟨htw, hth, hx, hy⟩ := State.sized_placed hw
  refine ⟨decodeOfEncodeIsTheCommand .pipeBegin, s.sized.image, State.sized_target hw, hx, hy, rfl, htw, hth,
    by omega, by omega, fun hempty => ?_, fun hw0 hh0 => ⟨_, ?_, fun _ hi => Memory.read_tabulate_of_lt hi _⟩⟩
  · rw [exec_eq_runLines, linesOf, runLines_pipeBegin, if_pos hempty]
    rfl
  · rw [exec_eq_runLines, linesOf, runLines_pipeBegin, if_neg (not_or.2 ⟨hw0, hh0⟩)]
    rfl

/-- R83, R87: a dark grey value makes pixel number CNT black, and no other pixel changes. -/
theorem State.pixel_packPixel {s : State} (hw : s.cfg.wf = true) (g : Byte) {x y : Nat} (hx : x < s.cfg.width)
    (hy : y < s.cfg.height) :
    pixel s.cfg (s.packPixel g).pb x y =
      if g.toNat < 128 ∧ x = s.image.pixelX s.image.cnt.toNat ∧ y = s.image.pixelY s.image.cnt.toNat then false
      else pixel s.cfg s.pb x y := by
  unfold State.packPixel
  by_cases hg : g.toNat < 128
  · simp only [(isBlack_iff g).2 hg, if_true, hg, true_and, pixel_setPix (Config.width_mod hw) _ _ _ _ hx hy,
      Nat.cast_inj]
    rfl
  · simp [isBlack_iff, hg]

/-- R87: no byte changes but the one of pixel number CNT. -/
theorem State.read_packPixel_of_ne {s : State} (g : Byte) {i : Nat}
    (h : s.image.pixelX s.image.cnt.toNat < s.cfg.width → s.image.pixelY s.image.cnt.toNat < s.cfg.height →
      i ≠ byteIndex s.cfg (s.image.pixelX s.image.cnt.toNat) (s.image.pixelY s.image.cnt.toNat)) :
    (s.packPixel g).pb.read i = s.pb.read i := by
  unfold State.packPixel
  dsimp only
  split
  · exact read_setPix_of_ne (fun ⟨_, hx, _, hy⟩ => h (by omega) (by omega)) _ _
  · rfl

/-- R87: what a pixel taken leaves, the image open or closed. -/
theorem State.pixelTaken_closedIfFull {s : State} (hact : s.pipeAct = true) (g : Byte) :
    (s.pixelTaken g).closedIfFull =
      { s.pixelTaken g with
        pipeAct := !decide ((s.image.cnt + 1).toNat = s.image.tw.toNat * s.image.th.toNat)
        pbValid := decide ((s.image.cnt + 1).toNat = s.image.tw.toNat * s.image.th.toNat) || s.pbValid } := by
  unfold State.closedIfFull
  split
  case isTrue h =>
    rw [decide_eq_true (show (s.image.cnt + 1).toNat = s.image.tw.toNat * s.image.th.toNat from h)]
    rfl
  case isFalse h =>
    rw [decide_eq_false (show (s.image.cnt + 1).toNat ≠ s.image.tw.toNat * s.image.th.toNat from h), Bool.not_false,
      Bool.false_or, ← hact]
    rfl

/-- Settles O36: the guard stops a pixel without an image; else the command packs, counts and closes. -/
theorem pipePixPacksOnePixel : Obligations.PipePixPacksOnePixel := by
  unfold Obligations.PipePixPacksOnePixel
  intro g s hw
  refine ⟨decodeOfEncodeIsTheCommand (.pipePix g), fun hclosed => ?_, fun hopen => ⟨(s.packPixel g).pb, ?_,
    fun x y hx hy => State.pixel_packPixel hw g hx hy, fun i hi => State.read_packPixel_of_ne g hi⟩⟩
  · rw [exec_eq_runLines, linesOf, runLines_pipePix, if_neg (by simp [hclosed])]
  · rw [exec_eq_runLines, linesOf, runLines_pipePix, if_pos hopen, State.pixelTaken_closedIfFull hopen]
    rfl

/-- Settles O37: two assignments and a raise. -/
theorem pipeAbortFails : Obligations.PipeAbortFails := by
  unfold Obligations.PipeAbortFails
  intro s
  refine ⟨decodeOfEncodeIsTheCommand .pipeAbort, ?_⟩
  rw [exec_eq_runLines, linesOf, linesPipeAbort, runLines_go rfl, runLines_go rfl, runLines_stop rfl]

/-! ### A whole image (R84, R87, R89) -/

/-- R84, R89: the pixel (x, y) of the thresholded picture of `greys` on white, in the region the registers give. A pixel
whose grey value has not come is white. -/
def pictureBit (r : ImageRegs) (greys : List Byte) (x y : Nat) : Bool :=
  if r.xoff.toNat ≤ x ∧ x < r.xoff.toNat + r.tw.toNat ∧ r.yoff.toNat ≤ y ∧ y < r.yoff.toNat + r.th.toNat
  then decide (128 ≤ (greys.getD ((y - r.yoff.toNat) * r.tw.toNat + (x - r.xoff.toNat)) 0xFF).toNat) else true

theorem pictureBit_nil (r : ImageRegs) (x y : Nat) : pictureBit r [] x y = true := by
  unfold pictureBit; split <;> rfl

/-- R84: a place of the region has row-major number k exactly where it is the place of pixel number k. -/
theorem ImageRegs.rowMajor_eq_iff {r : ImageRegs} {x y : Nat} (k : Nat) (hx : r.xoff.toNat ≤ x)
    (hx' : x < r.xoff.toNat + r.tw.toNat) (hy : r.yoff.toNat ≤ y) :
    (y - r.yoff.toNat) * r.tw.toNat + (x - r.xoff.toNat) = k ↔ x = r.pixelX k ∧ y = r.pixelY k := by
  have hcol : x - r.xoff.toNat < r.tw.toNat := by omega
  have hdivMod : (y - r.yoff.toNat) * r.tw.toNat + (x - r.xoff.toNat) = k ↔
      k / r.tw.toNat = y - r.yoff.toNat ∧ k % r.tw.toNat = x - r.xoff.toNat := by
    rw [Nat.div_mod_unique (by omega), Nat.mul_comm, Nat.add_comm]
    exact (and_iff_left hcol).symm
  rw [hdivMod]
  unfold ImageRegs.pixelX ImageRegs.pixelY
  omega

/-- R83, R84: one grey value more gives pixel number `greys.length` its colour and leaves every other pixel. -/
theorem pictureBit_concat {r : ImageRegs} {greys : List Byte} (hk : greys.length < r.tw.toNat * r.th.toNat) (g : Byte)
    (x y : Nat) :
    pictureBit r (greys ++ [g]) x y =
      if g.toNat < 128 ∧ x = r.pixelX greys.length ∧ y = r.pixelY greys.length then false
      else pictureBit r greys x y := by
  unfold pictureBit
  split
  case isFalse hout =>
    have hne : ¬ (x = r.pixelX greys.length ∧ y = r.pixelY greys.length) := by
      rintro ⟨rfl, rfl⟩
      exact hout (ImageRegs.pixel_in_region hk)
    rw [if_neg fun h => hne h.2]
  case isTrue hin =>
    obtain ⟨hx, hx', hy, -⟩ := hin
    simp only [← ImageRegs.rowMajor_eq_iff greys.length hx hx' hy]
    generalize (y - r.yoff.toNat) * r.tw.toNat + (x - r.xoff.toNat) = i
    rcases Nat.lt_trichotomy i greys.length with hlt | rfl | hgt
    · rw [List.getD_append _ _ _ _ hlt, if_neg (by omega)]
    · rw [List.getD_append_right _ _ _ _ le_rfl, Nat.sub_self, List.getD_cons_zero, List.getD_eq_default _ _ le_rfl]
      by_cases hg : g.toNat < 128
      · rw [if_pos ⟨hg, rfl⟩, decide_eq_false (by omega)]
      · rw [if_neg (fun h => hg h.1), decide_eq_true (by omega)]
        rfl
    · rw [List.getD_eq_default _ _ (by rw [List.length_append, List.length_singleton]; omega),
        List.getD_eq_default _ _ hgt.le, if_neg (by omega)]

/-- `t` has opened an image from `s` and taken `greys`: PB is the picture of what has come, and the image is open until all have
come. -/
structure Streamed (s : State) (greys : List Byte) (t : State) : Prop where
  config : t.cfg = s.cfg
  image : t.image = { s.sized.image with cnt := BitVec.ofNat 32 greys.length }
  opened : t.pipeAct = decide (greys.length < s.sized.image.tw.toNat * s.sized.image.th.toNat)
  valid : t.pbValid = decide (greys.length = s.sized.image.tw.toNat * s.sized.image.th.toNat)
  code : t.result.code = .ok
  fb : t.fb = s.fb
  pixels : ∀ x y : Nat, x < s.cfg.width → y < s.cfg.height → pixel s.cfg t.pb x y = pictureBit s.sized.image greys x y

/-- R86: an image just opened has no pixel yet, and PB is white. -/
theorem Streamed.begin {s : State} (hw : s.cfg.wf = true) (hpos : 0 < s.sized.image.tw.toNat * s.sized.image.th.toNat) :
    Streamed s [] (s.opened.complete .ok) where
  config := rfl
  image := rfl
  opened := (decide_eq_true hpos).symm
  valid := (decide_eq_false hpos.ne).symm
  code := rfl
  fb := rfl
  pixels _ _ hx hy := (pixel_white hw hx hy).trans (pictureBit_nil ..).symm

/-- R28: CNT has room for every pixel of an image. -/
theorem ImageRegs.toNat_count {r : ImageRegs} {k : Nat} (hk : k ≤ r.tw.toNat * r.th.toNat) :
    (BitVec.ofNat 32 k).toNat = k := by
  have hsmall : r.tw.toNat * r.th.toNat < 2 ^ 32 :=
    Nat.mul_lt_mul'' (c := 2 ^ 16) (d := 2 ^ 16) (BitVec.isLt _) (BitVec.isLt _)
  exact (BitVec.toNat_ofNat ..).trans (Nat.mod_eq_of_lt (by omega))

/-- R87: the next grey value gives the pixel its number names. -/
theorem Streamed.takePixel {s t : State} {greys : List Byte} (hw : s.cfg.wf = true) (h : Streamed s greys t)
    (hk : greys.length < s.sized.image.tw.toNat * s.sized.image.th.toNat) (g : Byte) :
    Streamed s (greys ++ [g]) (afterCommands [.pipePix g] t) := by
  obtain ⟨hcfg, himage, hopen, hvalid, -, hfb, hpixels⟩ := h
  have hact : (t.accept (encode (.pipePix g))).pipeAct = true := hopen.trans (decide_eq_true hk)
  have hlen : (greys ++ [g]).length = greys.length + 1 := List.length_append
  have hcnt' : t.image.cnt + 1 = BitVec.ofNat 32 (greys ++ [g]).length := by
    rw [himage, hlen, BitVec.ofNat_add]; rfl
  have hfull : decide ((t.image.cnt + 1).toNat = t.image.tw.toNat * t.image.th.toNat) =
      decide ((greys ++ [g]).length = s.sized.image.tw.toNat * s.sized.image.th.toNat) := by
    rw [hcnt', ImageRegs.toNat_count (r := s.sized.image) (by omega), himage]
  have hplace : t.image.pixelX t.image.cnt.toNat = s.sized.image.pixelX greys.length ∧
      t.image.pixelY t.image.cnt.toNat = s.sized.image.pixelY greys.length := by
    rw [himage]
    dsimp only
    rw [ImageRegs.toNat_count hk.le]
    exact ⟨rfl, rfl⟩
  rw [afterCommands_singleton, linesOf, runLines_pipePix, if_pos hact, State.pixelTaken_closedIfFull hact]
  refine ⟨hcfg, ?_, ?_, ?_, rfl, hfb, fun x y hx hy => ?_⟩
  · change { t.image with cnt := t.image.cnt + 1 } = _
    rw [hcnt', himage]
  · refine (congrArg (!·) hfull).trans ?_
    rw [← decide_not, decide_eq_decide]
    omega
  · refine (congrArg₂ (· || ·) hfull hvalid).trans ?_
    rw [decide_eq_false hk.ne, Bool.or_false]
  · rw [pictureBit_concat hk, ← hpixels x y hx hy, ← hplace.1, ← hplace.2, ← hcfg]
    exact State.pixel_packPixel (s := t.accept _) (hcfg ▸ hw) g (hcfg ▸ hx) (hcfg ▸ hy)

/-- R87: by induction over the grey values, as many as the image has at most. -/
theorem Streamed.greys {s : State} (hw : s.cfg.wf = true) (hpos : 0 < s.sized.image.tw.toNat * s.sized.image.th.toNat)
    (greys : List Byte) (hle : greys.length ≤ s.sized.image.tw.toNat * s.sized.image.th.toNat) :
    Streamed s greys (afterCommands (greys.map .pipePix) (s.opened.complete .ok)) := by
  induction greys using List.reverseRecOn with
  | nil => exact Streamed.begin hw hpos
  | append_singleton greys g ih =>
    rw [List.length_append, List.length_singleton] at hle
    rw [List.map_append, afterCommands_append]
    exact (ih (by omega)).takePixel hw (by omega) g

/-- Settles O39: PIPE_BEGIN opens the image, and with all its grey values taken (`Streamed.greys`) PB is their picture. -/
theorem streamedImageIsThePicture : Obligations.StreamedImageIsThePicture := by
  unfold Obligations.StreamedImageIsThePicture
  intro s greys hw
  dsimp only
  rw [afterCommands_cons, linesOf, runLines_pipeBegin]
  generalize hb : s.accept (encode .pipeBegin) = b
  have hwb : b.cfg.wf = true := hb ▸ hw
  have hsize : scaleToFit s.cfg s.args.a2.toNat s.args.a3.toNat = (b.sized.image.tw.toNat, b.sized.image.th.toNat) := by
    rw [State.sized_target hwb, ← hb]; rfl
  rw [hsize]
  dsimp only
  intro hw0 hh0 hlen
  have hnonempty : ¬ (b.sized.image.tw = 0 ∨ b.sized.image.th = 0) :=
    not_or.2 ⟨fun h => hw0.ne' (by rw [h]; rfl), fun h => hh0.ne' (by rw [h]; rfl)⟩
  rw [if_neg hnonempty]
  obtain ⟨hcfg, -, hopen, hvalid, hcode, hfb, hpixels⟩ := Streamed.greys hwb (Nat.mul_pos hw0 hh0) greys hlen.le
  obtain ⟨-, -, hx0, hy0⟩ := State.sized_placed hwb
  have hbcfg : b.cfg = s.cfg := hb ▸ rfl
  have hbfb : b.fb = s.fb := hb ▸ rfl
  rw [hbcfg] at hpixels hx0 hy0
  refine ⟨hvalid.trans (decide_eq_true hlen), hopen.trans (decide_eq_false (by omega)), hcode, hfb.trans hbfb,
    fun x y hx hy => ?_⟩
  rw [hpixels x y hx hy, pictureBit, hx0, hy0]

end Sys2Proof.Machine


/-! PROOFS. The serializer's trace: a transaction on the wire, the events of a busy-wait, and a bound on the weight of every
command's events, so on their number and their waits (R95, R96, R98, R113, R136). -/

namespace Sys2Proof.Machine

/-! ### A transaction on the wire (R95) -/

/-- R95: inside a data transaction, the bytes still to come and its end. -/
theorem wireFrom_data (mode : CsMode) (bs : List Byte) :
    wireFrom mode true (bs.map .data) = bs.map .byte ++ csEdge mode true := by
  induction bs with
  | nil => rfl
  | cons b rest ih => exact congrArg (WireEvent.byte b :: ·) ih

/-- Settles O50: the command byte is a transaction of its own, and the first data byte opens the one of the data. -/
theorem wireFramesEachTransaction : Obligations.WireFramesEachTransaction := by
  unfold Obligations.WireFramesEachTransaction
  intro mode b bs
  cases bs with
  | nil => simp [wireView, sendEvents, wireFrom, plainEvent, closeData]
  | cons d rest => simp [wireView, sendEvents, wireFrom, plainEvent, closeData, openData, wireFrom_data]

/-! ### The events of a busy-wait (R98) -/

/-- R98: one turn of a busy-wait's loop emits its sample, and ends the loop or waits before the next turn. -/
theorem microStep_poll (s : State) :
    (∃ t, t.trace = s.trace ++ [.sample s.nextBusy] ∧
      (microStep .poll s = .go t ∨ microStep .poll s = .stop .transportError t)) ∨
    (s.busyCnt + 1 < s.cfg.busyPollCap ∧ ∃ t, microStep .poll s = .again .poll t ∧
      t.trace = s.trace ++ [.sample s.nextBusy, .wait .poll] ∧ t.cfg = s.cfg ∧ t.busyCnt = s.busyCnt + 1) := by
  cases hn : s.nextAnswer with
  | false =>
    exact .inl ⟨s.sample.abort, by simp, .inr (by simp only [microStep, pollStep]; exact onAnswer_fail hn)⟩
  | true =>
    have hok := show microStep .poll s = _ by simp only [microStep, pollStep]; exact onAnswer_ok hn
    by_cases hbusy : s.nextBusy ≠ Config.busyActive
    · refine .inl ⟨_, ?_, .inl (hok.trans (if_pos hbusy))⟩
      exact s.sample_trace
    by_cases hcap : s.cfg.busyPollCap ≤ s.busyCnt + 1
    · refine .inl ⟨_, ?_, .inl (hok.trans ((if_neg hbusy).trans (if_pos hcap)))⟩
      exact s.sample_trace
    · exact .inr ⟨by omega, _, hok.trans ((if_neg hbusy).trans (if_neg hcap)), by simp, rfl, rfl⟩

theorem busyEvents_cons (v : Bool) {levels : List Bool} (h : levels ≠ []) :
    busyEvents (v :: levels) = .sample v :: .wait .poll :: busyEvents levels := by
  cases levels with
  | nil => exact absurd rfl h
  | cons _ _ => rfl

/-- R98: whatever the draws, the loop's events are those of a busy-wait of at least one sample, and of no more than the cap
still allows. -/
theorem runLines_poll_trace (s : State) :
    ∃ levels, levels ≠ [] ∧ levels.length ≤ max 1 (s.cfg.busyPollCap - s.busyCnt) ∧
      (runLines [.poll] s).trace = s.trace ++ busyEvents levels := by
  generalize hk : s.cfg.busyPollCap - s.busyCnt = k
  induction k generalizing s with
  | zero =>
    obtain ⟨t, ht, hgo | hstop⟩ | ⟨hroom, -⟩ := microStep_poll s
    · exact ⟨[s.nextBusy], by simp, by simp, by rw [runLines_go hgo]; exact ht⟩
    · exact ⟨[s.nextBusy], by simp, by simp, by rw [runLines_stop hstop]; exact ht⟩
    · omega
  | succ k ih =>
    obtain ⟨t, ht, hgo | hstop⟩ | ⟨hroom, t, hagain, ht, hcfg, hcnt⟩ := microStep_poll s
    · exact ⟨[s.nextBusy], by simp, by simp, by rw [runLines_go hgo]; exact ht⟩
    · exact ⟨[s.nextBusy], by simp, by simp, by rw [runLines_stop hstop]; exact ht⟩
    · obtain ⟨levels, hne, hlen, hmore⟩ := ih t (by rw [hcfg, hcnt]; omega)
      refine ⟨s.nextBusy :: levels, by simp, by rw [List.length_cons]; omega, ?_⟩
      rw [runLines_again hagain, hmore, ht, busyEvents_cons _ hne, List.append_assoc]
      rfl

/-- R98: whatever the draws, a busy-wait makes 1 to BUSY_POLL_CAP samples. -/
theorem runLines_busyWait_trace {s : State} (hc : 1 ≤ s.cfg.busyPollCap) :
    ∃ levels, levels ≠ [] ∧ levels.length ≤ s.cfg.busyPollCap ∧
      (runLines [.busyWait] s).trace = s.trace ++ busyEvents levels := by
  obtain ⟨levels, hne, hlen, htrace⟩ := runLines_poll_trace { s with busyCnt := 0 }
  dsimp only at hlen htrace
  exact ⟨levels, hne, by omega, by rw [runLines_again rfl, htrace]⟩

theorem waitTime_busyEvents (d : Durations) (levels : List Bool) :
    waitTime d (busyEvents levels) = (levels.length - 1) * d.poll := by
  fun_induction busyEvents levels with
  | case1 => simp [waitTime]
  | case2 v => simp [waitTime]
  | case3 v rest hne ih =>
    obtain ⟨u, more, rfl⟩ := List.exists_cons_of_ne_nil hne
    simp [waitTime, durationOf, ih, Nat.succ_mul, Nat.add_comm]

theorem filter_isSample_busyEvents (levels : List Bool) :
    ((busyEvents levels).filter PanelEvent.isSample).length = levels.length := by
  fun_induction busyEvents levels with
  | case1 => rfl
  | case2 v => rfl
  | case3 v rest hne ih =>
    rw [List.filter_cons_of_pos rfl, List.filter_cons_of_neg (by simp [PanelEvent.isSample]), List.length_cons, ih,
      List.length_cons]

theorem isSample_or_wait_of_mem_busyEvents {levels : List Bool} {e : PanelEvent} (h : e ∈ busyEvents levels) :
    e.isSample = true ∨ e = .wait .poll := by
  fun_induction busyEvents levels with
  | case1 => cases h
  | case2 v => exact .inl (by rw [List.mem_singleton.1 h]; rfl)
  | case3 v rest hne ih =>
    obtain rfl | rfl | h := by simpa using h
    · exact .inl rfl
    · exact .inr rfl
    · exact ih h

/-! ### The lines of a panel command (R92 to R96, R102 to R111) -/

/-- The lines of a panel command's rule after its checks and PNL_CLEAR's fill. -/
def transferLines (s : State) : Instr → List Micro
  | .pnlInit => [.protocol .resetting false, .setLine .pwrEn true] ++ hwReset ++ initProgram s.cfg ++ [.protocol .idle true]
  | .pnlClear m => [.protocol .transferring true] ++ clearTransfers s.cfg ++ refresh s.cfg m ++ [.protocol .idle true]
  | .pnlDisplay m src =>
    [.protocol .transferring true] ++ writeRam 0x24 (Memory.bytes s.cfg.size (s.buffer src)) ++ refresh s.cfg m ++
    [.protocol .idle true]
  | .pnlSleep => deepSleep s.cfg ++ [.protocol .sleeping false]
  | _ => []

/-- A line of the serializer that makes no busy-wait. -/
def Micro.isSend : Micro → Bool
  | .protocol _ _ | .setLine _ _ | .delay _ | .sendCommand _ | .sendData _ => true
  | _ => false

/-- The events of a line that makes no busy-wait, with every answer ok. -/
def Micro.sent : Micro → List PanelEvent
  | .setLine l v => [.line l v]
  | .delay t => [.wait t]
  | .sendCommand b => [.cmd b]
  | .sendData bs => bs.map .data
  | .cutPower => [.line .pwrEn false]
  | _ => []

/-- R108: the lines of PNL_INIT before its first busy-wait. -/
def initSends : List Micro :=
  [.protocol .resetting false, .setLine .pwrEn true] ++ hwReset ++ [.protocol .awaitingReady false, .sendCommand 0x12]

/-- R104: the lines of a refresh before its busy-wait. -/
def refreshSends (cfg : Config) (m : RefreshMode) : List Micro :=
  [.protocol .refreshing true, .sendCommand 0x22, .sendData [refreshByte cfg m], .sendCommand 0x20]

theorem transferLines_pnlInit (s : State) :
    transferLines s .pnlInit =
      initSends ++ .busyWait :: ((.protocol .configured false :: registerProgram s.cfg) ++
        .busyWait :: [.protocol .idle true]) := rfl

/-- R104, R109, R110: a transfer, then the lines of a refresh around its busy-wait. -/
theorem transfer_refresh_eq (transfer : List Micro) (cfg : Config) (m : RefreshMode) :
    [.protocol .transferring true] ++ transfer ++ refresh cfg m ++ [.protocol .idle true] =
      (.protocol .transferring true :: transfer ++ refreshSends cfg m) ++ .busyWait :: [.protocol .idle true] := by
  simp [refresh, refreshSends]

theorem isSend_clearTransfers (cfg : Config) : (clearTransfers cfg).all Micro.isSend = true := by
  rw [clearTransfers]
  cases cfg.secondaryBankEn <;> rfl

/-! ### The weight of events (R96, R113, R136) -/

section Weight

variable (w : PanelEvent → Nat)

/-- The weights of the events, added up. -/
def weigh (events : List PanelEvent) : Nat := (events.map w).sum

/-- The weight of the events of lines that make no busy-wait. -/
def weighSent (lines : List Micro) : Nat := weigh w (lines.flatMap Micro.sent)

variable {w}

theorem weigh_append (a b : List PanelEvent) : weigh w (a ++ b) = weigh w a + weigh w b := by simp [weigh]

theorem weigh_singleton (e : PanelEvent) : weigh w [e] = w e := by simp [weigh]

theorem weighSent_append (a b : List Micro) : weighSent w (a ++ b) = weighSent w a + weighSent w b := by
  rw [weighSent, List.flatMap_append, weigh_append]; rfl

theorem weighSent_cons (op : Micro) (rest : List Micro) :
    weighSent w (op :: rest) = weigh w op.sent + weighSent w rest := weigh_append _ _

theorem weighSent_protocol (p : PState) (b : Bool) (rest : List Micro) :
    weighSent w (.protocol p b :: rest) = weighSent w rest := rfl

theorem weighSent_nil : weighSent w [] = 0 := rfl

variable {k : Nat} (hk : ∀ b, w (.cmd b) = k ∧ w (.data b) = k)

include hk

/-- Where every byte weighs `k`, a command byte and its data weigh `k` for each. -/
theorem weighSent_send (b : Byte) (bs : List Byte) (rest : List Micro) :
    weighSent w (.sendCommand b :: .sendData bs :: rest) = k * (1 + bs.length) + weighSent w rest := by
  have hdata : weigh w (bs.map .data) = k * bs.length := by
    simp [weigh, Function.comp_def, fun b => (hk b).2, Nat.mul_comm]
  rw [weighSent_cons, weighSent_cons, Micro.sent, Micro.sent, weigh_singleton, (hk b).1, hdata]
  ring

/-- R102, R113: the register program is nine command bytes and their parameters. -/
theorem weighSent_registerProgram (cfg : Config) : weighSent w (registerProgram cfg) = k * (9 + parameterBytes cfg) := by
  simp only [registerProgram, weighSent_send hk, List.length_singleton, parameterBytes, weighSent_nil]
  ring

/-- R109: a transfer of SIZE bytes to each bank. -/
theorem weighSent_clearTransfers (cfg : Config) :
    weighSent w (clearTransfers cfg) = k * ((1 + cfg.size) * (if cfg.secondaryBankEn then 2 else 1)) := by
  have hlen : (whiteBytes cfg).length = cfg.size := Memory.length_bytes _ _
  rw [clearTransfers, weighSent_append, writeRam, weighSent_send hk, hlen, weighSent_nil]
  cases cfg.secondaryBankEn with
  | false => simp [weighSent, weigh]
  | true =>
    rw [if_pos rfl, if_pos rfl, writeRam, weighSent_send hk, hlen, weighSent_nil]
    ring

/-- R104: a refresh is three bytes before its busy-wait. -/
theorem weighSent_refreshSends (cfg : Config) (m : RefreshMode) : weighSent w (refreshSends cfg m) = k * 3 := by
  have hlast : weighSent w [.sendCommand 0x20] = k := (weigh_singleton _).trans (hk _).1
  rw [refreshSends, weighSent_protocol, weighSent_send hk, hlast, List.length_singleton]
  ring

end Weight

/-! ### A bound on the weight of a command's events (R98, R113, R136) -/

section Bound

variable (w : PanelEvent → Nat)

/-- R98: the weight of a busy-wait of `n` samples, where a sample weighs the same at either level. -/
def busyWeight (n : Nat) : Nat := n * w (.sample true) + (n - 1) * w (.wait .poll)

/-- The most the events of a line weigh, all its turns together. -/
def Micro.weight (s : State) : Micro → Nat
  | .busyWait => busyWeight w s.cfg.busyPollCap
  | .poll => busyWeight w (max 1 (s.cfg.busyPollCap - s.busyCnt))
  | op => weigh w op.sent

variable {w}

/-- A line's own events weigh at most its bound, and a line taken up again has what is left of it. -/
theorem microStep_weight (hw : ∀ v, w (.sample v) = w (.sample true)) (op : Micro) (s : State)
    (hc : 1 ≤ s.cfg.busyPollCap) :
    ∃ events, (microStep op s).state.trace = s.trace ++ events ∧ weigh w events ≤ op.weight w s ∧
      ∀ op' t, microStep op s = .again op' t → weigh w events + op'.weight w t ≤ op.weight w s := by
  have once : ∀ e, (microStep op s).state.trace = s.trace ++ [e] → (∀ op' t, microStep op s ≠ .again op' t) →
      op.weight w s = weigh w [e] → ∃ events, (microStep op s).state.trace = s.trace ++ events ∧
        weigh w events ≤ op.weight w s ∧
        ∀ op' t, microStep op s = .again op' t → weigh w events + op'.weight w t ≤ op.weight w s :=
    fun e ht hno he => ⟨[e], ht, he.ge, fun _ _ h => absurd h (hno _ _)⟩
  cases op with
  | setLine l v =>
    refine once (.line l v) ?_ ?_ rfl <;> simp only [microStep, lineStep, onAnswer] <;> split <;> simp [Flow.state]
  | delay t => exact once (.wait t) rfl (by simp [microStep]) rfl
  | sendCommand b =>
    refine once (.cmd b) ?_ ?_ rfl <;> simp only [microStep, commandStep, onAnswer] <;> split <;> simp [Flow.state]
  | sendData bs =>
    cases bs with
    | nil => exact ⟨[], by simp [microStep, Flow.state], Nat.zero_le _, by simp [microStep]⟩
    | cons b rest =>
      have hsplit : weigh w [.data b] + Micro.weight w s (.sendData rest) = Micro.weight w s (.sendData (b :: rest)) :=
        (weigh_append [.data b] (rest.map .data)).symm
      refine ⟨[.data b], ?_, by omega, fun op' t h => ?_⟩
      · simp only [microStep, dataStep, onAnswer]
        (repeat' split) <;> simp [Flow.state]
      · simp only [microStep, dataStep, onAnswer] at h
        (repeat' split at h) <;> cases h
        exact hsplit.le
  | busyWait =>
    refine ⟨[], by simp [microStep, Flow.state], Nat.zero_le _, fun op' t h => ?_⟩
    cases h
    simp [Micro.weight, weigh, hc]
  | poll =>
    obtain ⟨t, ht, hm⟩ | ⟨hroom, t, hagain, ht, hcfg, hcnt⟩ := microStep_poll s
    · refine ⟨[.sample s.nextBusy], ?_, ?_, ?_⟩
      · rcases hm with hm | hm <;> rw [hm] <;> exact ht
      · rw [weigh_singleton, hw, Micro.weight, busyWeight]
        exact le_add_right (Nat.le_mul_of_pos_left _ (by omega))
      · rcases hm with hm | hm <;> rw [hm] <;> simp
    · have hturn : weigh w [.sample s.nextBusy, .wait .poll] + Micro.weight w t .poll = Micro.weight w s .poll := by
        obtain ⟨n, hn⟩ : ∃ n, s.cfg.busyPollCap - s.busyCnt = n + 2 := Nat.exists_eq_add_of_le' (by omega)
        have hn' : t.cfg.busyPollCap - t.busyCnt = n + 1 := by rw [hcfg, hcnt]; omega
        simp only [Micro.weight, busyWeight, hn, hn', weigh, List.map_cons, List.map_nil, List.sum_cons, List.sum_nil, hw,
          Nat.max_eq_right (Nat.le_add_left 1 _), Nat.add_sub_cancel]
        ring
      refine ⟨_, by rw [hagain]; exact ht, by omega, fun op' u h => ?_⟩
      rw [hagain] at h
      cases h
      exact hturn.le
  | cutPower =>
    refine ⟨[.line .pwrEn false], by simp [microStep, Flow.state], le_rfl, fun op' t h => ?_⟩
    cases h
    exact le_rfl
  | _ =>
    refine ⟨[], ?_, Nat.zero_le _, fun op' t h => ?_⟩
    · simp only [microStep, guardLine, State.stageByte, State.countByte, State.scale, State.center, State.packPixel,
        closeStep]
      (repeat' split) <;> simp [Flow.state]
    · simp only [microStep, guardLine, closeStep] at h
      (repeat' split at h) <;> cases h <;> exact Nat.zero_le _

/-- R98: the loop of a busy-wait, a line that is under way. -/
def Micro.isPoll : Micro → Bool
  | .poll => true
  | _ => false

theorem linesOf_not_isPoll (i : Instr) (s : State) : (linesOf i s).all (fun op => !op.isPoll) = true := by
  cases i with
  | pnlClear m =>
    simp only [linesOf, linesPnlClear, clearTransfers]
    cases s.cfg.secondaryBankEn <;> rfl
  | pnlDisplay m src => cases src <;> rfl
  | _ => rfl

/-- The bound of a line that is not under way reads the configuration only. -/
theorem Micro.weight_congr {op : Micro} (h : op.isPoll = false) {s t : State} (hcfg : t.cfg = s.cfg) :
    op.weight w t = op.weight w s := by
  cases op with
  | poll => cases h
  | busyWait => rw [Micro.weight, hcfg]; rfl
  | _ => rfl

/-- The events of a command weigh at most what its lines' bounds come to, whatever the draws. -/
theorem runLines_linesOf_weight (hw : ∀ v, w (.sample v) = w (.sample true)) (i : Instr) {s : State}
    (hc : 1 ≤ s.cfg.busyPollCap) :
    ∃ events, (runLines (linesOf i s) s).trace = s.trace ++ events ∧
      weigh w events ≤ ((linesOf i s).map (Micro.weight w s)).sum :=
  runLines_measured (Q := fun cfg => 1 ≤ cfg.busyPollCap) rfl weigh_append (microStep_weight hw) _
    (fun op hop _ _ hcfg => Micro.weight_congr (by simpa using List.all_eq_true.1 (linesOf_not_isPoll i s) op hop) hcfg) s hc

theorem sum_weight_of_isSend {lines : List Micro} (h : lines.all Micro.isSend = true) (s : State) :
    (lines.map (Micro.weight w s)).sum = weighSent w lines := by
  induction lines with
  | nil => rfl
  | cons op rest ih =>
    simp only [List.all_cons, Bool.and_eq_true] at h
    have hop : op.weight w s = weigh w op.sent := by
      cases op with
      | busyWait => cases h.1
      | poll => cases h.1
      | _ => rfl
    rw [List.map_cons, List.sum_cons, ih h.2, hop, weighSent_cons]

theorem sum_weight_sends_busyWait {lines : List Micro} (h : lines.all Micro.isSend = true) (rest : List Micro) (s : State) :
    ((lines ++ .busyWait :: rest).map (Micro.weight w s)).sum =
      weighSent w lines + busyWeight w s.cfg.busyPollCap + (rest.map (Micro.weight w s)).sum := by
  rw [List.map_append, List.sum_append, sum_weight_of_isSend h, List.map_cons, List.sum_cons, Micro.weight, Nat.add_assoc]

theorem sum_weight_protocol (p : PState) (b : Bool) (s : State) :
    ([Micro.protocol p b].map (Micro.weight w s)).sum = 0 := rfl

variable {k : Nat} (hk : ∀ b, w (.cmd b) = k ∧ w (.data b) = k) (s : State)

include hk

/-- R108: PNL_INIT's reset and register program, and its two busy-waits. -/
theorem sum_weight_pnlInit :
    ((transferLines s .pnlInit).map (Micro.weight w s)).sum =
      weighSent w initSends + k * (9 + parameterBytes s.cfg) + 2 * busyWeight w s.cfg.busyPollCap := by
  rw [transferLines_pnlInit, sum_weight_sends_busyWait rfl, sum_weight_sends_busyWait rfl, weighSent_protocol,
    weighSent_registerProgram hk, sum_weight_protocol]
  ring

/-- R104, R109, R110: a transfer, a refresh and its busy-wait. -/
theorem sum_weight_transfer_refresh {transfer : List Micro} (h : transfer.all Micro.isSend = true) (m : RefreshMode) :
    ((([.protocol .transferring true] ++ transfer ++ refresh s.cfg m ++ [.protocol .idle true] : List Micro)).map
        (Micro.weight w s)).sum =
      weighSent w transfer + k * 3 + busyWeight w s.cfg.busyPollCap := by
  have hsends : (Micro.protocol .transferring true :: transfer ++ refreshSends s.cfg m).all Micro.isSend = true := by
    rw [List.all_append, List.all_cons, h]; rfl
  rw [transfer_refresh_eq, sum_weight_sends_busyWait hsends, weighSent_append, weighSent_protocol, weighSent_refreshSends hk,
    sum_weight_protocol, Nat.add_zero]

theorem sum_weight_pnlClear (m : RefreshMode) :
    ((transferLines s (.pnlClear m)).map (Micro.weight w s)).sum =
      k * ((1 + s.cfg.size) * (if s.cfg.secondaryBankEn then 2 else 1)) + k * 3 + busyWeight w s.cfg.busyPollCap := by
  rw [transferLines, sum_weight_transfer_refresh hk s (isSend_clearTransfers _), weighSent_clearTransfers hk]

theorem sum_weight_pnlDisplay (m : RefreshMode) (src : Source) :
    ((transferLines s (.pnlDisplay m src)).map (Micro.weight w s)).sum =
      k * (1 + s.cfg.size) + k * 3 + busyWeight w s.cfg.busyPollCap := by
  rw [transferLines, sum_weight_transfer_refresh hk s rfl, writeRam, weighSent_send hk, Memory.length_bytes, weighSent_nil,
    Nat.add_zero]

omit hk in
/-- The checks of a panel command and PNL_CLEAR's fill emit nothing. -/
theorem sum_weight_linesOf {i : Instr} (h : isPanel i = true) (hne : i ≠ .pnlCleanup) :
    ((linesOf i s).map (Micro.weight w s)).sum = ((transferLines s i).map (Micro.weight w s)).sum := by
  cases i with
  | pnlInit => exact Nat.zero_add _
  | pnlClear m => exact (Nat.zero_add _).trans ((Nat.zero_add _).trans (Nat.zero_add _))
  | pnlDisplay m src =>
    cases src with
    | fb => exact (Nat.zero_add _).trans (Nat.zero_add _)
    | pb => exact (Nat.zero_add _).trans ((Nat.zero_add _).trans (Nat.zero_add _))
  | pnlSleep => exact (Nat.zero_add _).trans (Nat.zero_add _)
  | pnlCleanup => exact absurd rfl hne
  | _ => cases h

end Bound

/-! ### The length and the waits of a command's events (R96, R113, R136) -/

theorem weigh_one (events : List PanelEvent) : weigh (fun _ => 1) events = events.length := by simp [weigh]

/-- R113, item 2: every command's events are bounded, whatever the draws. -/
theorem runLines_linesOf_length (i : Instr) {s : State} (hc : 1 ≤ s.cfg.busyPollCap) :
    ∃ events, (runLines (linesOf i s) s).trace = s.trace ++ events ∧ events.length ≤ traceBound s.cfg i := by
  obtain ⟨events, htrace, hle⟩ := runLines_linesOf_weight (w := fun _ => 1) (fun _ => rfl) i hc
  refine ⟨events, htrace, weigh_one events ▸ hle.trans ?_⟩
  have hk : ∀ b : Byte, (fun _ : PanelEvent => 1) (.cmd b) = 1 ∧ (fun _ : PanelEvent => 1) (.data b) = 1 :=
    fun _ => ⟨rfl, rfl⟩
  have hbusy : busyWeight (fun _ => 1) s.cfg.busyPollCap = 2 * s.cfg.busyPollCap - 1 := by rw [busyWeight]; omega
  cases i with
  | pnlInit =>
    have hinit : weighSent (fun _ => 1) initSends = 8 := rfl
    rw [sum_weight_linesOf _ rfl (by simp), sum_weight_pnlInit hk, hbusy, hinit, traceBound]
    omega
  | pnlClear m =>
    rw [sum_weight_linesOf _ rfl (by simp), sum_weight_pnlClear hk, hbusy, traceBound, Nat.one_mul]
  | pnlDisplay m src =>
    rw [sum_weight_linesOf _ rfl (by simp), sum_weight_pnlDisplay hk, hbusy, traceBound, Nat.one_mul]
  | _ => exact Nat.le_of_eq rfl

/-- R96, R136: how long an event blocks the sequencer besides its own time. -/
def waitOf (d : Durations) : PanelEvent → Nat
  | .wait t => durationOf d t
  | _ => 0

theorem weigh_waitOf (d : Durations) (events : List PanelEvent) : weigh (waitOf d) events = waitTime d events := by
  induction events with
  | nil => rfl
  | cons e rest ih =>
    cases e with
    | wait t => exact congrArg (durationOf d t + ·) ih
    | _ => exact (Nat.zero_add _).trans ih

/-- R136: the waits of every command are bounded, whatever the draws. -/
theorem runLines_linesOf_waitTime (i : Instr) {s : State} (hc : 1 ≤ s.cfg.busyPollCap) :
    ∃ events, (runLines (linesOf i s) s).trace = s.trace ++ events ∧
      waitTime s.cfg.durations events ≤ waitBound s.cfg i := by
  obtain ⟨events, htrace, hle⟩ := runLines_linesOf_weight (w := waitOf s.cfg.durations) (fun _ => rfl) i hc
  refine ⟨events, htrace, weigh_waitOf _ events ▸ hle.trans ?_⟩
  have hk : ∀ b, waitOf s.cfg.durations (.cmd b) = 0 ∧ waitOf s.cfg.durations (.data b) = 0 := fun _ => ⟨rfl, rfl⟩
  have hbusy : busyWeight (waitOf s.cfg.durations) s.cfg.busyPollCap = (s.cfg.busyPollCap - 1) * s.cfg.durations.poll :=
    Nat.zero_add _
  cases i with
  | pnlInit =>
    have hinit : weighSent (waitOf s.cfg.durations) initSends =
        s.cfg.durations.rstPre + s.cfg.durations.rstLow + s.cfg.durations.rstPost := by
      rw [weighSent, weigh_waitOf]
      exact (Nat.add_assoc _ _ _).symm
    rw [sum_weight_linesOf _ rfl (by simp), sum_weight_pnlInit hk, hbusy, hinit, waitBound, Nat.zero_mul, Nat.add_zero]
  | pnlClear m =>
    rw [sum_weight_linesOf _ rfl (by simp), sum_weight_pnlClear hk, hbusy, waitBound, Nat.zero_mul, Nat.zero_mul,
      Nat.zero_add]
  | pnlDisplay m src =>
    rw [sum_weight_linesOf _ rfl (by simp), sum_weight_pnlDisplay hk, hbusy, waitBound, Nat.zero_mul, Nat.zero_mul,
      Nat.zero_add]
  | pnlSleep =>
    rw [sum_weight_linesOf _ rfl (by simp), sum_weight_of_isSend rfl, weighSent, weigh_waitOf]
    exact Nat.le_of_eq rfl
  | _ => exact Nat.le_of_eq rfl

/-- Settles O49: a busy-wait's events are those of 1 to BUSY_POLL_CAP samples, and a command's waits come to at most what its
lines allow. -/
theorem busyWaitTimeIsBounded : Obligations.BusyWaitTimeIsBounded := by
  unfold Obligations.BusyWaitTimeIsBounded
  intro s hc
  refine ⟨?_, fun i => ?_⟩
  · obtain ⟨levels, hne, hlen, htrace⟩ := runLines_busyWait_trace hc
    refine ⟨busyEvents levels, htrace, ?_, ?_, ?_, fun e => isSample_or_wait_of_mem_busyEvents⟩
    · rw [waitTime_busyEvents]
      exact Nat.mul_le_mul_right _ (by omega)
    · rw [filter_isSample_busyEvents]; exact List.length_pos_of_ne_nil hne
    · rw [filter_isSample_busyEvents]; exact hlen
  · obtain ⟨events, htrace, hle⟩ := runLines_linesOf_waitTime i hc
    exact ⟨_, events, exec_eq_runLines i s, htrace, hle⟩

end Sys2Proof.Machine


/-! PROOFS. Panel commands past their checks before a panel whose BUSY is stuck: they complete and flag the timeout (R98,
R113, R116). -/

namespace Sys2Proof.Machine

/-! ### What a command transfers, past its checks (R108 to R111) -/

/-- R109: the state at the first of a command's `transferLines`; PNL_CLEAR has whitened FB. -/
def State.filled (s : State) : Instr → State
  | .pnlClear _ => { s with fb := Memory.tabulate s.cfg.size fun _ => 0xFF }
  | _ => s

theorem State.filled_eq (s : State) (i : Instr) : s.filled i = { s with fb := (s.filled i).fb } := by cases i <;> rfl

theorem runLines_needHandles {s : State} (h : s.released = false) (rest : List Micro) :
    runLines (.needHandles :: rest) s = runLines rest s := runLines_go (by simp [microStep, guardLine, h]) rest

theorem runLines_needInit {s : State} (h : s.init = true) (rest : List Micro) :
    runLines (.needInit :: rest) s = runLines rest s := runLines_go (by simp [microStep, guardLine, h]) rest

theorem runLines_needImage {s : State} (h : s.pbValid = true) (rest : List Micro) :
    runLines (.needImage :: rest) s = runLines rest s := runLines_go (by simp [microStep, guardLine, h]) rest

/-- R108 to R111: a command that may transfer passes its checks. -/
theorem runLines_linesOf_of_mayTransfer {i : Instr} {s : State} (h : s.MayTransfer i) :
    runLines (linesOf i s) s = runLines (transferLines s i) (s.filled i) := by
  cases i with
  | pnlInit => exact runLines_needHandles h _
  | pnlClear m =>
    obtain ⟨hrel, hinit⟩ := h
    exact (runLines_needHandles hrel _).trans ((runLines_needInit hinit _).trans (runLines_go rfl _))
  | pnlDisplay m src =>
    obtain ⟨hrel, hinit, hsrc⟩ := h
    refine (runLines_needHandles hrel _).trans ((runLines_needInit hinit _).trans ?_)
    cases src with
    | fb => rfl
    | pb => exact runLines_needImage (hsrc rfl) _
  | pnlSleep =>
    obtain ⟨hrel, hinit⟩ := h
    exact (runLines_needHandles hrel _).trans (runLines_needInit hinit _)
  | _ => exact h.elim

/-! ### Lines that only send, with every answer ok (R92 to R94, R96) -/

/-- The number of answered events, as a weight of events. -/
theorem answeredCount_eq_weigh (events : List PanelEvent) :
    answeredCount events = weigh (fun e => e.answered.toNat) events := by
  induction events with
  | nil => rfl
  | cons e rest ih =>
    rw [show e :: rest = [e] ++ rest from rfl, answeredCount_append, weigh_append, ih]
    cases e <;> rfl

theorem answered_toNat_byte (b : Byte) :
    (PanelEvent.cmd b).answered.toNat = 1 ∧ (PanelEvent.data b).answered.toNat = 1 :=
  ⟨rfl, rfl⟩

theorem answeredCount_data (bs : List Byte) : answeredCount (bs.map .data) = bs.length := by
  rw [answeredCount, List.filter_eq_self.2 (by simp [PanelEvent.answered]), List.length_map]

theorem sample_notMem_sent (v : Bool) (lines : List Micro) : PanelEvent.sample v ∉ lines.flatMap Micro.sent := by
  simp only [List.mem_flatMap, not_exists, not_and]
  intro op _
  cases op <;> simp [Micro.sent]

/-- `t` is `s` after these events, all answered ok: only the protocol state and the levels may differ besides. -/
structure Sent (s t : State) (events : List PanelEvent) : Prop where
  taken : Env.Taken s.env t.env (answeredCount events) 0
  state : t = { s with trace := s.trace ++ events, env := t.env, pstate := t.pstate, init := t.init, lines := t.lines }

theorem runLines_isSend {op : Micro} (h : op.isSend = true) {s : State} (hok : s.AnswersOk (answeredCount op.sent))
    (rest : List Micro) : ∃ t, runLines (op :: rest) s = runLines rest t ∧ Sent s t op.sent := by
  cases op with
  | protocol p b =>
    exact ⟨s.setProtocol p b, runLines_go rfl rest, Env.Taken.refl _, by simp [State.setProtocol, Micro.sent]⟩
  | setLine l v =>
    exact ⟨_, runLines_setLine hok l v rest, by cases l <;> exact s.env.taken_answer, by cases l <;> rfl⟩
  | delay t => exact ⟨s.record (.wait t), runLines_go rfl rest, Env.Taken.refl _, rfl⟩
  | sendCommand b => exact ⟨_, runLines_sendCommand hok b rest, s.env.taken_answer, rfl⟩
  | sendData bs =>
    by_cases hb : bs = []
    · subst hb
      exact ⟨s, runLines_go rfl rest, Env.Taken.refl _, by simp [Micro.sent]⟩
    · rw [Micro.sent, answeredCount_data] at hok
      obtain ⟨t, hrun, htaken, ht⟩ := runLines_sendData bs hb hok rest
      exact ⟨t, hrun, by rwa [Micro.sent, answeredCount_data], by rw [ht]; rfl⟩
  | _ => cases h

theorem runLines_allSend {lines : List Micro} (h : lines.all Micro.isSend = true) {s : State}
    (hok : s.AnswersOk (answeredCount (lines.flatMap Micro.sent))) (rest : List Micro) :
    ∃ t, runLines (lines ++ rest) s = runLines rest t ∧ Sent s t (lines.flatMap Micro.sent) := by
  induction lines generalizing s with
  | nil => exact ⟨s, rfl, Env.Taken.refl _, by simp⟩
  | cons op more ih =>
    simp only [List.all_cons, Bool.and_eq_true] at h
    rw [List.flatMap_cons, answeredCount_append] at hok
    obtain ⟨t, hrun, htaken, ht⟩ := runLines_isSend h.1 (hok.mono (by omega)) (more ++ rest)
    obtain ⟨u, hrun', htaken', hu⟩ := ih h.2 (hok.taken htaken (by omega))
    refine ⟨u, hrun.trans hrun', ?_, ?_⟩
    · rw [List.flatMap_cons, answeredCount_append]; exact htaken.trans htaken'
    · rw [hu, ht, List.flatMap_cons]; simp

/-! ### BUSY stuck at "busy" (R98, R113) -/

/-- R98: the levels of a busy-wait that reads "busy" every time. -/
theorem BusyLevels.stuck {cap : Nat} {levels : List Bool} (h : BusyLevels cap levels) (hall : ∀ v ∈ levels, v = true) :
    levels = List.replicate cap true := by
  obtain ⟨hpos, -, -, hend⟩ := h
  have hrep := List.eq_replicate_of_mem hall
  have hlast : levels.getLast? = some Config.busyActive := by
    rw [hrep, List.getLast?_replicate, if_neg (by omega)]; rfl
  rw [hrep, hend.resolve_left (absurd hlast)]

/-- R98, R116: a busy-wait before a panel stuck at "busy" makes every sample of its cap and flags the timeout. -/
theorem runLines_busyWait_stuck {s : State} (hc : 1 ≤ s.cfg.busyPollCap) (hok : s.AnswersOk s.cfg.busyPollCap)
    (hbusy : ∀ j, j < s.cfg.busyPollCap → s.env.busyAt j = true) (rest : List Micro) :
    ∃ t, runLines (.busyWait :: rest) s = runLines rest t ∧
      Env.Taken s.env t.env s.cfg.busyPollCap s.cfg.busyPollCap ∧ t.cfg = s.cfg ∧
      t.trace = s.trace ++ busyEvents (List.replicate s.cfg.busyPollCap true) ∧
      t.opbto = true ∧ t.sticky.bto = true := by
  obtain ⟨levels, t, hrun, hlevels, hdrawn, htaken, ht⟩ := runLines_busyWait hc hok rest
  have hall : ∀ v ∈ levels, v = true := by
    intro v hv
    obtain ⟨j, hj, rfl⟩ := List.mem_iff_getElem.1 hv
    have hget := hdrawn j hj
    rw [List.getElem?_eq_getElem hj, hbusy j (hj.trans_le hlevels.2.1)] at hget
    exact Option.some.inj hget
  obtain rfl := hlevels.stuck hall
  have hlate : TimedOut (List.replicate s.cfg.busyPollCap true) = true := by
    rw [TimedOut, List.getLast?_replicate, if_neg (by omega)]; rfl
  rw [List.length_replicate] at htaken
  rw [hlate] at ht
  exact ⟨t, hrun, htaken, by rw [ht], by rw [ht], by rw [ht]; exact Bool.or_true _, by rw [ht]; exact Bool.or_true _⟩

/-- R98: lines that only send, then such a busy-wait. -/
theorem runLines_sendsThenStuck {lines : List Micro} (h : lines.all Micro.isSend = true) {s : State}
    (hc : 1 ≤ s.cfg.busyPollCap)
    (hok : s.AnswersOk (answeredCount (lines.flatMap Micro.sent) + s.cfg.busyPollCap))
    (hbusy : ∀ j, j < s.cfg.busyPollCap → s.env.busyAt j = true) (rest : List Micro) :
    ∃ t, runLines (lines ++ .busyWait :: rest) s = runLines rest t ∧
      Env.Taken s.env t.env (answeredCount (lines.flatMap Micro.sent) + s.cfg.busyPollCap) s.cfg.busyPollCap ∧
      t.cfg = s.cfg ∧
      t.trace = s.trace ++ lines.flatMap Micro.sent ++ busyEvents (List.replicate s.cfg.busyPollCap true) ∧
      t.opbto = true ∧ t.sticky.bto = true := by
  obtain ⟨t, hrun, htaken, ht⟩ := runLines_allSend h (hok.mono (by omega)) (.busyWait :: rest)
  have hcfg : t.cfg = s.cfg := by rw [ht]
  have htrace : t.trace = s.trace ++ lines.flatMap Micro.sent := by rw [ht]
  obtain ⟨u, hrun', htaken', hcfg', htrace', hlate⟩ := runLines_busyWait_stuck (s := t) (hcfg ▸ hc)
    (hok.taken htaken (by rw [hcfg]; omega)) (fun j hj => (htaken.busy j).trans (hbusy j (hcfg ▸ hj))) rest
  rw [hcfg] at htaken' htrace'
  have hboth := htaken.trans htaken'
  rw [Nat.zero_add] at hboth
  exact ⟨u, hrun.trans hrun', hboth, hcfg'.trans hcfg, by rw [htrace', htrace], hlate⟩

/-- R98, R113: the command completed with OK, its timeout flagged in RESULT.OPBTO and STATUS.BTO. -/
def State.FlagsTimeout (t : State) : Prop :=
  t.result.code = .ok ∧ t.result.opbto = true ∧ t.sticky.bto = true ∧ t.statusWord.getLsbD 16 = true

/-- R98: a command that goes on to its last line after the timeout flags it. -/
theorem runLines_protocol_flagsTimeout {s : State} (hop : s.opbto = true) (hbto : s.sticky.bto = true) (p : PState)
    (b : Bool) : (runLines [.protocol p b] s).FlagsTimeout :=
  ⟨rfl, hop, hbto, (statusWordHasItsFields.1 _ 16).trans hbto⟩

/-- R104, R109, R110: a transfer and a refresh before a panel stuck at "busy". -/
theorem runLines_transferRefresh_stuck {transfer : List Micro} (h : transfer.all Micro.isSend = true) (m : RefreshMode)
    {s : State} (hc : 1 ≤ s.cfg.busyPollCap)
    (hok : s.AnswersOk (answeredCount (transfer.flatMap Micro.sent) + 3 + s.cfg.busyPollCap))
    (hbusy : ∀ j, j < s.cfg.busyPollCap → s.env.busyAt j = true) :
    let t := runLines ([.protocol .transferring true] ++ transfer ++ refresh s.cfg m ++ [.protocol .idle true]) s
    ∃ sent, t.FlagsTimeout ∧ t.trace = s.trace ++ sent ++ busyEvents (List.replicate s.cfg.busyPollCap true) ∧
      ∀ v, PanelEvent.sample v ∉ sent := by
  intro t
  have hcount : answeredCount ((.protocol .transferring true :: transfer ++ refreshSends s.cfg m).flatMap Micro.sent) =
      answeredCount (transfer.flatMap Micro.sent) + 3 := by
    rw [List.flatMap_append, answeredCount_append]; rfl
  obtain ⟨u, hrun, -, -, htrace, hop, hbto⟩ := runLines_sendsThenStuck
    (lines := .protocol .transferring true :: transfer ++ refreshSends s.cfg m)
    (by rw [List.all_append, List.all_cons, h]; rfl) hc (hcount ▸ hok) hbusy [.protocol .idle true]
  have ht : t = runLines [.protocol .idle true] u := by rw [← hrun, ← transfer_refresh_eq]
  rw [ht]
  exact ⟨_, runLines_protocol_flagsTimeout hop hbto _ _, htrace, fun v => sample_notMem_sent v _⟩

/-- R108: PNL_INIT before a panel stuck at "busy" runs both its busy-waits to the cap. -/
theorem runLines_init_stuck {s : State} (hc : 1 ≤ s.cfg.busyPollCap)
    (hok : s.AnswersOk (14 + parameterBytes s.cfg + 2 * s.cfg.busyPollCap))
    (hbusy : ∀ j, j < 2 * s.cfg.busyPollCap → s.env.busyAt j = true) :
    let t := runLines (transferLines s .pnlInit) s
    ∃ sent more, t.FlagsTimeout ∧
      t.trace = s.trace ++ sent ++ busyEvents (List.replicate s.cfg.busyPollCap true) ++ more ++
        busyEvents (List.replicate s.cfg.busyPollCap true) ∧
      (∀ v, PanelEvent.sample v ∉ sent) ∧ ∀ v, PanelEvent.sample v ∉ more := by
  intro t
  have hfirst : answeredCount (initSends.flatMap Micro.sent) = 5 := rfl
  have hsecond : answeredCount ((Micro.protocol .configured false :: registerProgram s.cfg).flatMap Micro.sent) =
      9 + parameterBytes s.cfg :=
    (answeredCount_eq_weigh _).trans ((weighSent_registerProgram answered_toNat_byte s.cfg).trans (Nat.one_mul _))
  obtain ⟨r, hrun, htaken, hcfg, htrace, -⟩ := runLines_sendsThenStuck (lines := initSends) rfl hc
    (hok.mono (by omega)) (fun j hj => hbusy j (by omega)) _
  obtain ⟨u, hrun', -, -, htrace', hop, hbto⟩ := runLines_sendsThenStuck
    (lines := .protocol .configured false :: registerProgram s.cfg) (s := r) rfl (hcfg ▸ hc)
    (hok.taken htaken (by rw [hcfg]; omega)) (fun j hj => (htaken.busy j).trans (hbusy _ (by rw [hcfg] at hj; omega)))
    [.protocol .idle true]
  have ht : t = runLines [.protocol .idle true] u := by rw [← hrun', ← hrun, ← transferLines_pnlInit]
  rw [htrace, hcfg] at htrace'
  rw [ht]
  exact ⟨_, _, runLines_protocol_flagsTimeout hop hbto _ _, htrace', fun v => sample_notMem_sent v _,
    fun v => sample_notMem_sent v _⟩

/-- Settles O47: every busy-wait of the three commands runs to its cap, the lines between only send. -/
theorem stuckBusyStillCompletes : Obligations.StuckBusyStillCompletes := by
  unfold Obligations.StuckBusyStillCompletes
  intro s hrel hc hbusy
  have hbusy' : ∀ j, j < s.cfg.busyPollCap → s.env.busyAt j = true := fun j hj => hbusy j (by omega)
  refine ⟨fun hinit m src hsrc hok => ?_, fun hinit m hok => ?_, fun hok => ?_⟩
  · have hcount : answeredCount ((writeRam 0x24 (Memory.bytes s.cfg.size (s.buffer src))).flatMap Micro.sent) =
        1 + s.cfg.size := by
      rw [answeredCount_eq_weigh]
      exact (weighSent_send answered_toNat_byte _ _ []).trans (by rw [Memory.length_bytes, weighSent_nil]; omega)
    obtain ⟨sent, hend⟩ := runLines_transferRefresh_stuck (s := s)
      (transfer := writeRam 0x24 (Memory.bytes s.cfg.size (s.buffer src))) rfl m hc
      (hok.mono (by rw [hcount]; omega)) hbusy'
    rw [exec_eq_runLines, runLines_linesOf_of_mayTransfer (i := .pnlDisplay m src) ⟨hrel, hinit, hsrc⟩]
    exact ⟨_, sent, rfl, hend⟩
  · have hcount : answeredCount ((clearTransfers s.cfg).flatMap Micro.sent) =
        (1 + s.cfg.size) * (if s.cfg.secondaryBankEn then 2 else 1) :=
      (answeredCount_eq_weigh _).trans ((weighSent_clearTransfers answered_toNat_byte s.cfg).trans (Nat.one_mul _))
    obtain ⟨sent, hend⟩ := runLines_transferRefresh_stuck (s := s.filled (.pnlClear m))
      (isSend_clearTransfers s.cfg) m hc (hok.mono (by rw [← hcount]; rfl)) hbusy'
    rw [exec_eq_runLines, runLines_linesOf_of_mayTransfer (i := .pnlClear m) ⟨hrel, hinit⟩]
    exact ⟨_, sent, rfl, hend⟩
  · obtain ⟨sent, more, hend⟩ := runLines_init_stuck hc hok hbusy
    rw [exec_eq_runLines, runLines_linesOf_of_mayTransfer (i := .pnlInit) hrel]
    exact ⟨_, sent, more, rfl, hend⟩

end Sys2Proof.Machine


/-! PROOFS. The first failed answer ends the command (R91, R107). -/

namespace Sys2Proof.Machine

/-! ### The state a run of transfer lines leaves (R91, R107) -/

/-- RESULT and the position are not a transfer's. -/
theorem Transferred.of_complete {s t : State} {code : ResultCode} {events : List PanelEvent} {ok : Bool}
    (h : Transferred s (t.complete code) events ok) : Transferred s t events ok :=
  ⟨h.trace, h.opbto, h.sticky, h.lines, h.head, h.fb, h.pb, h.stage, h.pbValid, h.loadAct, h.loadCnt, h.image, h.pipeAct,
    h.released⟩

/-- What a transfer may change, and nothing else: the trace, the draws, the protocol state, the counter, the levels and the
timeouts. -/
theorem Transferred.state_eq {s t : State} {events : List PanelEvent} {ok : Bool} (h : Transferred s t events ok)
    (host : SameHost s t) :
    t = { s with
      trace := t.trace, env := t.env, pstate := t.pstate, init := t.init, busyCnt := t.busyCnt, lines := t.lines,
      opbto := t.opbto, sticky := t.sticky } := by
  obtain ⟨-, -, -, -, -, hfb, hpb, hstage, hpbValid, hloadAct, hloadCnt, himage, hpipeAct, hreleased⟩ := h
  obtain ⟨hcfg, hargs, hlargs, hcur, hresult, hseq, hresetN, hbefore, hbeforeLoadCnt, hinbox, hreplies⟩ := host
  cases t
  dsimp only at *
  subst_vars
  rfl

/-- The levels of a completed transfer: those its events drive, and CS_N at rest (R33, R92 to R95). -/
theorem RunEnds.lines_eq {s t : State} {events : List PanelEvent} {ok : Bool} (h : RunEnds s t events ok)
    (hcs : t.lines.csN = s.csAtRest) : t.lines = { linesAfter ok events s.lines with csN := s.csAtRest } := by
  have hl : { t.lines with csN := s.lines.csN } = linesAfter ok events s.lines := h.moved.lines s.lines.csN
  rw [← hl, ← hcs]

/-- R91, R107: all that a run of transfer lines which sends a command byte leaves. -/
theorem runLines_transfer_state {lines : List Micro} {s : State} (h : lines.all Micro.isTransfer = true)
    (hsends : lines.any Micro.sends = true) {events : List PanelEvent} {ok : Bool}
    (hends : RunEnds s (runLines lines s) events ok) :
    runLines lines s = { s with
      trace := (runLines lines s).trace, env := (runLines lines s).env, pstate := (runLines lines s).pstate,
      init := (runLines lines s).init, seq := .idle, busyCnt := (runLines lines s).busyCnt,
      lines := { linesAfter ok events s.lines with csN := s.csAtRest }, opbto := s.opbto || sawTimeout ok events,
      sticky := { s.sticky with bto := s.sticky.bto || sawTimeout ok events },
      result := ⟨(runLines lines s).result.code, s.opbto || sawTimeout ok events, s.cur.setWidth 8⟩ } := by
  have hlines := hends.lines_eq (runLines_csN h hsends)
  obtain ⟨code, t, hrun, host⟩ := runLines_sameHost lines s
  rw [hrun] at hends hlines ⊢
  have hmoved := hends.moved.of_complete
  rw [State.complete_lines] at hlines
  rw [← hlines, ← hmoved.opbto, ← hmoved.sticky]
  exact congrArg (State.complete code) (hmoved.state_eq host)

/-! ### The lines of a panel command past its checks -/

theorem transferLines_isTransfer (s : State) (i : Instr) : (transferLines s i).all Micro.isTransfer = true := by
  cases i with
  | pnlClear m =>
    rw [transferLines, clearTransfers]
    cases s.cfg.secondaryBankEn <;> rfl
  | _ => rfl

theorem transferLines_sends {s : State} {i : Instr} (h : s.MayTransfer i) :
    (transferLines s i).any Micro.sends = true := by
  cases i with
  | pnlInit => rfl
  | pnlClear m => rfl
  | pnlDisplay m src => rfl
  | pnlSleep => rfl
  | _ => exact h.elim

/-! ### The same command before answers that are all ok -/

theorem State.answeredOk_answerAt {m j : Nat} (h : j < m) (s : State) : (s.answeredOk m).env.answerAt j = true := by
  simp [State.answeredOk, Env.answerAt, h]

theorem State.MayTransfer.answeredOk {i : Instr} {s : State} (h : s.MayTransfer i) (m : Nat) :
    (s.answeredOk m).MayTransfer i := by
  cases i <;> exact h

theorem transferLines_answeredOk (i : Instr) (s : State) (m : Nat) :
    transferLines (s.answeredOk m) i = transferLines s i := by
  cases i with
  | pnlDisplay mode src => cases src <;> rfl
  | _ => rfl

theorem State.filled_answeredOk (i : Instr) (s : State) (m : Nat) :
    (s.answeredOk m).filled i = (s.filled i).answeredOk m := by
  cases i <;> rfl

/-- R107: `runLines_lockstep` before answers that are all ok. -/
theorem runLines_answeredOk_prefix {lines : List Micro} (h : lines.all Micro.isTransfer = true) {s : State} {m : Nat}
    (hok : (runLines lines (s.answeredOk m)).result.code = .ok) :
    ∃ events full, (runLines lines s).trace = s.trace ++ events ∧
      (runLines lines (s.answeredOk m)).trace = s.trace ++ full ∧ events <+: full ∧
      ((runLines lines s).result.code = .ok → events = full) :=
  runLines_lockstep lines s h _ (fun _ => rfl) hok

/-- R91, R113: a panel command past its checks is OK with the next answers ok, as many as it emits events at most. -/
theorem runLines_linesOf_code_of_answersOk {i : Instr} {s : State} (h : s.MayTransfer i) (hc : 1 ≤ s.cfg.busyPollCap)
    (hok : s.AnswersOk (traceBound s.cfg i)) : (runLines (linesOf i s) s).result.code = .ok := by
  obtain ⟨bounded, htrace, hle⟩ := runLines_linesOf_length i hc
  rw [runLines_linesOf_of_mayTransfer h] at htrace ⊢
  obtain ⟨events, ok, ⟨hmoved, -, hend⟩, -⟩ := runLines_transfer _ (s.filled i) (transferLines_isTransfer s i)
  obtain ⟨-, -, hcode⟩ | ⟨-, hpos, hfail, -⟩ := hend
  · exact hcode
  · have hsame : bounded = events := by
      rw [hmoved.trace, State.filled_eq] at htrace
      exact (List.append_cancel_left htrace).symm
    have hcount : answeredCount events ≤ bounded.length := hsame ▸ List.length_filter_le _ _
    rw [State.filled_eq, hok _ (by omega)] at hfail
    cases hfail

/-- R91, R107: the events are the first of those the command emits when every answer is ok, and all of them where it is
OK. -/
theorem events_prefix_of_answeredOk {i : Instr} {s : State} (h : s.MayTransfer i) (hc : 1 ≤ s.cfg.busyPollCap)
    {events : List PanelEvent} (htrace : (runLines (linesOf i s) s).trace = s.trace ++ events) {m : Nat}
    (hm : traceBound s.cfg i ≤ m) :
    ∃ u full, exec i (s.answeredOk m) = .next u ∧ u.result.code = .ok ∧ u.trace = s.trace ++ full ∧
      events <+: full ∧ ((runLines (linesOf i s) s).result.code = .ok → events = full) := by
  have hcode := runLines_linesOf_code_of_answersOk (h.answeredOk m) hc fun j hj =>
    State.answeredOk_answerAt (lt_of_lt_of_le hj hm) s
  rw [exec_eq_runLines]
  rw [runLines_linesOf_of_mayTransfer (h.answeredOk m), transferLines_answeredOk, State.filled_answeredOk] at hcode ⊢
  obtain ⟨events', full, htrace', hfull, hprefix, hall⟩ :=
    runLines_answeredOk_prefix (transferLines_isTransfer s i) hcode
  rw [runLines_linesOf_of_mayTransfer h] at htrace ⊢
  have hstart : (s.filled i).trace = s.trace := by rw [State.filled_eq]
  rw [hstart] at htrace' hfull
  obtain rfl : events' = events := List.append_cancel_left (htrace'.symm.trans htrace)
  exact ⟨_, full, rfl, hcode, hfull, hprefix, hall⟩

/-- Settles O46: past its checks the command is a run of transfer lines, which ends at its first failed answer; the same run
before answers that are all ok goes on from there. -/
theorem firstFailedAnswerEndsTheSession : Obligations.FirstFailedAnswerEndsTheSession := by
  unfold Obligations.FirstFailedAnswerEndsTheSession
  intro i s h
  have hlines := transferLines_isTransfer s i
  have hsends := transferLines_sends h
  have hrun := runLines_linesOf_of_mayTransfer h
  obtain ⟨f, hf⟩ : ∃ f, s.filled i = { s with fb := f } := ⟨_, s.filled_eq i⟩
  rw [hf] at hrun
  obtain ⟨events, ok, hends, hpos⟩ := runLines_transfer _ { s with fb := f } hlines
  have hstate := runLines_transfer_state hlines hsends hends
  rw [← hrun] at hends hstate
  have hn : 0 < answeredCount events := hpos (List.any_eq_true.1 hsends)
  have hlast : s.env.answerAt (answeredCount events - 1) = ok := by
    obtain ⟨rfl, hall, -⟩ | ⟨rfl, -, hfail, -⟩ := hends.ending
    · exact hall _ (by omega)
    · exact hfail
  have hfb : (runLines (linesOf i s) s).fb = (s.filled i).fb := hends.moved.fb.trans (congrArg State.fb hf).symm
  refine ⟨_, events, exec_eq_runLines i s, hends.moved.trace, ?_⟩
  dsimp only
  rw [show (events.filter PanelEvent.answered).length = answeredCount events from rfl, hlast]
  refine ⟨hn, hends.before, ?_, ?_, ?_, ?_, ?_⟩
  · obtain ⟨hok, -, hcode⟩ | ⟨hok, -, -, hcode, hinit, hpstate, hgot⟩ := hends.ending
    · exact .inl ⟨hok, hcode⟩
    · exact .inr ⟨hok, hcode, hinit, hpstate, hgot⟩
  · rwa [show (runLines (linesOf i s) s).fb = f from hends.moved.fb]
  · rintro m rfl k hk
    rw [hfb]
    exact Memory.read_tabulate_of_lt hk _
  · intro hne
    rw [hfb]
    cases i with
    | pnlClear m => exact absurd rfl (hne m)
    | _ => rfl
  · intro hc m hm
    obtain ⟨u, full, hexec, hcode, hfull, hprefix, hall⟩ := events_prefix_of_answeredOk h hc hends.moved.trace hm
    refine ⟨u, full, hexec, hcode, hfull, hprefix, fun hok => hall ?_⟩
    obtain ⟨-, -, hcode⟩ | ⟨hno, -⟩ := hends.ending
    · exact hcode
    · rw [hok] at hno; cases hno

end Sys2Proof.Machine


/-! PROOFS. What the three families leave of each other: refused panel commands, the buffers under panel commands, the panel
under buffer commands; and RELEASED, which PNL_CLEANUP alone sets (R32, R106, R112, R113, R117, R128). -/

namespace Sys2Proof.Machine

/-! ### Refused panel commands (R113, R117) -/

theorem runLines_needHandles_refused {s : State} (h : s.released = true) (rest : List Micro) :
    runLines (.needHandles :: rest) s = s.complete .transportError :=
  runLines_stop (by simp [microStep, guardLine, h]) rest

theorem runLines_needInit_refused {s : State} (h : s.init = false) (rest : List Micro) :
    runLines (.needInit :: rest) s = s.complete .notInitialized :=
  runLines_stop (by simp [microStep, guardLine, h]) rest

theorem runLines_needImage_refused {s : State} (h : s.pbValid = false) (rest : List Micro) :
    runLines (.needImage :: rest) s = s.complete .imageNotReady :=
  runLines_stop (by simp [microStep, guardLine, h]) rest

/-- R108 to R111: every panel command but PNL_CLEANUP asks for the handles first. -/
theorem runLines_linesOf_of_released {i : Instr} (hp : isPanel i = true) (hne : i ≠ .pnlCleanup) {s : State}
    (h : s.released = true) : runLines (linesOf i s) s = s.complete .transportError := by
  cases i with
  | pnlCleanup => exact absurd rfl hne
  | pnlInit | pnlClear m | pnlDisplay m src | pnlSleep => exact runLines_needHandles_refused h _
  | _ => cases hp

/-- R109 to R111: the commands after PNL_INIT ask for an open session next. -/
theorem runLines_linesOf_of_noSession {i : Instr} (hp : isPanel i = true) (hi : i ≠ .pnlInit) (hne : i ≠ .pnlCleanup)
    {s : State} (hrel : s.released = false) (h : s.init = false) :
    runLines (linesOf i s) s = s.complete .notInitialized := by
  cases i with
  | pnlInit => exact absurd rfl hi
  | pnlCleanup => exact absurd rfl hne
  | pnlClear m | pnlDisplay m src | pnlSleep =>
    exact (runLines_needHandles hrel _).trans (runLines_needInit_refused h _)
  | _ => cases hp

/-- R110: a display of PB asks for an image last. -/
theorem runLines_linesOf_of_noImage (m : RefreshMode) {s : State} (hrel : s.released = false) (hinit : s.init = true)
    (h : s.pbValid = false) : runLines (linesOf (.pnlDisplay m .pb) s) s = s.complete .imageNotReady :=
  (runLines_needHandles hrel _).trans ((runLines_needInit hinit _).trans (runLines_needImage_refused h _))

/-- Settles O45: each check ends the command before anything of it has run. -/
theorem refusedPanelCommandsChangeNothing : Obligations.RefusedPanelCommandsChangeNothing := by
  unfold Obligations.RefusedPanelCommandsChangeNothing
  intro m src s
  simp only [exec_eq_runLines]
  refine ⟨fun h => ?_, fun hrel h => ?_, fun hrel hinit h => ?_⟩
  · refine ⟨?_, ?_, ?_, ?_⟩ <;> rw [runLines_linesOf_of_released rfl (by simp) h]
  · refine ⟨?_, ?_, ?_⟩ <;> rw [runLines_linesOf_of_noSession rfl (by simp) (by simp) hrel h]
  · rw [runLines_linesOf_of_noImage m hrel hinit h]

/-- R108 to R111: a panel command but PNL_CLEANUP passes its checks, or one of them ends it. -/
theorem mayTransfer_or_refused {i : Instr} (hp : isPanel i = true) (hne : i ≠ .pnlCleanup) (s : State) :
    s.MayTransfer i ∨ ∃ code, runLines (linesOf i s) s = s.complete code := by
  cases hrel : s.released with
  | true => exact .inr ⟨_, runLines_linesOf_of_released hp hne hrel⟩
  | false =>
    by_cases hi : i = .pnlInit
    · subst hi; exact .inl hrel
    cases hinit : s.init with
    | false => exact .inr ⟨_, runLines_linesOf_of_noSession hp hi hne hrel hinit⟩
    | true =>
      cases i with
      | pnlInit => exact absurd rfl hi
      | pnlCleanup => exact absurd rfl hne
      | pnlClear m => exact .inl ⟨hrel, hinit⟩
      | pnlSleep => exact .inl ⟨hrel, hinit⟩
      | pnlDisplay m src =>
        cases src with
        | fb => exact .inl ⟨hrel, hinit, by simp⟩
        | pb =>
          cases hpb : s.pbValid with
          | true => exact .inl ⟨hrel, hinit, fun _ => hpb⟩
          | false => exact .inr ⟨_, runLines_linesOf_of_noImage m hrel hinit hpb⟩
      | _ => cases hp

/-! ### PNL_CLEANUP (R112) -/

theorem runLines_pnlCleanup_of_released {s : State} (h : s.released = true) :
    runLines linesPnlCleanup s = s.complete .ok :=
  runLines_stop (by simp [microStep, h]) _

theorem runLines_reportAnswer (a : Bool) (s : State) :
    runLines [.reportAnswer a] s = s.complete (if a then .ok else .transportError) := by
  cases a <;> rfl

/-- R112: the answer decides the result and nothing else. -/
theorem runLines_pnlCleanup {s : State} (h : s.released = false) :
    runLines linesPnlCleanup s = { s with
      trace := s.trace ++ [.line .pwrEn false], env := s.env.afterAnswer, lines := { s.lines with pwrEn := false },
      pstate := .unpowered, init := false, released := true, seq := .idle,
      result := ⟨if s.env.answerAt 0 then .ok else .transportError, s.opbto, s.cur.setWidth 8⟩ } := by
  have hcut : runLines linesPnlCleanup s = runLines [.reportAnswer (s.env.answerAt 0)] { s with
      trace := s.trace ++ [.line .pwrEn false], env := s.env.afterAnswer, lines := { s.lines with pwrEn := false },
      pstate := .unpowered, init := false, released := true } :=
    (runLines_go (by simp [microStep, h]) _).trans
      ((runLines_again rfl _).trans ((runLines_again rfl _).trans (runLines_again rfl _)))
  rw [hcut, runLines_reportAnswer]
  rfl

/-! ### The buffers under panel commands (R106, R128) -/

/-- FB is PNL_CLEAR's only. -/
theorem State.filled_fb {i : Instr} (h : ∀ m, i ≠ .pnlClear m) (s : State) : (s.filled i).fb = s.fb := by
  cases i with
  | pnlClear m => exact absurd rfl (h m)
  | _ => rfl

/-- Settles O17: a refused command changes RESULT only, PNL_CLEANUP's end is written out, and the others transfer. -/
theorem panelCommandsLeaveTheBuffers : Obligations.PanelCommandsLeaveTheBuffers := by
  unfold Obligations.PanelCommandsLeaveTheBuffers
  intro i s hp
  refine ⟨_, exec_eq_runLines i s, ?_⟩
  by_cases hne : i = .pnlCleanup
  · subst hne
    rw [linesOf]
    cases hrel : s.released with
    | true =>
      rw [runLines_pnlCleanup_of_released hrel]
      exact ⟨rfl, rfl, rfl, rfl, rfl, rfl, rfl, fun _ => rfl, [], (List.append_nil _).symm⟩
    | false =>
      rw [runLines_pnlCleanup hrel]
      exact ⟨rfl, rfl, rfl, rfl, rfl, rfl, rfl, fun _ => rfl, _, rfl⟩
  obtain hmay | ⟨code, hrefused⟩ := mayTransfer_or_refused hp hne s
  · obtain ⟨events, ok, ⟨hmoved, -, -⟩, -⟩ := runLines_transfer _ (s.filled i) (transferLines_isTransfer s i)
    rw [← runLines_linesOf_of_mayTransfer hmay] at hmoved
    have hfb := fun h : ∀ m, i ≠ .pnlClear m => hmoved.fb.trans (State.filled_fb h s)
    rw [State.filled_eq] at hmoved
    exact ⟨hmoved.pb, hmoved.pbValid, hmoved.stage, hmoved.loadAct, hmoved.loadCnt, hmoved.image, hmoved.pipeAct, hfb,
      events, hmoved.trace⟩
  · rw [hrefused]
    exact ⟨rfl, rfl, rfl, rfl, rfl, rfl, rfl, fun _ => rfl, [], (List.append_nil _).symm⟩

/-! ### The panel under buffer commands (R106) -/

/-- A line that emits an event, or writes a line level, the protocol state, RELEASED or the busy-wait counter. -/
def Micro.movesPanel : Micro → Bool
  | .protocol _ _ | .setLine _ _ | .delay _ | .sendCommand _ | .sendData _ | .busyWait | .poll => true
  | .cutPower | .endSession _ | .releaseHandles _ => true
  | _ => false

/-- The same panel side: the trace, the draws, the lines, the protocol state and the timeouts. -/
structure SamePanel (s t : State) : Prop where
  trace : t.trace = s.trace
  env : t.env = s.env
  lines : t.lines = s.lines
  pstate : t.pstate = s.pstate
  init : t.init = s.init
  released : t.released = s.released
  busyCnt : t.busyCnt = s.busyCnt
  opbto : t.opbto = s.opbto
  sticky : t.sticky = s.sticky

theorem SamePanel.trans {s t u : State} (h : SamePanel s t) (k : SamePanel t u) : SamePanel s u :=
  ⟨k.trace.trans h.trace, k.env.trans h.env, k.lines.trans h.lines, k.pstate.trans h.pstate, k.init.trans h.init,
    k.released.trans h.released, k.busyCnt.trans h.busyCnt, k.opbto.trans h.opbto, k.sticky.trans h.sticky⟩

theorem microStep_samePanel {op : Micro} (h : op.movesPanel = false) (s : State) : SamePanel s (microStep op s).state := by
  cases op with
  | protocol p b | setLine l v | delay t | sendCommand b | sendData bs | busyWait | poll | cutPower | endSession a
  | releaseHandles a => cases h
  | _ =>
    simp only [microStep, guardLine, State.stageByte, State.countByte, State.scale, State.center, State.packPixel,
      closeStep]
    (repeat' split) <;> constructor <;> rfl

/-- Of the lines that leave the panel alone, only R87's last is taken up again, as an assignment of PB_VALID. -/
theorem movesPanel_again {op op' : Micro} {s t : State} (h : microStep op s = .again op' t) (hop : op.movesPanel = false) :
    op'.movesPanel = false := by
  cases op with
  | protocol p b | setLine l v | delay t | sendCommand b | sendData bs | busyWait | poll | cutPower | endSession a
  | releaseHandles a => cases hop
  | _ =>
    simp only [microStep, guardLine, closeStep] at h
    (repeat' split at h) <;> cases h <;> rfl

theorem linesOf_movesPanel {i : Instr} (h : isPanel i = false) (s : State) :
    ∀ op ∈ linesOf i s, op.movesPanel = false := by
  have hall : (linesOf i s).all (fun op => !op.movesPanel) = true := by
    cases i with
    | pnlInit | pnlClear m | pnlDisplay m src | pnlSleep | pnlCleanup => cases h
    | _ => rfl
  exact fun op hop => by simpa using List.all_eq_true.1 hall op hop

/-- Settles O16: no line of such a command moves anything of the panel side. -/
theorem bufferCommandsLeaveThePanel : Obligations.BufferCommandsLeaveThePanel := by
  unfold Obligations.BufferCommandsLeaveThePanel
  intro i s h
  obtain ⟨code, t, e, ht⟩ := runLines_preserves (P := fun op => op.movesPanel = false) (Q := SamePanel s)
    (fun op t hop ht => ⟨ht.trans (microStep_samePanel hop t), fun _ _ ha => movesPanel_again ha hop⟩)
    (linesOf_movesPanel h s) ⟨rfl, rfl, rfl, rfl, rfl, rfl, rfl, rfl, rfl⟩
  exact ⟨t.complete code, by rw [exec_eq_runLines, e], ht.trace, ht.env, ht.lines, ht.pstate, ht.init, ht.released,
    ht.busyCnt, ht.opbto, ht.sticky⟩

/-! ### RELEASED in a step (R32, R129) -/

/-- R32: a rule without PNL_CLEANUP's lines leaves RELEASED. -/
theorem runLines_released {lines : List Micro} (h : lines.any Micro.releases = false) (s : State) :
    (runLines lines s).released = s.released := by
  obtain ⟨code, t, e, ht⟩ := runLines_preserves (P := fun op => op.releases = false)
    (Q := fun t => t.released = s.released)
    (fun op t hop ht => ⟨(microStep_released hop t).trans ht, fun op' _ ha => by
      cases hr : op'.releases with
      | false => rfl
      | true => rw [releases_again ha hr] at hop; exact hop⟩)
    (lines := lines) (s := s) (fun op hop => by simpa using List.any_eq_false.1 h op hop) rfl
  rw [e]
  exact ht

theorem runLines_keeps_released (lines : List Micro) {s : State} (h : s.released = true) :
    (runLines lines s).released = true := by
  obtain ⟨code, t, e, ht⟩ := runLines_preserves (P := fun _ => True) (Q := fun t => t.released = true)
    (fun op t _ ht => ⟨microStep_keeps_released op ht, fun _ _ _ => trivial⟩) (lines := lines) (fun _ _ => trivial) h
  rw [e]
  exact ht

/-- R32: `t` follows `s` with RELEASED kept, or set by the running PNL_CLEANUP. -/
def ReleasedOnlyByCleanup (s t : State) : Prop :=
  (s.released = true → t.released = true) ∧
  (s.released = false → t.released = true → s.run = true ∧ decode s.cur = .ok .pnlCleanup)

theorem ReleasedOnlyByCleanup.of_eq {s t : State} (h : t.released = s.released) : ReleasedOnlyByCleanup s t :=
  ⟨fun hs => h.trans hs, fun hs ht => by rw [h, hs] at ht; cases ht⟩

/-- R32: what the lines left of the running command do to RELEASED. -/
theorem State.Inv.releasedOnlyByCleanup {s : State} (h : s.Inv) {op : Micro} {rest : List Micro}
    (hq : s.seq = .running (op :: rest)) : ReleasedOnlyByCleanup s (microStep op s).state := by
  cases hr : op.releases with
  | false => exact .of_eq (microStep_released hr s)
  | true =>
    refine ⟨microStep_keeps_released op, fun _ _ => ⟨by rw [State.run_def, hq]; rfl, h.releaseTied ?_⟩⟩
    rw [hq]
    simp only [SeqPos.releases, List.any_cons, hr, Bool.true_or]

/-- R32: so does its run to the end. -/
theorem State.Inv.finished_releasedOnlyByCleanup {s : State} (h : s.Inv) : ReleasedOnlyByCleanup s s.finished := by
  cases hq : s.seq with
  | idle => exact .of_eq (by rw [State.finished_of_idle hq])
  | accepted =>
    have hrun : s.run = true := by rw [State.run_def, hq]; rfl
    cases hd : decode s.cur with
    | error why => exact .of_eq (by rw [State.finished_of_illegal hq hd]; rfl)
    | ok i =>
      rw [State.finished_of_accepted hq hd]
      cases hr : (linesOf i s).any Micro.releases with
      | false => exact .of_eq (runLines_released hr s)
      | true => exact ⟨runLines_keeps_released _, fun _ _ => ⟨hrun, linesOf_releases hr ▸ hd⟩⟩
  | running rest =>
    rw [State.finished_of_running hq]
    cases hr : rest.any Micro.releases with
    | false => exact .of_eq (runLines_released hr s)
    | true =>
      exact ⟨runLines_keeps_released _, fun _ _ => ⟨by rw [State.run_def, hq]; rfl, h.releaseTied (by rw [hq]; exact hr)⟩⟩

/-- R32: so does one sequencer step. -/
theorem State.Inv.sequencerStep_releasedOnlyByCleanup {s : State} (h : s.Inv) :
    ReleasedOnlyByCleanup s (Machine.sequencerStep s) := by
  rcases sequencerStep_cases s with e | ⟨i, -, -, e⟩ | ⟨op, rest, t, hq, hm, e⟩ | ⟨op, op', rest, t, hq, hm, e⟩ <;> rw [e]
  · exact h.finished_releasedOnlyByCleanup
  · exact .of_eq rfl
  · have := h.releasedOnlyByCleanup hq
    rwa [hm] at this
  · have := h.releasedOnlyByCleanup hq
    rwa [hm] at this

/-- R32, R129: an input leaves RELEASED, or resets the block. -/
theorem State.takeAct_released (a : HostAct) (s : State) :
    (s.takeAct a).released = s.released ∨
    ((s.takeAct a).released = false ∧ ∃ level, a = .resetN level ∧ (level = false ∨ s.resetN = false)) := by
  rcases s.takeAct_cases a with ⟨level, rfl, e⟩ | ⟨w, -, -, e⟩ | ⟨k, v, e⟩ | ⟨env, sticky, replies, e⟩
  · cases hlow : s.resetN && level with
    | true => exact .inl (by simp only [State.takeAct, hlow, if_true])
    | false => exact .inr ⟨by rw [e]; rfl, level, rfl, (Bool.and_eq_false_iff.1 hlow).symm⟩
  · exact .inl (by rw [e]; rfl)
  · exact .inl (by rw [e, State.writeArg_eq]; rfl)
  · exact .inl (by rw [e])

/-- Settles O44: PNL_CLEANUP's two ends are written out; in a step RELEASED follows the lines left to run, or the input. -/
theorem cleanupReleasesOnce : Obligations.CleanupReleasesOnce := by
  unfold Obligations.CleanupReleasesOnce
  refine ⟨fun s => ⟨decodeOfEncodeIsTheCommand .pnlCleanup, fun h => ?_, fun h => ⟨_, exec_eq_runLines _ s, ?_⟩⟩,
    fun s t hinv hstep => ?_⟩
  · rw [exec_eq_runLines, linesOf, runLines_pnlCleanup_of_released h]
  · rw [linesOf, runLines_pnlCleanup h]
  have byCleanup : ReleasedOnlyByCleanup s t →
      (s.released = false → t.released = true → s.run = true ∧ decode s.cur = .ok .pnlCleanup) ∧
      (s.released = true → t.released = false → ∃ k level rest, s.inbox = .act k (.resetN level) :: rest ∧
        (k = 0 ∨ s.run = false) ∧ (level = false ∨ s.resetN = false)) :=
    fun h => ⟨h.2, fun hs ht => by rw [h.1 hs] at ht; cases ht⟩
  obtain ⟨-, hrun | ⟨-, rest, -, rfl⟩ | ⟨k, a, rest, hin, hk, rfl⟩ | ⟨-, k, a, rest, -, rfl⟩⟩ := step_cases hstep
  · rw [sequencerRun_eq] at hrun
    cases hrun
    exact byCleanup hinv.finished_releasedOnlyByCleanup
  · obtain ⟨env, sticky, replies, e⟩ := State.endWait_cases { s with inbox := rest }
    exact byCleanup (.of_eq (by rw [e]))
  · obtain h | ⟨hfalse, level, rfl, hreset⟩ := State.takeAct_released a { s with inbox := rest }
    · exact byCleanup (.of_eq h)
    · exact ⟨fun _ ht => absurd ht (by simp [hfalse]), fun _ _ => ⟨k, level, rest, hin, hk, hreset⟩⟩
  · exact byCleanup (hinv.withInbox (.act k a :: rest)).sequencerStep_releasedOnlyByCleanup

end Sys2Proof.Machine


/-! PROOFS. Panel commands with every answer ok: the events of each in their order and the state it ends in (R98 to R105, R108 to
R111, R113). -/

namespace Sys2Proof.Machine

/-! ### The levels after events that are all answered ok (R92 to R94, R98) -/

theorem linesAfter_true_append (a b : List PanelEvent) (l : Lines) :
    linesAfter true (a ++ b) l = linesAfter true b (linesAfter true a l) := by
  by_cases hb : b = []
  · subst hb; rw [List.append_nil]; rfl
  · exact linesAfter_append true a b l hb

theorem linesAfter_true_cons (e : PanelEvent) (rest : List PanelEvent) (l : Lines) :
    linesAfter true (e :: rest) l = linesAfter true rest (e.drive true l) := linesAfter_true_append [e] rest l

/-- R97, R98: a busy-wait drives no line. -/
theorem linesAfter_true_busyEvents (levels : List Bool) (l : Lines) : linesAfter true (busyEvents levels) l = l := by
  fun_induction busyEvents levels with
  | case1 => rfl
  | case2 v => rfl
  | case3 v rest hne ih => rw [linesAfter_true_cons, linesAfter_true_cons]; exact ih

/-- R93, R94: the event is a byte sent. -/
def PanelEvent.isByte : PanelEvent → Bool
  | .cmd _ | .data _ => true
  | _ => false

/-- R93, R94: bytes drive DC only. -/
theorem linesAfter_true_bytes {events : List PanelEvent} (h : events.all PanelEvent.isByte = true) (l : Lines) :
    ∃ d, linesAfter true events l = { l with dc := d } := by
  induction events generalizing l with
  | nil => exact ⟨l.dc, rfl⟩
  | cons e rest ih =>
    simp only [List.all_cons, Bool.and_eq_true] at h
    obtain ⟨d, hd⟩ := ih h.2 (e.drive true l)
    rw [linesAfter_true_cons, hd]
    cases e with
    | cmd b | data b => exact ⟨d, rfl⟩
    | _ => cases h.1

theorem isByte_sendEvents (b : Byte) (bs : List Byte) : (sendEvents b bs).all PanelEvent.isByte = true := by
  simp [sendEvents, PanelEvent.isByte]

/-- The levels a run of transfer lines with every answer ok leaves. -/
theorem runLines_lines_of_ok {lines : List Micro} {s : State} (h : lines.all Micro.isTransfer = true)
    (hsends : lines.any Micro.sends = true) {events : List PanelEvent}
    (htrace : (runLines lines s).trace = s.trace ++ events) (hcode : (runLines lines s).result.code = .ok) :
    (runLines lines s).lines = { linesAfter true events s.lines with csN := s.csAtRest } := by
  obtain ⟨events', ok, hends, -⟩ := runLines_transfer lines s h
  obtain rfl : events' = events := List.append_cancel_left (hends.moved.trace.symm.trans htrace)
  obtain ⟨rfl, -⟩ | ⟨-, -, -, hfail, -⟩ := hends.ending
  · exact hends.lines_eq (runLines_csN h hsends)
  · rw [hcode] at hfail; cases hfail

/-! ### A command past its checks (R108 to R111) -/

/-- R108 to R111: past its checks a command is its transfer. -/
theorem exec_of_mayTransfer {i : Instr} {s t : State} (h : s.MayTransfer i)
    (hrun : runLines (transferLines s i) (s.filled i) = t) : exec i s = .next t := by
  rw [exec_eq_runLines, runLines_linesOf_of_mayTransfer h, hrun]

/-! ### Lines that only send, then a busy-wait (R98) -/

/-- `t` is `s` after these events and a busy-wait of these levels, all answered ok: the protocol state and the levels of the
lines are left out. -/
structure Waited (s t : State) (sent : List PanelEvent) (levels : List Bool) : Prop where
  allowed : BusyLevels s.cfg.busyPollCap levels
  drawn : ∀ j, j < levels.length → levels[j]? = some (s.env.busyAt j)
  taken : Env.Taken s.env t.env (answeredCount sent + levels.length) levels.length
  state : t = { s with
    trace := s.trace ++ sent ++ busyEvents levels, env := t.env, pstate := t.pstate, init := t.init, lines := t.lines,
    busyCnt := levels.length, opbto := s.opbto || TimedOut levels,
    sticky := { s.sticky with bto := s.sticky.bto || TimedOut levels } }

theorem runLines_sendsThenWait {lines : List Micro} (h : lines.all Micro.isSend = true) {s : State}
    (hc : 1 ≤ s.cfg.busyPollCap)
    (hok : s.AnswersOk (answeredCount (lines.flatMap Micro.sent) + s.cfg.busyPollCap)) (rest : List Micro) :
    ∃ levels t, runLines (lines ++ .busyWait :: rest) s = runLines rest t ∧
      Waited s t (lines.flatMap Micro.sent) levels := by
  obtain ⟨t, hrun, htaken, ht⟩ := runLines_allSend h (hok.mono (by omega)) (.busyWait :: rest)
  have hcfg : t.cfg = s.cfg := by rw [ht]
  obtain ⟨levels, u, hrun', hlevels, hdrawn, htaken', hu⟩ := runLines_busyWait (s := t) (hcfg ▸ hc)
    (hok.taken htaken (by rw [hcfg]; omega)) rest
  have hboth := htaken.trans htaken'
  rw [Nat.zero_add] at hboth
  refine ⟨levels, u, hrun.trans hrun', hcfg ▸ hlevels, fun j hj => (hdrawn j hj).trans (congrArg some (htaken.busy j)), hboth,
    ?_⟩
  rw [hu, ht]

/-! ### A transfer and a refresh (R104, R109, R110) -/

/-- R104, R109, R110: the events of a transfer and of a refresh before its busy-wait. -/
theorem transferRefresh_sent (transfer : List Micro) (cfg : Config) (m : RefreshMode) :
    (.protocol .transferring true :: transfer ++ refreshSends cfg m).flatMap Micro.sent =
      transfer.flatMap Micro.sent ++ sendEvents 0x22 [refreshByte cfg m] ++ [.cmd 0x20] := by
  rw [List.flatMap_append, List.append_assoc]; rfl

theorem answeredCount_refresh (sent : List PanelEvent) (v : Byte) :
    answeredCount (sent ++ sendEvents 0x22 [v] ++ [.cmd 0x20]) = answeredCount sent + 3 := by
  rw [List.append_assoc, answeredCount_append]; rfl

theorem writeRam_sent (code : Byte) (bytes : List Byte) : (writeRam code bytes).flatMap Micro.sent = sendEvents code bytes := by
  simp [writeRam, Micro.sent, sendEvents]

/-- `t` is `s` after a transfer of these events and a refresh in mode `m` whose busy-wait reads `levels`, back in Idle. -/
structure Refreshed (s t : State) (m : RefreshMode) (sent : List PanelEvent) (levels : List Bool) : Prop where
  allowed : BusyLevels s.cfg.busyPollCap levels
  drawn : ∀ j, j < levels.length → levels[j]? = some (s.env.busyAt j)
  trace : t.trace = s.trace ++ sent ++ sendEvents 0x22 [refreshByte s.cfg m] ++ [.cmd 0x20] ++ busyEvents levels
  state : t = { s with
    trace := t.trace, env := t.env, pstate := .idle, init := true, seq := .idle, busyCnt := levels.length,
    lines := { s.lines with dc := false, csN := s.csAtRest }, opbto := s.opbto || TimedOut levels,
    sticky := { s.sticky with bto := s.sticky.bto || TimedOut levels },
    result := ⟨.ok, s.opbto || TimedOut levels, s.cur.setWidth 8⟩ }

/-- R93, R94: bytes, then a command byte and a busy-wait, leave DC low and the other lines as they were. -/
theorem linesAfter_true_refresh {sent : List PanelEvent} (h : sent.all PanelEvent.isByte = true) (b : Byte)
    (levels : List Bool) (l : Lines) :
    linesAfter true (sent ++ [.cmd b] ++ busyEvents levels) l = { l with dc := false } := by
  obtain ⟨d, hd⟩ := linesAfter_true_bytes h l
  rw [linesAfter_true_append, linesAfter_true_append, linesAfter_true_busyEvents, hd]
  rfl

/-- R103: a line of a transfer. -/
def Micro.sendsBytes : Micro → Bool
  | .sendCommand _ | .sendData _ => true
  | _ => false

theorem Micro.sendsBytes_spec {op : Micro} (h : op.sendsBytes = true) :
    op.isSend = true ∧ op.isTransfer = true ∧ op.sent.all PanelEvent.isByte = true := by
  cases op with
  | sendCommand b => exact ⟨rfl, rfl, rfl⟩
  | sendData bs => exact ⟨rfl, rfl, by simp [Micro.sent, PanelEvent.isByte]⟩
  | _ => cases h

theorem isByte_flatMap_sent {lines : List Micro} (h : lines.all Micro.sendsBytes = true) :
    (lines.flatMap Micro.sent).all PanelEvent.isByte = true := by
  rw [List.all_flatMap]
  exact List.all_eq_true.2 fun op hop => (Micro.sendsBytes_spec (List.all_eq_true.1 h op hop)).2.2

/-- R104: a refresh after a transfer. -/
theorem runLines_transferRefresh {transfer : List Micro} (h : transfer.all Micro.sendsBytes = true) (m : RefreshMode)
    {s : State} (hc : 1 ≤ s.cfg.busyPollCap)
    (hok : s.AnswersOk (answeredCount (transfer.flatMap Micro.sent) + 3 + s.cfg.busyPollCap)) :
    ∃ levels t, runLines ([.protocol .transferring true] ++ transfer ++ refresh s.cfg m ++ [.protocol .idle true]) s = t ∧
      Refreshed s t m (transfer.flatMap Micro.sent) levels := by
  have hspec := fun op hop => Micro.sendsBytes_spec (List.all_eq_true.1 h op hop)
  have hsend : transfer.all Micro.isSend = true := List.all_eq_true.2 fun op hop => (hspec op hop).1
  have htransfer : transfer.all Micro.isTransfer = true := List.all_eq_true.2 fun op hop => (hspec op hop).2.1
  obtain ⟨levels, u, hrun, hwait⟩ := runLines_sendsThenWait
    (lines := .protocol .transferring true :: transfer ++ refreshSends s.cfg m)
    (by rw [List.all_append, List.all_cons, hsend]; rfl) hc (by rwa [transferRefresh_sent, answeredCount_refresh])
    [.protocol .idle true]
  rw [transferRefresh_sent] at hwait
  have htrace : u.trace = s.trace ++ (transfer.flatMap Micro.sent ++ sendEvents 0x22 [refreshByte s.cfg m] ++ [.cmd 0x20] ++
      busyEvents levels) := by
    rw [hwait.state, List.append_assoc s.trace]
  have hlines : u.lines = { s.lines with dc := false, csN := s.csAtRest } := by
    have hl := runLines_lines_of_ok
      (lines := (.protocol .transferring true :: transfer ++ refreshSends s.cfg m) ++ .busyWait :: [.protocol .idle true])
      (s := s) (by rw [List.append_assoc, List.cons_append, List.all_cons, List.all_append, htransfer]; rfl)
      (by simp [refreshSends, Micro.sends]) (by rw [hrun]; exact htrace)
      (by rw [hrun]; rfl)
    rw [hrun, linesAfter_true_refresh (by
      rw [List.all_append, isByte_flatMap_sent h, isByte_sendEvents]; rfl)] at hl
    exact hl
  refine ⟨levels, (u.setProtocol .idle true).complete .ok, by rw [transfer_refresh_eq, hrun]; rfl, hwait.allowed,
    hwait.drawn, ?_, ?_⟩
  · simp only [← List.append_assoc] at htrace
    exact htrace
  · have hstate := hwait.state
    rw [hlines] at hstate
    rw [hstate]; rfl

/-! ### PNL_CLEAR and PNL_DISPLAY (R109, R110) -/

theorem whiteBytes_eq (cfg : Config) : whiteBytes cfg = List.replicate cfg.size 0xFF := by
  refine List.eq_replicate_iff.2 ⟨Memory.length_bytes _ _, fun b hb => ?_⟩
  obtain ⟨i, hi, rfl⟩ := List.mem_map.1 hb
  exact Memory.read_tabulate_of_lt (List.mem_range.1 hi) _

theorem clearTransfers_sent (cfg : Config) :
    (clearTransfers cfg).flatMap Micro.sent = sendEvents 0x24 (List.replicate cfg.size 0xFF) ++
      (if cfg.secondaryBankEn then sendEvents cfg.program.cmdRam2 (List.replicate cfg.size 0xFF) else []) := by
  rw [clearTransfers, List.flatMap_append, writeRam_sent, whiteBytes_eq]
  cases cfg.secondaryBankEn with
  | false => rfl
  | true => exact congrArg _ (writeRam_sent _ _)

theorem sendsBytes_clearTransfers (cfg : Config) : (clearTransfers cfg).all Micro.sendsBytes = true := by
  rw [clearTransfers]
  cases cfg.secondaryBankEn <;> rfl

theorem answeredCount_sendEvents (b : Byte) (bs : List Byte) : answeredCount (sendEvents b bs) = 1 + bs.length :=
  (answeredCount_append [.cmd b] (bs.map .data)).trans (congrArg (1 + ·) (answeredCount_data bs))

theorem answeredCount_clearTransfers (cfg : Config) :
    answeredCount ((clearTransfers cfg).flatMap Micro.sent) = (1 + cfg.size) * (if cfg.secondaryBankEn then 2 else 1) := by
  rw [answeredCount_eq_weigh]
  exact (weighSent_clearTransfers answered_toNat_byte cfg).trans (Nat.one_mul _)

/-- Settles O41: past its checks the command is the fill, the transfers to the banks and a refresh. -/
theorem clearWhitensAndRefreshes : Obligations.ClearWhitensAndRefreshes := by
  unfold Obligations.ClearWhitensAndRefreshes
  intro m s hrel hinit hc hok
  obtain ⟨levels, t, hrun, hallowed, hdrawn, htrace, hstate⟩ := runLines_transferRefresh (s := s.filled (.pnlClear m))
    (sendsBytes_clearTransfers s.cfg) m hc (hok.mono (by rw [answeredCount_clearTransfers]; exact Nat.le_refl _))
  have hfb : t.fb = (s.filled (.pnlClear m)).fb := (congrArg State.fb hstate).trans rfl
  rw [clearTransfers_sent, ← List.append_assoc] at htrace
  refine ⟨decodeOfEncodeIsTheCommand (.pnlClear m), levels, t,
    exec_of_mayTransfer (i := .pnlClear m) ⟨hrel, hinit⟩ hrun, hallowed, hdrawn, ?_, htrace, ?_⟩
  · rw [hfb]
    exact fun i hi => Memory.read_tabulate_of_lt hi _
  · rw [hfb]
    exact hstate

/-- Settles O42: past its checks the command is one transfer and a refresh. -/
theorem displaySendsTheBuffer : Obligations.DisplaySendsTheBuffer := by
  unfold Obligations.DisplaySendsTheBuffer
  intro m src s hrel hinit hsrc hc hok
  obtain ⟨levels, t, hrun, hallowed, hdrawn, htrace, hstate⟩ := runLines_transferRefresh (s := s)
    (transfer := writeRam 0x24 (Memory.bytes s.cfg.size (s.buffer src))) rfl m hc
    (hok.mono (by rw [writeRam_sent, answeredCount_sendEvents, Memory.length_bytes]; omega))
  rw [writeRam_sent] at htrace
  refine ⟨?_, levels, t, exec_of_mayTransfer (i := .pnlDisplay m src) ⟨hrel, hinit, hsrc⟩ hrun, hallowed,
    hdrawn, ?_, hstate⟩
  case refine_2 => cases src <;> exact htrace
  have hword := decodeOfEncodeIsTheCommand (.pnlDisplay m src)
  rwa [encode, Instr.fieldBits, ← BitVec.or_assoc] at hword

/-! ### PNL_INIT (R108) -/

theorem registerProgram_sent (cfg : Config) :
    (registerProgram cfg).flatMap Micro.sent =
      sendEvents cfg.program.cmdTemp cfg.program.dataTemp ++
      sendEvents cfg.program.cmdSoftstart cfg.program.dataSoftstart ++ sendEvents 0x01 (encDrvout cfg) ++
      sendEvents cfg.program.cmdBorder cfg.program.dataBorder ++ sendEvents 0x11 [cfg.program.dataEntry] ++
      sendEvents 0x44 (encXwin cfg) ++ sendEvents 0x45 (encYwin cfg) ++ sendEvents 0x4E (encXcnt cfg) ++
      sendEvents 0x4F encYcnt := by
  simp [registerProgram, Micro.sent, sendEvents]

theorem answeredCount_registerProgram (cfg : Config) :
    answeredCount ((registerProgram cfg).flatMap Micro.sent) = 9 + parameterBytes cfg :=
  (answeredCount_eq_weigh _).trans ((weighSent_registerProgram answered_toNat_byte cfg).trans (Nat.one_mul _))

/-- R94, R102: the register program ends with a data byte, so DC is left high. -/
theorem linesAfter_true_registerProgram (cfg : Config) (l : Lines) :
    linesAfter true ((registerProgram cfg).flatMap Micro.sent) l = { l with dc := true } := by
  rw [registerProgram_sent, linesAfter_true_append]
  obtain ⟨d, hd⟩ := linesAfter_true_bytes (l := l) (events := sendEvents cfg.program.cmdTemp cfg.program.dataTemp ++
      sendEvents cfg.program.cmdSoftstart cfg.program.dataSoftstart ++ sendEvents 0x01 (encDrvout cfg) ++
      sendEvents cfg.program.cmdBorder cfg.program.dataBorder ++ sendEvents 0x11 [cfg.program.dataEntry] ++
      sendEvents 0x44 (encXwin cfg) ++ sendEvents 0x45 (encYwin cfg) ++ sendEvents 0x4E (encXcnt cfg))
    (by simp only [List.all_append, isByte_sendEvents, Bool.and_self])
  rw [hd]
  rfl

/-- R99, R102, R108: the levels PNL_INIT leaves, CS_N aside. -/
theorem linesAfter_true_pnlInit (cfg : Config) (first second : List Bool) (l : Lines) :
    linesAfter true (initSends.flatMap Micro.sent ++ busyEvents first ++ (registerProgram cfg).flatMap Micro.sent ++
      busyEvents second) l = { rstN := true, dc := true, csN := l.csN, pwrEn := true } := by
  rw [linesAfter_true_append, linesAfter_true_append, linesAfter_true_append, linesAfter_true_busyEvents,
    linesAfter_true_busyEvents, linesAfter_true_registerProgram]
  rfl

/-- R97, R98: two busy-waits, one after the other, read the levels to come in their order. -/
theorem busyAt_append {e e' : Env} {first second : List Bool} {n : Nat} (htaken : Env.Taken e e' n first.length)
    (hfirst : ∀ j, j < first.length → first[j]? = some (e.busyAt j))
    (hsecond : ∀ j, j < second.length → second[j]? = some (e'.busyAt j)) :
    ∀ j, j < (first ++ second).length → (first ++ second)[j]? = some (e.busyAt j) := by
  intro j hj
  rw [List.length_append] at hj
  by_cases hlt : j < first.length
  · rw [List.getElem?_append_left hlt, hfirst j hlt]
  · rw [List.getElem?_append_right (by omega), hsecond _ (by omega), htaken.busy, Nat.sub_add_cancel (by omega)]

/-- Settles O40: the lines before each busy-wait only send, and each busy-wait follows on the draws of what came before. -/
theorem initRunsTheSequence : Obligations.InitRunsTheSequence := by
  unfold Obligations.InitRunsTheSequence
  intro s hrel hc hok
  have hcount : answeredCount (initSends.flatMap Micro.sent) = 5 := rfl
  have hprogram : (Micro.protocol .configured false :: registerProgram s.cfg).flatMap Micro.sent =
      (registerProgram s.cfg).flatMap Micro.sent := rfl
  obtain ⟨first, r, hrun, hfirst⟩ := runLines_sendsThenWait (lines := initSends) rfl hc (hok.mono (by omega))
    ((.protocol .configured false :: registerProgram s.cfg) ++ .busyWait :: [.protocol .idle true])
  have hcfg : r.cfg = s.cfg := by rw [hfirst.state]
  have hroom := hfirst.allowed.2.1
  obtain ⟨second, u, hrun', hallowed, hdrawn, -, hu⟩ := runLines_sendsThenWait
    (lines := .protocol .configured false :: registerProgram s.cfg) (s := r) rfl (hcfg ▸ hc)
    (hok.taken hfirst.taken (by rw [hprogram, answeredCount_registerProgram, hcfg]; omega)) [.protocol .idle true]
  have hend : runLines (transferLines s .pnlInit) s = (u.setProtocol .idle true).complete .ok :=
    hrun.trans hrun'
  have htrace : u.trace = s.trace ++ (initSends.flatMap Micro.sent ++ busyEvents first ++
      (registerProgram s.cfg).flatMap Micro.sent ++ busyEvents second) := by
    rw [hu, hfirst.state, hprogram]
    simp only [List.append_assoc]
  have hlines : u.lines = { rstN := true, dc := true, csN := s.csAtRest, pwrEn := true } := by
    have hl := runLines_lines_of_ok (transferLines_isTransfer s .pnlInit) rfl (by rw [hend]; exact htrace)
      (by rw [hend]; rfl)
    rw [hend, linesAfter_true_pnlInit] at hl
    exact hl
  refine ⟨decodeOfEncodeIsTheCommand .pnlInit, first, second, _,
    exec_of_mayTransfer (i := .pnlInit) hrel hend, hfirst.allowed, hcfg ▸ hallowed,
    busyAt_append hfirst.taken hfirst.drawn hdrawn, ?_, ?_⟩
  · rw [registerProgram_sent] at htrace
    simp only [← List.append_assoc] at htrace
    exact htrace
  · rw [hlines, hfirst.state] at hu
    rw [hu]
    rfl

/-! ### PNL_SLEEP and the length of every trace (R111, R113) -/

/-- Settles O43: past its checks the command is one command byte with its data byte and a wait. -/
theorem sleepEndsTheSession : Obligations.SleepEndsTheSession := by
  unfold Obligations.SleepEndsTheSession
  intro s hrel hinit hok
  obtain ⟨t, hrun, -, ht⟩ := runLines_send 0x10 [s.cfg.program.dataSleep] hok [.delay .sleep, .protocol .sleeping false]
  refine ⟨decodeOfEncodeIsTheCommand .pnlSleep, _,
    exec_of_mayTransfer (i := .pnlSleep) ⟨hrel, hinit⟩ hrun, ?_⟩
  have htrace : s.trace ++ [.cmd 0x10, .data s.cfg.program.dataSleep, .wait .sleep] =
      s.trace ++ sendEvents 0x10 [s.cfg.program.dataSleep] ++ [.wait .sleep] := by simp [sendEvents]
  rw [htrace, ht]
  rfl

/-- Settles O48: the bound on the weight of a command's events, where each weighs 1. -/
theorem everyTraceIsBounded : Obligations.EveryTraceIsBounded := by
  unfold Obligations.EveryTraceIsBounded
  intro i s hc
  obtain ⟨events, htrace, hle⟩ := runLines_linesOf_length i hc
  exact ⟨_, events, exec_eq_runLines i s, htrace, hle⟩

end Sys2Proof.Machine


/-! PROOFS. Reset, and the hazards of reading a counter while a command runs (R6, R129, R130, R132). -/

namespace Sys2Proof.Machine

/-! ### Counter reads while a command runs (R132) -/

/-- R132: while a command runs the free choice is all that decides which of the two values a counter read gives. -/
theorem State.counterValue_of_run {s : State} (h : s.run = true) (before : Word) (value : State → Word) :
    s.counterValue before value = before ∨ s.counterValue before value = value s.finished := by
  cases hchoice : Config.freeChoice s.env.choicesDrawn with
  | true => exact .inl (by simp [State.counterValue, h, hchoice])
  | false => exact .inr (by simp [State.counterValue, h, hchoice])

/-- R42, R43: an aligned word read of the register space gives the register's value. -/
theorem State.readValue_register {a : Nat} (ha : a < 0x100000) (h4 : a % 4 = 0) (s : State) :
    s.readValue a .four = s.registerValue a := by
  simp only [State.readValue, (legalRead_registers ha _).2 ⟨rfl, h4⟩, if_true, regionOf_registers ha]

/-- R132, S3: while a command runs each counter register reads its value at the acceptance or at the completion. -/
theorem State.registerValue_counters_of_run {s : State} (h : s.run = true) :
    (s.registerValue 0x28 = s.before.dimWord ∨ s.registerValue 0x28 = s.finished.image.dimWord) ∧
      (s.registerValue 0x2C = s.before.offWord ∨ s.registerValue 0x2C = s.finished.image.offWord) ∧
      (s.registerValue 0x30 = s.before.cnt ∨ s.registerValue 0x30 = s.finished.image.cnt) ∧
      (s.registerValue 0x34 = s.beforeLoadCnt ∨ s.registerValue 0x34 = s.finished.loadCnt) :=
  ⟨State.counterValue_of_run h _ fun t => t.image.dimWord, State.counterValue_of_run h _ fun t => t.image.offWord,
    State.counterValue_of_run h _ fun t => t.image.cnt, State.counterValue_of_run h _ fun t => t.loadCnt⟩

/-- Settles O56: left alone the sequencer ends in `State.finished`, the state a counter read takes its new value from. -/
theorem counterReadIsOldOrNew : Obligations.CounterReadIsOldOrNew := by
  unfold Obligations.CounterReadIsOldOrNew
  intro s hrun
  refine ⟨s.finished, sequencerRun_eq s, ?_⟩
  simp (disch := decide) only [State.readValue_register]
  exact State.registerValue_counters_of_run hrun

/-! ### The state after reset (R6, R129, R130) -/

/-- R6: the default instance is within the limits, whatever the parameters the spec leaves open. -/
theorem Config.wf_standard : Config.standard.wf = true := rfl

/-- R129: the state after reset is what a released RESET_N makes of any block whose host has done nothing. -/
theorem State.blockReset_reset : State.reset.blockReset true = State.reset := rfl

/-- Settles O19: the reset values meet the invariant for every instance within R6's limits. -/
theorem resetHasInv : Obligations.ResetHasInv := by
  unfold Obligations.ResetHasInv
  rw [← State.blockReset_reset]
  exact .blockReset Config.wf_standard true

/-- R129: driven low, or released, RESET_N resets the block. -/
theorem State.takeAct_resetN {s : State} {level : Bool} (h : level = false ∨ s.resetN = false) :
    s.takeAct (.resetN level) = s.blockReset level := by
  have hedge : (s.resetN && level) = false := by
    rcases h with h | h <;> simp [h]
  simp [State.takeAct, hedge]

/-- R24, R130: STATUS reads 0 after reset: every flag is clear, and PSTATE is Unpowered. -/
theorem State.statusWord_blockReset (level : Bool) (s : State) : (s.blockReset level).statusWord = 0 := by
  simp [State.statusWord, State.blockReset, State.ofConfig, State.run, SeqPos.isRunning, flagAt, PState.code]

/-- R25, R130: RESULT reads 0 after reset. -/
theorem State.word_result_blockReset (level : Bool) (s : State) : (s.blockReset level).result.word = 0 :=
  (by decide : Result.word ⟨.ok, false, 0⟩ = 0)

/-- Settles O21: the input has arrived and resets the block; each field then holds what `State.ofConfig` gives it. -/
theorem blockResetGivesTheResetValues : Obligations.BlockResetGivesTheResetValues := by
  unfold Obligations.BlockResetGivesTheResetValues
  intro s level rest hw hlevel hin
  have hstep : step s = .next (State.blockReset level { s with inbox := rest }) := by
    rw [step_act hw hin (.inl rfl), State.takeAct_resetN (s := { s with inbox := rest }) hlevel]
  have hstatus := State.statusWord_blockReset level { s with inbox := rest }
  have hresult := State.word_result_blockReset level { s with inbox := rest }
  refine ⟨_, hstep, rfl, rfl, rfl, rfl, rfl, fun _ _ => ⟨rfl, rfl⟩, rfl, rfl, rfl, rfl, rfl, rfl, hstatus, hresult, rfl, rfl,
    rfl, rfl, rfl, rfl, rfl, rfl, rfl, rfl, State.toNat_geomWord hw, State.toNat_sizeWord hw⟩

/-! ### Accesses while RESET_N is low (R129) -/

/-- R129: while RESET_N is low a write has no effect. -/
theorem State.takeAct_write_inReset {s : State} (h : s.resetN = false) (addr : HostAddr) (n : AccessSize) (v : Word) :
    s.takeAct (.write addr n v) = s := by
  simp [State.takeAct, h]

/-- R129: while RESET_N is low a read is left unanswered. -/
theorem State.takeAct_read_inReset {s : State} (h : s.resetN = false) (addr : HostAddr) (n : AccessSize) :
    s.takeAct (.read addr n) = s.reply none := by
  simp [State.takeAct, h]

/-- Settles O22: no command runs, so the access arrives at once, and finds the block in reset. -/
theorem noAccessIsAnsweredInReset : Obligations.NoAccessIsAnsweredInReset := by
  unfold Obligations.NoAccessIsAnsweredInReset
  intro s rest hw hreset hq
  have hidle : s.run = false := s.run_eq_false.2 hq
  refine ⟨fun k addr n v hin => ?_, fun k addr n hin => ?_⟩
  · rw [step_act hw hin (.inr hidle), State.takeAct_write_inReset (s := { s with inbox := rest }) hreset]
  · rw [step_act hw hin (.inr hidle), State.takeAct_read_inReset (s := { s with inbox := rest }) hreset]
    rfl

end Sys2Proof.Machine
